-- ==== Sys2Proof/Word.lean ====
section
/-! DEFINITION. The word types of the AES-CCM engine (spec R6, R7, R11): a byte, a byte sequence, a 32-bit
register value and a 16-byte block. -/

namespace Sys2Proof

/-- A byte: 8 bits, unsigned (R6). -/
abbrev Byte := BitVec 8

/-- A byte sequence; index 0 is the first byte (R7). -/
abbrev Bytes := List Byte

/-- The value of a 32-bit register of space REG, or of a header word of the cipher port (R11, R50, R61). -/
abbrev Word := BitVec 32

/-- A block: exactly 16 bytes (R7), the unit of the block function E (R127). -/
abbrev Block := Vector Byte 16

end Sys2Proof
end

