-- ==== Sys2Proof/Syntax.lean ====
section
/-! DEFINITION. The operations of spec/opcode_table.json, one constructor each, with the operands the spec
gives them, and the names (spaces, modes, key classes, directions, statuses) they are written with. -/

namespace Sys2Proof

/-- The byte-addressed buffer spaces of R30 (R15 operands, R16 outputs). -/
inductive Space where
  | key | nonce | aad | msgIn | tagIn | msgOut | tagOut
deriving DecidableEq, Repr

/-- MODE on the cipher port (R62). The engine sends only `cbc` and `ctr` (R121). -/
inductive Mode where
  | ecb | cbc | ctr
deriving DecidableEq, Repr

/-- KCLASS on the cipher port (R62, R124). -/
inductive KeyClass where
  | key128 | key192 | key256
deriving DecidableEq, Repr

/-- DIR on the cipher port (R62). The engine sends only `encrypt` (R122). -/
inductive Direction where
  | encrypt | decrypt
deriving DecidableEq, Repr

/-- The status the primitive answers a request with (R61): OK (0) or Error (1). -/
inductive PortStatus where
  | ok | error
deriving DecidableEq, Repr, Inhabited

/-- The named operands of CIPH_SET_KEY (R61, R122). `key_byte_length` is the length of `key` and
`iv_byte_length` the length of `iv`. -/
structure SetKey where
  keyClass  : KeyClass
  direction : Direction
  key       : Bytes
  iv        : Bytes
deriving DecidableEq, Repr

/-- Where ASM_CBCMAC takes its message from (R85): `MSG_IN` on the encrypt path, the recovered plaintext
`ctr_out[16 ..< 16+m]` on the decrypt path. -/
inductive MsgSource where
  | msgIn | recovered
deriving DecidableEq, Repr

/-- One constructor per row of spec/opcode_table.json: the four CMD words (R51), the three cipher-port
requests (R61), the five internal operations (no bit pattern). -/
inductive Instr where
  /-- CCM_ENC, encrypt and tag (R100 to R104). -/
  | ccmEnc
  /-- CCM_DEC, authenticate and decrypt (R110 to R116). -/
  | ccmDec
  /-- CBC_SIZE (R72). -/
  | cbcSize
  /-- CTR_SIZE (R73). -/
  | ctrSize
  /-- CIPH_INIT (R121). -/
  | ciphInit (mode : Mode)
  /-- CIPH_SET_KEY (R122). -/
  | ciphSetKey (setup : SetKey)
  /-- CIPH_ENCRYPT over `input`, offset 0 (R123). -/
  | ciphEncrypt (input : Bytes)
  /-- VALIDATE (R80). -/
  | validate
  /-- ASM_CBCMAC (R81 to R86). -/
  | asmCbcmac (source : MsgSource)
  /-- ASM_CTR_ENC (R90). -/
  | asmCtrEnc
  /-- ASM_CTR_DEC (R91). -/
  | asmCtrDec
  /-- BUILD_CTR_IV (R92). -/
  | buildCtrIv
deriving DecidableEq, Repr

end Sys2Proof
end

