-- ==== Sys2Proof/Config.lean ====
section
/-! DEFINITION. The OPEN parameters of the spec (R5, R22, 92_eei_decisions.md section 1): what the engine's
rules take as arguments. Each is an opaque constant, a free value no proof can look into. -/

namespace Sys2Proof

/-- The open parameters, as one argument of the operations, so that an operation can also be run at chosen
parameters (a test's block function, a test's capacities). -/
structure Params where
  /-- E(key, block), the block cipher's forward function (R127). -/
  blockCipher : Bytes → Block → Block
  /-- The primitive's status for the request of this number, where State lists none (R129). -/
  portStatus : Nat → PortStatus
  /-- Byte `i` of what the primitive outputs for request number `n` outside its contract (R120 a, R131, R132). -/
  freeOutput : Nat → Nat → Byte
  /-- What byte `i` of an operand buffer holds after reset number `n` (R21). -/
  resetByte : Nat → Space → Nat → Byte
  /-- MSG_CAP, `none` = unbounded (R5, D7). -/
  msgCap : Option Nat
  /-- WORK_CAP in blocks, `none` = unbounded (R5, D11). -/
  workCap : Option Nat

/-- E: nothing is assumed of it but that it is a function of key and block (R127). -/
opaque Config.blockCipher : Bytes → Block → Block

/-- One draw per cipher-port request, by the request's number (R129, D30). -/
opaque Config.portStatus : Nat → PortStatus

/-- Output bytes the spec leaves unspecified, by request number and byte index (R120 a, R131, R132). -/
opaque Config.freeOutput : Nat → Nat → Byte

/-- One draw per byte of the operand buffers, by reset number, space and index (R21, D25). -/
opaque Config.resetByte : Nat → Space → Nat → Byte

/-- MSG_CAP, a natural number or unbounded (R5). -/
opaque Config.msgCap : Option Nat

/-- WORK_CAP less one: R5 gives WORK_CAP as a natural number at least 1, or unbounded. -/
opaque Config.workCapLessOne : Option Nat

/-- WORK_CAP (R5, R35). -/
def Config.workCap : Option Nat := Config.workCapLessOne.map (· + 1)

/-- The machine's parameters: the free values above. -/
def Config.params : Params :=
  ⟨Config.blockCipher, Config.portStatus, Config.freeOutput, Config.resetByte, Config.msgCap, Config.workCap⟩

end Sys2Proof
end

