-- ==== Sys2Proof/WellFormed.lean ====
section
/-! DEFINITION. Which operations are well-formed: the operand values that an encoding of the spec admits
(R61, R62, R124). -/

namespace Sys2Proof

/-- KEYBYTES of a key-size class (R62, R124). -/
def KeyClass.bytes : KeyClass → Nat
  | .key128 => 16
  | .key192 => 24
  | .key256 => 32

/-- CIPH_SET_KEY carries KEYBYTES bytes of key, as its class says, and 16 bytes of IV (R61, R62). -/
def SetKey.wf (r : SetKey) : Bool :=
  r.key.length = r.keyClass.bytes && r.iv.length = 16

/-- CIPH_ENCRYPT carries LENGTH bytes, a multiple of 16 that a 32-bit LENGTH can say (R61). -/
def encryptInputWf (input : Bytes) : Bool :=
  input.length % 16 = 0 && input.length < 2 ^ 32

/-- Well-formedness of an operation's operands. The commands and the internal operations have no operand that
could be ill-formed: a message source is one of the two that R85 names. -/
def Instr.wf : Instr → Bool
  | .ccmEnc => true
  | .ccmDec => true
  | .cbcSize => true
  | .ctrSize => true
  | .ciphInit _ => true
  | .ciphSetKey r => r.wf
  | .ciphEncrypt input => encryptInputWf input
  | .validate => true
  | .asmCbcmac _ => true
  | .asmCtrEnc => true
  | .asmCtrDec => true
  | .buildCtrIv => true

end Sys2Proof
end

