-- ==== Sys2Proof/Decode.lean ====
section
/-! DEFINITION. Decoding and encoding. Two wires carry words: the host's writes to CMD (R50 to R52) and the
cipher port (R61, R62). The internal operations have no bit pattern. -/

namespace Sys2Proof

/-- A request as it stands on the cipher port: the 32-bit items (HDR, and for CIPH_ENCRYPT also LENGTH and
OFFSET), then the payload's bytes (R61). The spec gives no byte order for the 32-bit items, so they are kept
as values (log 13). -/
structure PortFrame where
  words : List Word
  bytes : Bytes
deriving DecidableEq, Repr

/-- What travels on one of the two wires. -/
inductive Wire where
  /-- A word the host writes to CMD (R50). -/
  | cmd (w : Word)
  /-- A request on the cipher port (R61). -/
  | port (f : PortFrame)
deriving DecidableEq, Repr

/-- Why a word or a frame stands for no operation. -/
inductive DecodeError where
  /-- A CMD word that is none of R51's four (R52). -/
  | reservedCommand
  /-- A frame without a header word. -/
  | noHeader
  /-- KIND 3 (R61: reserved, never issued). -/
  | reservedKind
  /-- MODE 3 (R62). -/
  | reservedMode
  /-- KCLASS 3 (R62). -/
  | reservedKeyClass
  /-- A header bit that R61 fixes to 0 is 1. -/
  | reservedBits
  /-- KEYBYTES is not what KCLASS says (R62). -/
  | keyLength
  /-- IVBYTES is not 16 (R61: always 16). -/
  | ivLength
  /-- OFFSET is not 0 (R61: always 0). -/
  | offset
  /-- LENGTH is no multiple of 16 (R61). -/
  | blockLength
  /-- The payload is not of the form or length the header gives it (R61). -/
  | payload
deriving DecidableEq, Repr

/-! ## The command word -/

/-- R51: the word of each command, matched over all 32 bits, so that RSV must be 0 (R50). -/
def decodeCommand (w : Word) : Except DecodeError Instr :=
  if w = 0x00000001#32 then .ok .ccmEnc
  else if w = 0x00000002#32 then .ok .ccmDec
  else if w = 0x00000010#32 then .ok .cbcSize
  else if w = 0x00000011#32 then .ok .ctrSize
  else .error .reservedCommand

/-! ## The cipher port -/

/-- MODE codes (R62). -/
def modeCode : Mode → BitVec 2
  | .ecb => 0
  | .cbc => 1
  | .ctr => 2

/-- The mode of a MODE code; 3 is reserved (R62). -/
def modeOfCode (c : BitVec 2) : Option Mode :=
  if c = 0 then some .ecb else if c = 1 then some .cbc else if c = 2 then some .ctr else none

/-- KCLASS codes (R62). -/
def keyClassCode : KeyClass → BitVec 2
  | .key128 => 0
  | .key192 => 1
  | .key256 => 2

/-- The class of a KCLASS code; 3 is reserved (R62). -/
def keyClassOfCode (c : BitVec 2) : Option KeyClass :=
  if c = 0 then some .key128 else if c = 1 then some .key192 else if c = 2 then some .key256 else none

/-- DIR codes (R62). -/
def directionCode : Direction → BitVec 1
  | .encrypt => 0
  | .decrypt => 1

/-- The direction of a DIR bit (R62). -/
def directionOfCode (c : BitVec 1) : Direction :=
  if c = 0 then .encrypt else .decrypt

/-- HDR[1:0] KIND (R61). -/
def hdrKind (hdr : Word) : BitVec 2 := hdr.extractLsb' 0 2

/-- HDR[3:2], MODE of CIPH_INIT and KCLASS of CIPH_SET_KEY (R61). -/
def hdrSelect (hdr : Word) : BitVec 2 := hdr.extractLsb' 2 2

/-- HDR[4] DIR of CIPH_SET_KEY (R61). -/
def hdrDirection (hdr : Word) : BitVec 1 := hdr.extractLsb' 4 1

/-- HDR[10:5] KEYBYTES of CIPH_SET_KEY (R61). -/
def hdrKeyBytes (hdr : Word) : BitVec 6 := hdr.extractLsb' 5 6

/-- HDR[15:11] IVBYTES of CIPH_SET_KEY (R61). -/
def hdrIvBytes (hdr : Word) : BitVec 5 := hdr.extractLsb' 11 5

/-- CIPH_INIT: no payload, HDR[31:4] = 0 (R61). -/
def decodeInit (hdr : Word) (rest : List Word) (bytes : Bytes) : Except DecodeError Instr :=
  if hdr.extractLsb' 4 28 ≠ 0 then .error .reservedBits
  else if rest ≠ [] ∨ bytes ≠ [] then .error .payload
  else
    match modeOfCode (hdrSelect hdr) with
    | none => .error .reservedMode
    | some m => .ok (.ciphInit m)

/-- CIPH_SET_KEY: KEYBYTES bytes of key, then 16 bytes of IV, HDR[31:16] = 0 (R61). -/
def decodeSetKey (hdr : Word) (rest : List Word) (bytes : Bytes) : Except DecodeError Instr :=
  if hdr.extractLsb' 16 16 ≠ 0 then .error .reservedBits
  else
    match keyClassOfCode (hdrSelect hdr) with
    | none => .error .reservedKeyClass
    | some c =>
      if (hdrKeyBytes hdr).toNat ≠ c.bytes then .error .keyLength
      else if (hdrIvBytes hdr).toNat ≠ 16 then .error .ivLength
      else if rest ≠ [] ∨ bytes.length ≠ c.bytes + 16 then .error .payload
      else .ok (.ciphSetKey
        ⟨c, directionOfCode (hdrDirection hdr), bytes.take c.bytes, bytes.drop c.bytes⟩)

/-- CIPH_ENCRYPT: LENGTH, OFFSET = 0, then LENGTH bytes of input, HDR[31:2] = 0 (R61). -/
def decodeEncrypt (hdr : Word) (rest : List Word) (bytes : Bytes) : Except DecodeError Instr :=
  if hdr.extractLsb' 2 30 ≠ 0 then .error .reservedBits
  else
    match rest with
    | [len, offset] =>
      if offset ≠ 0 then .error .offset
      else if len.toNat % 16 ≠ 0 then .error .blockLength
      else if bytes.length ≠ len.toNat then .error .payload
      else .ok (.ciphEncrypt bytes)
    | _ => .error .payload

/-- A frame of the cipher port, by its KIND (R61). -/
def decodePort (f : PortFrame) : Except DecodeError Instr :=
  match f.words with
  | [] => .error .noHeader
  | hdr :: rest =>
    if hdrKind hdr = 0 then decodeInit hdr rest f.bytes
    else if hdrKind hdr = 1 then decodeSetKey hdr rest f.bytes
    else if hdrKind hdr = 2 then decodeEncrypt hdr rest f.bytes
    else .error .reservedKind

/-- Decoding, total on whatever stands on a wire. -/
def decode : Wire → Except DecodeError Instr
  | .cmd w => decodeCommand w
  | .port f => decodePort f

/-! ## The encoder -/

/-- HDR of CIPH_INIT (R61): KIND 0, MODE at [3:2]. -/
def initHeader (m : Mode) : Word := (0#28 ++ modeCode m) ++ 0#2

/-- HDR of CIPH_SET_KEY (R61): KIND 1, KCLASS at [3:2], DIR at [4], KEYBYTES at [10:5], IVBYTES = 16 at
[15:11]. -/
def setKeyHeader (c : KeyClass) (d : Direction) : Word :=
  0#16 ++ 16#5 ++ BitVec.ofNat 6 c.bytes ++ directionCode d ++ keyClassCode c ++ 1#2

/-- HDR of CIPH_ENCRYPT (R61): KIND 2. -/
def encryptHeader : Word := 0x00000002#32

/-- The frame of CIPH_SET_KEY (R61). -/
def setKeyFrame (r : SetKey) : PortFrame :=
  ⟨[setKeyHeader r.keyClass r.direction], r.key ++ r.iv⟩

/-- The frame of CIPH_ENCRYPT (R61): LENGTH in bytes, OFFSET 0. -/
def encryptFrame (input : Bytes) : PortFrame :=
  ⟨[encryptHeader, BitVec.ofNat 32 input.length, 0#32], input⟩

/-- The encoding of an operation, where it has one (R51, R61); the internal operations have none. -/
def encode : Instr → Option Wire
  | .ccmEnc => some (.cmd 0x00000001#32)
  | .ccmDec => some (.cmd 0x00000002#32)
  | .cbcSize => some (.cmd 0x00000010#32)
  | .ctrSize => some (.cmd 0x00000011#32)
  | .ciphInit m => some (.port ⟨[initHeader m], []⟩)
  | .ciphSetKey r => some (.port (setKeyFrame r))
  | .ciphEncrypt input => some (.port (encryptFrame input))
  | .validate => none
  | .asmCbcmac _ => none
  | .asmCtrEnc => none
  | .asmCtrDec => none
  | .buildCtrIv => none

/-! ## A bare word of the opcode table -/

/-- The frame a header word begins when every operand word and byte behind it is zero: the 32-bit items and
the payload bytes that its KIND calls for (R61). -/
def zeroFrame (hdr : Word) : PortFrame :=
  if hdrKind hdr = 1 then ⟨[hdr], List.replicate ((hdrKeyBytes hdr).toNat + 16) 0⟩
  else if hdrKind hdr = 2 then ⟨[hdr, 0#32, 0#32], []⟩
  else ⟨[hdr], []⟩

/-- The first 32-bit word of an instruction whose bits are `w`, every bit above `nbits` being 0. -/
def tableWord (nbits w : Nat) : Word := BitVec.ofNat 32 (w % 2 ^ nbits)

/-- The wire on which a bare table word travels: the CMD register if it is a command word, else the cipher
port if it begins a request, else the CMD register (where R52 makes it a reserved word). The table's words
0x00000001 and 0x00000002 fit both wires and are read as commands (log 4). -/
def tableWire (nbits w : Nat) : Wire :=
  let word := tableWord nbits w
  match decodeCommand word, decodePort (zeroFrame word) with
  | .ok _, _ => .cmd word
  | .error _, .ok _ => .port (zeroFrame word)
  | .error _, .error _ => .cmd word

/-- The instruction the decoder reads from a bare word of the opcode table. -/
def decodeTableWord (nbits w : Nat) : Option Instr :=
  match decode (tableWire nbits w) with
  | .ok i => some i
  | .error _ => none

end Sys2Proof
end

