-- ==== Sys2Proof/Machine/State.lean ====
section
/-! DEFINITION. The state of the engine (10_state.md): the registers, the buffers, the sequencer's phase, the
working buffers and the cipher context of the spec, then the model's own fields; the faults, the refusals, and
the state after reset (R21). -/

namespace Sys2Proof.Machine

/-- The sequencer's phases (R18). -/
inductive Phase where
  | idle | clearOut | validate | alloc | asmCbc | cbcInit | cbcKey | cbcRun | ctrIv | asmCtr
  | ctrInit | ctrKey | ctrRun | recover | compare | output | free | size
deriving DecidableEq, Repr

/-- The four commands (R51), as the sequencer knows them: whose phase list it walks (R18). -/
inductive Command where
  | ccmEnc | ccmDec | cbcSize | ctrSize
deriving DecidableEq, Repr

/-- The results of R140, in the order of their codes. -/
inductive Result where
  | ok | invalidTagLength | invalidNonceLength | aadTooLong | messageTooLong | allocationFailure
  | cipherError | authenticationFailure | invalidKeyLength | invalidCommand
deriving DecidableEq, Repr

/-- The five read-write registers of REG (R11), indices 2 to 6. -/
inductive OperandReg where
  | keyBits | nonceLen | aadLen | msgLen | tagLen
deriving DecidableEq, Repr

/-- The five working buffers (R17). -/
inductive WorkBuffer where
  | bInput | cbcOut | ctrIv | ctrIn | ctrOut
deriving DecidableEq, Repr

/-- The primitive's context (R19): the mode CIPH_INIT selected, what CIPH_SET_KEY installed, and whether no
CIPH_ENCRYPT has used it yet (after one, the primitive's counter and chaining value have moved on). A part that
is absent is one the spec leaves unspecified. -/
structure CipherContext where
  mode  : Option Mode
  setup : Option SetKey
  fresh : Bool
deriving DecidableEq, Repr

/-- A request the engine issues: the record of its named operands (R61: "the normative form"). -/
inductive PortRequest where
  | init (mode : Mode)
  | setKey (setup : SetKey)
  | encrypt (input : Bytes)
deriving DecidableEq, Repr

/-- The primitive's answer (R61): Error, or OK with the output bytes (none but for CIPH_ENCRYPT). -/
inductive PortAnswer where
  | error
  | ok (output : Bytes)
deriving DecidableEq, Repr

/-- One request and its answer, as the cipher port shows them (R130). -/
structure PortEvent where
  request : PortRequest
  answer  : PortAnswer
deriving DecidableEq, Repr

/-- What reaches the engine from outside: the host's accesses (R30, R33) and reset (R160). -/
inductive Input where
  | writeReg (index : Nat) (value : Word)
  | readReg (index : Nat)
  | writeByte (space : Space) (index : Nat) (value : Byte)
  | readByte (space : Space) (index : Nat)
  | reset
deriving DecidableEq, Repr

/-- What a host read returned (R33). -/
inductive Reply where
  | reg (value : Word)
  | byte (value : Byte)
deriving DecidableEq, Repr

/-- The machine's state. Every buffer is the list of its written cells in canonical form (Machine/Memory.lean). -/
structure State where
  /-- KEY_BITS, REG index 2 (R11). -/
  keyBits : Word
  /-- NONCE_LEN, REG index 3 (R11). -/
  nonceLen : Word
  /-- AAD_LEN, REG index 4 (R11). -/
  aadLen : Word
  /-- MSG_LEN, REG index 5 (R11). -/
  msgLen : Word
  /-- TAG_LEN, REG index 6 (R11). -/
  tagLen : Word
  /-- STATUS, REG index 1: RESULT [3:0], DONE [4] (R13). -/
  status : Word
  /-- BLOCKS, REG index 7 (R14). -/
  blocks : Word
  /-- The KEY buffer (R15). -/
  key : List Host.Cell
  /-- The NONCE buffer (R15). -/
  nonce : List Host.Cell
  /-- The AAD buffer (R15). -/
  aad : List Host.Cell
  /-- The MSG_IN buffer (R15). -/
  msgIn : List Host.Cell
  /-- The TAG_IN buffer (R15). -/
  tagIn : List Host.Cell
  /-- The MSG_OUT buffer (R16). -/
  msgOut : List Host.Cell
  /-- The TAG_OUT buffer (R16). -/
  tagOut : List Host.Cell
  /-- The sequencer's phase (R18). -/
  phase : Phase
  /-- `b_input`, absent when no command has it (R17). -/
  bInput : Option Bytes
  /-- `cbc_out` (R17). -/
  cbcOut : Option Bytes
  /-- `ctr_iv` (R17). -/
  ctrIv : Option Bytes
  /-- `ctr_in` (R17). -/
  ctrIn : Option Bytes
  /-- `ctr_out` (R17). -/
  ctrOut : Option Bytes
  /-- The primitive's context (R19). -/
  context : CipherContext
  /-- The model's own: the command whose phase list the sequencer walks (log 12). -/
  command : Option Command
  /-- The model's own: a request waiting on the cipher port for its answer (log 3). -/
  port : Option PortFrame
  /-- The model's own: the host accesses and resets still to come, in program order (R36; log 1). -/
  inputs : List Input
  /-- The model's own: what the host's reads returned, oldest first (log 16). -/
  replies : List Reply
  /-- The model's own: the statuses the primitive gives to the next requests; past its end they are free
  values (R129; log 6). -/
  answers : List PortStatus
  /-- The model's own: how many requests have been issued, the index of the free values (log 6). -/
  issued : Nat
  /-- The model's own: every request with its answer, oldest first (R130; log 16). -/
  trace : List PortEvent
  /-- The model's own: how many resets have happened, the index of the free reset bytes (log 5). -/
  epoch : Nat
deriving DecidableEq, Repr

/-- The named faults: all of them stop where the spec describes no operands for what was started by hand; no
run from reset meets one. Each is safe: the model stops, it shows no behaviour. -/
inductive Fault where
  /-- An internal operation on lengths VALIDATE rejects (91_not_in_source.md N9). Raised by the assemblers, the
  IV builder and the key request of a phase. Safe. -/
  | notValidated
  /-- An internal operation on lengths that do not fit MSG_CAP and WORK_CAP (R35). Safe. -/
  | notAllocated
  /-- A working buffer that does not exist, or not with R17's size, would be read. Safe. -/
  | missingBuffer
  /-- The sequencer stands in a phase with no command (R18). Raised by the step. Safe. -/
  | noCommand
  /-- The sequencer stands in a phase that its command's list does not hold (R18). Raised by the step. Safe. -/
  | phaseNotInCommand
deriving DecidableEq, Repr

/-- The named refusals: the model has no step. -/
inductive Refusal where
  /-- An instruction without a meaning; no arm of `exec` answers it. Safe. -/
  | notModelled (mnemonic : String)
  /-- A host access to an index outside its space (R30, D36: "the model gives it no step"). Safe. -/
  | indexOutOfRange
  /-- A cipher-port frame that is no request (R61 to R63, 93 U11: never issued, no meaning needed). Safe. -/
  | reservedRequest (why : DecodeError)
deriving DecidableEq, Repr

/-- The context of a primitive that no request has set up (R21: unspecified; log 9). -/
def CipherContext.unset : CipherContext := ⟨none, none, false⟩

/-- The machine right after reset (R21, R160). -/
def State.reset : State where
  keyBits := 0
  nonceLen := 0
  aadLen := 0
  msgLen := 0
  tagLen := 0
  status := 0
  blocks := 0
  key := []
  nonce := []
  aad := []
  msgIn := []
  tagIn := []
  msgOut := []
  tagOut := []
  phase := .idle
  bInput := none
  cbcOut := none
  ctrIv := none
  ctrIn := none
  ctrOut := none
  context := CipherContext.unset
  command := none
  port := none
  inputs := []
  replies := []
  answers := []
  issued := 0
  trace := []
  epoch := 0

end Sys2Proof.Machine
end

