-- ==== Sys2Proof/Machine/Bytes.lean ====
section
/-! DEFINITION. Byte sequences and the natural-number helpers of R6 to R9. -/

namespace Sys2Proof.Machine

/-- `n` bytes of value 0x00 (R7). -/
def zeros (n : Nat) : Bytes := List.replicate n 0

/-- `s[a ..< a+n]` (R7). -/
def slice (s : Bytes) (a n : Nat) : Bytes := (s.drop a).take n

/-- `ceil(n/16)` (R7). -/
def cdiv16 (n : Nat) : Nat := (n + 15) / 16

/-- `s` zero-padded to a multiple of 16 bytes (R7). -/
def pad16 (s : Bytes) : Bytes := s ++ zeros ((16 - s.length % 16) % 16)

/-- The low byte of a natural number. -/
def lowByte (n : Nat) : Byte := BitVec.ofNat 8 n

/-- The `k`-byte big-endian encoding of `n`: byte 0 is the most significant (R7). -/
def be (n k : Nat) : Bytes := (List.range k).map fun j => lowByte ((n >>> (8 * (k - 1 - j))) &&& 0xFF)

/-- A byte sequence read as a big-endian number, byte 0 the most significant (R126). -/
def beNat (s : Bytes) : Nat := s.foldl (fun acc b => acc * 256 + b.toNat) 0

/-- Byte-wise exclusive or; on two blocks, `xor16` (R7). -/
def xorBytes (a b : Bytes) : Bytes := List.zipWith (· ^^^ ·) a b

/-- `buf[i ..< i + len(src)] <- src`, byte by byte in rising order (R9 MemWrite on a working buffer). A working
buffer keeps its length: a byte past its end has no place. -/
def putBytes : Bytes → Nat → Bytes → Bytes
  | buf, _, [] => buf
  | buf, i, b :: src => putBytes (buf.set i b) (i + 1) src

/-- A byte sequence as a block; the sequences the rules hand over have 16 bytes (R7). -/
def blockOf (s : Bytes) : Block := Vector.ofFn fun i => s.getD i.val 0

end Sys2Proof.Machine
end

