-- ==== Sys2Proof/Machine/Memory.lean ====
section
/-! DEFINITION. The byte-addressed spaces (R30): one canonical form, one read and one write for all seven, the
ranges of their indices, and what an unwritten byte reads as. -/

namespace Sys2Proof.Machine

/-- What an unlisted index of a space reads as: 0x00 in the output buffers (R16, R21: all-zero), no value in
the operand buffers, whose bytes are unspecified after reset (R21). -/
def unlisted : Space → Option Byte
  | .key => none
  | .nonce => none
  | .aad => none
  | .msgIn => none
  | .tagIn => none
  | .msgOut => some 0
  | .tagOut => some 0

/-- The value listed for an index, if one is. -/
def cellAt (i : Nat) : List Host.Cell → Option Byte
  | [] => none
  | (j, b) :: m => if i = j then some b else cellAt i m

/-- The value of a byte of a space, `none` where it is unspecified. -/
def memRead (sp : Space) (i : Nat) (m : List Host.Cell) : Option Byte :=
  match cellAt i m with
  | some b => some b
  | none => unlisted sp

/-- Lists `b` at index `i`, keeping the indices strictly rising. -/
def cellInsert (i : Nat) (b : Byte) : List Host.Cell → List Host.Cell
  | [] => [(i, b)]
  | (j, c) :: m =>
    if i < j then (i, b) :: (j, c) :: m
    else if i = j then (i, b) :: m
    else (j, c) :: cellInsert i b m

/-- Takes index `i` off the list. -/
def cellErase (i : Nat) : List Host.Cell → List Host.Cell
  | [] => []
  | (j, c) :: m => if i = j then m else (j, c) :: cellErase i m

/-- Writes one byte (R33), keeping the canonical form: a byte equal to what the unlisted index reads as is not
listed. -/
def memWrite (sp : Space) (i : Nat) (b : Byte) (m : List Host.Cell) : List Host.Cell :=
  if unlisted sp = some b then cellErase i m else cellInsert i b m

/-- `MemWrite(SPACE, i, len, bytes)` (R9), byte by byte in rising order. -/
def memWriteBytes (sp : Space) : Nat → Bytes → List Host.Cell → List Host.Cell
  | _, [], m => m
  | i, b :: bs, m => memWriteBytes sp (i + 1) bs (memWrite sp i b m)

/-- The canonical form: indices strictly rising, and no cell equal to what its index reads as unlisted. -/
abbrev Memory.wf (sp : Space) (m : List Host.Cell) : Prop :=
  m.Pairwise (fun a b => a.1 < b.1) ∧ ∀ c ∈ m, unlisted sp ≠ some c.2

/-- The size of a space in bytes (R5, R15, R16, R30); `none` where MSG_CAP is unbounded. -/
def spaceSize (P : Params) : Space → Option Nat
  | .key => some 32
  | .nonce => some 13
  | .aad => some 65279
  | .msgIn => P.msgCap
  | .tagIn => some 16
  | .msgOut => P.msgCap
  | .tagOut => some 16

/-- A number of bytes or blocks is at most a capacity (R35); an unbounded capacity always suffices. -/
def withinCap (n : Nat) : Option Nat → Bool
  | none => true
  | some c => n ≤ c

/-- `i` is an index of the space (R30). -/
def inSpace (P : Params) (sp : Space) (i : Nat) : Bool := withinCap (i + 1) (spaceSize P sp)

/-- The cells of a space in State. -/
def State.buffer (s : State) : Space → List Host.Cell
  | .key => s.key
  | .nonce => s.nonce
  | .aad => s.aad
  | .msgIn => s.msgIn
  | .tagIn => s.tagIn
  | .msgOut => s.msgOut
  | .tagOut => s.tagOut

/-- Replaces the cells of a space. -/
def State.setBuffer (s : State) (sp : Space) (m : List Host.Cell) : State :=
  match sp with
  | .key => { s with key := m }
  | .nonce => { s with nonce := m }
  | .aad => { s with aad := m }
  | .msgIn => { s with msgIn := m }
  | .tagIn => { s with tagIn := m }
  | .msgOut => { s with msgOut := m }
  | .tagOut => { s with tagOut := m }

/-- One byte of a space as a command or a host read sees it: its value, or where it has none, the free value of
that byte since the last reset (R21, R161: "an unspecified value, and the command will use it as data"). -/
def byteAt (P : Params) (s : State) (sp : Space) (i : Nat) : Byte :=
  (memRead sp i (s.buffer sp)).getD (P.resetByte s.epoch sp i)

/-- `MemRead(SPACE, 0, n)`: the bytes `SPACE[0 ..< n]` (R9, R15). -/
def spaceBytes (P : Params) (s : State) (sp : Space) (n : Nat) : Bytes :=
  (List.range n).map (byteAt P s sp)

end Sys2Proof.Machine
end

