-- ==== Sys2Proof/Machine/Flags.lean ====
section
/-! DEFINITION. The flags: STATUS with its fields RESULT and DONE (R13, R140), and the FLAGS bytes of B0 (R55)
and of the CTR IV (R59). -/

namespace Sys2Proof.Machine

/-- The code of a result (R140). -/
def Result.code : Result → BitVec 4
  | .ok => 0
  | .invalidTagLength => 1
  | .invalidNonceLength => 2
  | .aadTooLong => 3
  | .messageTooLong => 4
  | .allocationFailure => 5
  | .cipherError => 6
  | .authenticationFailure => 7
  | .invalidKeyLength => 8
  | .invalidCommand => 9

/-- STATUS.RESULT, bits [3:0] (R13). -/
def statusResult (w : Word) : BitVec 4 := w.extractLsb' 0 4

/-- STATUS.DONE, bit [4] (R13). -/
def statusDone (w : Word) : Bool := w.getLsbD 4

/-- `STATUS.RESULT <- code(r)`: bits [3:0] replaced, the others kept (R13). -/
def withResult (w : Word) (r : Result) : Word := (w &&& 0xFFFFFFF0#32) ||| r.code.setWidth 32

/-- `STATUS.DONE <- 1`: bit [4] set, the others kept (R13). -/
def withDone (w : Word) : Word := w ||| 0x00000010#32

/-- `REG.STATUS.RESULT <- r`. -/
def State.setResult (s : State) (r : Result) : State := { s with status := withResult s.status r }

/-- `REG.STATUS.DONE <- 1`. -/
def State.setDone (s : State) : State := { s with status := withDone s.status }

/-- The reference's single sentinel, derived from RESULT (R13, R140): `failed = (RESULT != 0)`. -/
def State.failed (s : State) : Bool := statusResult s.status != 0

/-- The width of the length field: `q = 15 - nonce_length` (R5, R54). -/
def lengthWidth (n : Nat) : Nat := 15 - n

/-- FLAGS of B0: `(aad_length>0 ? 0x40 : 0) | (((tag_length-2)/2) << 3) | (q-1)` (R55, R81). -/
def b0Flags (t n a : Nat) : Byte :=
  lowByte ((if a > 0 then 0x40 else 0x00) ||| (((t - 2) / 2) <<< 3) ||| (lengthWidth n - 1))

/-- FLAGS of the CTR IV: `q - 1` and nothing else (R59, R92, 90_conflicts.md C3). -/
def ivFlags (n : Nat) : Byte := lowByte (lengthWidth n - 1)

end Sys2Proof.Machine
end

