-- ==== Sys2Proof/Machine/Operands.lean ====
section
/-! DEFINITION. The operands of the commands, all implicit (R50): the lengths in the operand registers (R11) and
the byte sequences in the operand buffers (R15, R100, R110), which lengths are legal (R80, R141), and the
working buffers (R17). -/

namespace Sys2Proof.Machine

/-- `t`, the tag length in bytes: the whole 32-bit register (R80). -/
def State.tagLength (s : State) : Nat := s.tagLen.toNat

/-- `n`, the nonce length in bytes. -/
def State.nonceLength (s : State) : Nat := s.nonceLen.toNat

/-- `a`, the AAD length in bytes. -/
def State.aadLength (s : State) : Nat := s.aadLen.toNat

/-- `m`, the message length in bytes. -/
def State.msgLength (s : State) : Nat := s.msgLen.toNat

/-- The key length in bytes, `KEY_BITS/8` (R15). -/
def State.keyLength (s : State) : Nat := s.keyBits.toNat / 8

/-- Value of an operand register (R11). -/
def State.operand (s : State) : OperandReg → Word
  | .keyBits => s.keyBits
  | .nonceLen => s.nonceLen
  | .aadLen => s.aadLen
  | .msgLen => s.msgLen
  | .tagLen => s.tagLen

/-- Writes an operand register: any 32-bit value (R11). -/
def State.setOperand (s : State) (r : OperandReg) (w : Word) : State :=
  match r with
  | .keyBits => { s with keyBits := w }
  | .nonceLen => { s with nonceLen := w }
  | .aadLen => { s with aadLen := w }
  | .msgLen => { s with msgLen := w }
  | .tagLen => { s with tagLen := w }

/-- `key`: `KEY[0 ..< KEY_BITS/8]` (R100, R110). -/
def keyOperand (P : Params) (s : State) : Bytes := spaceBytes P s .key s.keyLength

/-- `nonce`: `NONCE[0 ..< NONCE_LEN]`. -/
def nonceOperand (P : Params) (s : State) : Bytes := spaceBytes P s .nonce s.nonceLength

/-- `aad`: `AAD[0 ..< AAD_LEN]`. -/
def aadOperand (P : Params) (s : State) : Bytes := spaceBytes P s .aad s.aadLength

/-- The plaintext of CCM_ENC, the ciphertext of CCM_DEC: `MSG_IN[0 ..< MSG_LEN]`. -/
def msgOperand (P : Params) (s : State) : Bytes := spaceBytes P s .msgIn s.msgLength

/-- The received tag of CCM_DEC: `TAG_IN[0 ..< TAG_LEN]` (R110). -/
def tagOperand (P : Params) (s : State) : Bytes := spaceBytes P s .tagIn s.tagLength

/-- KEY_BITS in {128, 192, 256} (R80, R141). -/
abbrev State.legalKey (s : State) : Prop :=
  s.keyBits.toNat = 128 ∨ s.keyBits.toNat = 192 ∨ s.keyBits.toNat = 256

/-- TAG_LEN in {4, 6, ..., 16}, as R80 tests it. -/
abbrev State.legalTag (s : State) : Prop :=
  ¬ (s.tagLength = 0 ∨ s.tagLength = 2 ∨ s.tagLength > 16 ∨ s.tagLength % 2 = 1)

/-- NONCE_LEN in 7..13 (R80). -/
abbrev State.legalNonce (s : State) : Prop := ¬ (s.nonceLength < 7 ∨ s.nonceLength > 13)

/-- AAD_LEN below 0xFF00 (R80). -/
abbrev State.legalAad (s : State) : Prop := ¬ s.aadLength ≥ 0xFF00

/-- MSG_LEN fits the q-byte length field: `(MSG_LEN >> (8*q)) == 0` (R56, R80). -/
abbrev State.legalMsg (s : State) : Prop :=
  s.msgLength >>> (8 * lengthWidth s.nonceLength) = 0

/-- The size class of a legal KEY_BITS (R124); no class for another value, which VALIDATE rejects. -/
def keyClassOf (bits : Word) : Option KeyClass :=
  if bits.toNat = 128 then some .key128
  else if bits.toNat = 192 then some .key192
  else if bits.toNat = 256 then some .key256
  else none

/-- A working buffer of State (R17). -/
def State.work (s : State) : WorkBuffer → Option Bytes
  | .bInput => s.bInput
  | .cbcOut => s.cbcOut
  | .ctrIv => s.ctrIv
  | .ctrIn => s.ctrIn
  | .ctrOut => s.ctrOut

/-- The bytes of a working buffer; empty where it does not exist, which no rule reads (the operations that read
one are started only where it exists). -/
def State.workBytes (s : State) (b : WorkBuffer) : Bytes := (s.work b).getD []

/-- Replaces a working buffer. -/
def State.setWork (s : State) (b : WorkBuffer) (bytes : Bytes) : State :=
  match b with
  | .bInput => { s with bInput := some bytes }
  | .cbcOut => { s with cbcOut := some bytes }
  | .ctrIv => { s with ctrIv := some bytes }
  | .ctrIn => { s with ctrIn := some bytes }
  | .ctrOut => { s with ctrOut := some bytes }

end Sys2Proof.Machine
end

