-- ==== Sys2Proof/Machine/Sizing.lean ====
section
/-! DEFINITION. The block-size calculator (40_sizing.md): the two functions, the capacity test of R35, and the
meanings of CBC_SIZE and CTR_SIZE. -/

namespace Sys2Proof.Machine

/-- Blocks of the AAD region, `na` (R53, R70). -/
def aadBlocks (a : Nat) : Nat := if a > 0 then 1 + cdiv16 (max 0 (a - 14)) else 0

/-- `cbc_blocks(m, a)` (R70). -/
def cbcBlocks (m a : Nat) : Nat := 1 + aadBlocks a + cdiv16 m

/-- `ctr_blocks(m)` (R71). -/
def ctrBlocks (m : Nat) : Nat := 1 + cdiv16 m

/-- `cbc_blocks` of the operand registers. -/
def State.cbcBlocks (s : State) : Nat := Machine.cbcBlocks s.msgLength s.aadLength

/-- `ctr_blocks` of the operand registers. -/
def State.ctrBlocks (s : State) : Nat := Machine.ctrBlocks s.msgLength

/-- The allocation test (R35, R142 a): `MSG_LEN <= MSG_CAP` and `cbc_blocks <= WORK_CAP`. -/
def fits (P : Params) (s : State) : Bool :=
  withinCap s.msgLength P.msgCap && withinCap s.cbcBlocks P.workCap

/-- The size of a working buffer (R17). -/
def State.workSize (s : State) : WorkBuffer → Nat
  | .bInput => 16 * s.cbcBlocks
  | .cbcOut => 16 * s.cbcBlocks
  | .ctrIv => 16
  | .ctrIn => 16 * s.ctrBlocks
  | .ctrOut => 16 * s.ctrBlocks

/-- A working buffer exists, with R17's size. -/
def State.hasWork (s : State) (b : WorkBuffer) : Bool :=
  match s.work b with
  | none => false
  | some bytes => bytes.length = s.workSize b

/-- `phase <- P` (R9). -/
def State.setPhase (s : State) (p : Phase) : State := { s with phase := p }

/-- The end of a command: `phase <- IDLE` (R18). -/
def State.endCommand (s : State) : State := { s with phase := .idle, command := none }

/-- `REG.BLOCKS <- zext_32(n)` (R14). -/
def State.setBlocks (s : State) (n : Nat) : State := { s with blocks := BitVec.ofNat 32 n }

/-- Phase SIZE of CBC_SIZE (R72). -/
def sizeCbc (s : State) : State :=
  (((s.setPhase .size).setBlocks s.cbcBlocks).setResult .ok).setDone

/-- Phase SIZE of CTR_SIZE (R73). -/
def sizeCtr (s : State) : State :=
  (((s.setPhase .size).setBlocks s.ctrBlocks).setResult .ok).setDone

/-- CBC_SIZE (R72). -/
def execCbcSize (s : State) : Host.Outcome State Fault Refusal := .next (sizeCbc s).endCommand

/-- CTR_SIZE (R73). -/
def execCtrSize (s : State) : Host.Outcome State Fault Refusal := .next (sizeCtr s).endCommand

end Sys2Proof.Machine
end

