-- ==== Sys2Proof/Machine/Ops.lean ====
section
/-! DEFINITION. The shared operations of the sequencer: what `raise` does (the engine's exception, R9, R146),
the outputs' clearing (R16), the discarding of the working buffers (R17), the reserved command word (R52) and
reset (R160). There is no return from an exception: after the failure exit the engine is in IDLE (R147). -/

namespace Sys2Proof.Machine

/-- `MSG_OUT <- zeros(MSG_CAP) ; TAG_OUT <- zeros(16)` (R16): an all-zero output buffer lists nothing. -/
def State.clearOutputs (s : State) : State := { s with msgOut := [], tagOut := [] }

/-- Discards every working buffer (R17, R146). -/
def State.discardWork (s : State) : State :=
  { s with bInput := none, cbcOut := none, ctrIv := none, ctrIn := none, ctrOut := none }

/-- The sequencer enters a phase of a command's list (R18). -/
def State.enter (s : State) (c : Command) (p : Phase) : State := { s with phase := p, command := some c }

/-- How an operation inside a command ends: it goes on, or it raises a result (R9). -/
inductive Flow where
  | ok (s : State)
  | raise (r : Result) (s : State)
deriving DecidableEq, Repr

/-- The failure exit, the engine's exception entry (R146): phase FREE, outputs zero, working buffers discarded,
RESULT the code, DONE 1, phase IDLE. Nothing is saved; operands and BLOCKS keep their values. -/
def failureExit (r : Result) (s : State) : State :=
  (((((s.setPhase .free).clearOutputs).discardWork).setResult r).setDone).endCommand

/-- Where an operation leads the machine: on, or through the failure exit. -/
def settle : Flow → State
  | .ok s => s
  | .raise r s => failureExit r s

/-- A reserved command word (R52, R146): RESULT = InvalidCommand, DONE = 1, nothing else. -/
def invalidCommand (s : State) : State := (s.setResult .invalidCommand).setDone

/-- Reset (R160, R21): every field of the spec at its reset value, at any moment. The operand buffers hold new
unspecified bytes: a new epoch. The rest of the input, the primitive's answers to come and the records of what
was observed are not the engine's and stay (log 18). -/
def resetFrom (s : State) : State :=
  { State.reset with
    inputs := s.inputs, replies := s.replies, answers := s.answers, issued := s.issued, trace := s.trace,
    epoch := s.epoch + 1 }

end Sys2Proof.Machine
end

