-- ==== Sys2Proof/Machine/Assembly.lean ====
section
/-! DEFINITION. Operand validation and the CBC-MAC input assembler (41_cbcmac_assembly.md). -/

namespace Sys2Proof.Machine

/-- The tests of VALIDATE in their order; the first that holds names the result (R80, R141, R143). -/
def validateCause (s : State) : Option Result :=
  if ¬ s.legalKey then some .invalidKeyLength
  else if ¬ s.legalTag then some .invalidTagLength
  else if ¬ s.legalNonce then some .invalidNonceLength
  else if ¬ s.legalAad then some .aadTooLong
  else if ¬ s.legalMsg then some .messageTooLong
  else none

/-- Phase VALIDATE (R80). -/
def validateOp (s : State) : Flow :=
  match validateCause s with
  | none => .ok (s.setPhase .validate)
  | some r => .raise r (s.setPhase .validate)

/-- R81: `b_input[0] <- FLAGS`, then the nonce at bytes 1 to n. -/
def writeB0Head (t a : Nat) (nonce buf : Bytes) : Bytes :=
  putBytes (buf.set 0 (b0Flags t nonce.length a)) 1 nonce

/-- R82, R56: `B0[15 - i] <- left & 0xFF ; left <- left >> 8`, for `i` and the next ones, `k` in all. -/
def writeLength : Nat → Nat → Nat → Bytes → Bytes
  | 0, _, _, buf => buf
  | k + 1, i, left, buf => writeLength k (i + 1) (left >>> 8) (buf.set (15 - i) (lowByte (left &&& 0xFF)))

/-- R83: the AAD region, absent when the AAD is empty. -/
def writeAad (aad buf : Bytes) : Bytes :=
  if aad.length > 0 then
    putBytes
      (putBytes ((buf.set 16 (lowByte ((aad.length >>> 8) &&& 0xFF))).set 17 (lowByte (aad.length &&& 0xFF)))
        18 (aad.take (min aad.length 14)))
      32 (aad.drop 14)
  else buf

/-- R84: the message region, after B0 and the AAD region. -/
def writeMessage (a : Nat) (msg buf : Bytes) : Bytes := putBytes buf (16 * (1 + aadBlocks a)) msg

/-- `b_input` as R85 builds it: zeros, then R81, R82, R83 and R84 in this order. -/
def buildBInput (t : Nat) (nonce aad msg : Bytes) : Bytes :=
  writeMessage aad.length msg
    (writeAad aad
      (writeLength (lengthWidth nonce.length) 0 msg.length
        (writeB0Head t aad.length nonce (zeros (16 * cbcBlocks msg.length aad.length)))))

/-- The message the assembler takes (R85). -/
def sourceMessage (P : Params) (source : MsgSource) (s : State) : Bytes :=
  match source with
  | .msgIn => msgOperand P s
  | .recovered => slice (s.workBytes .ctrOut) 16 s.msgLength

/-- Phase ASM_CBC (R85). -/
def asmCbcmacOp (P : Params) (source : MsgSource) (s : State) : State :=
  (s.setPhase .asmCbc).setWork .bInput
    (buildBInput s.tagLength (nonceOperand P s) (aadOperand P s) (sourceMessage P source s))

/-- The lengths ASM_CBCMAC uses are legal (R85: "all legal by rule R80"); it does not use KEY_BITS. -/
abbrev assemblyLegal (s : State) : Prop := s.legalTag ∧ s.legalNonce ∧ s.legalAad ∧ s.legalMsg

/-- The message of the source exists: on the decrypt path, `ctr_out` (R85, R17). -/
def sourceExists (source : MsgSource) (s : State) : Bool :=
  match source with
  | .msgIn => true
  | .recovered => s.hasWork .ctrOut

/-- VALIDATE (R80): goes on in phase VALIDATE, or takes the failure exit with the first cause. -/
def execValidate (s : State) : Host.Outcome State Fault Refusal := .next (settle (validateOp s))

/-- ASM_CBCMAC (R85). Where the spec gives it no operands it stops: unvalidated lengths (91 N9), lengths beyond
the capacities, no recovered message (log 12). -/
def execAsmCbcmac (source : MsgSource) (s : State) : Host.Outcome State Fault Refusal :=
  if ¬ assemblyLegal s then .fault .notValidated
  else if fits Config.params s = false then .fault .notAllocated
  else if sourceExists source s = false then .fault .missingBuffer
  else .next (asmCbcmacOp Config.params source s)

end Sys2Proof.Machine
end

