-- ==== Sys2Proof/Machine/CtrAssembly.lean ====
section
/-! DEFINITION. The CTR input assemblers and the CTR IV builder (42_ctr_assembly.md). -/

namespace Sys2Proof.Machine

/-- `mac`, the last block of `cbc_out` (R90, R101). -/
def macOf (s : State) : Bytes := slice (s.workBytes .cbcOut) (16 * (s.cbcBlocks - 1)) 16

/-- `ctr_in` from what stands in its first block and the message (R90, R91): zeros, the head at byte 0, the
message at byte 16. -/
def buildCtrIn (head msg : Bytes) : Bytes :=
  putBytes (putBytes (zeros (16 * ctrBlocks msg.length)) 0 head) 16 msg

/-- `ctr_iv`: `q - 1`, the nonce, a zero counter (R92, R59). -/
def buildIv (nonce : Bytes) : Bytes := putBytes ((zeros 16).set 0 (ivFlags nonce.length)) 1 nonce

/-- Phase ASM_CTR of CCM_ENC (R90). -/
def asmCtrEncOp (P : Params) (s : State) : State :=
  (s.setPhase .asmCtr).setWork .ctrIn (buildCtrIn (macOf s) (msgOperand P s))

/-- Phase ASM_CTR of CCM_DEC (R91). -/
def asmCtrDecOp (P : Params) (s : State) : State :=
  (s.setPhase .asmCtr).setWork .ctrIn (buildCtrIn (tagOperand P s) (msgOperand P s))

/-- Phase CTR_IV (R92). -/
def buildCtrIvOp (P : Params) (s : State) : State :=
  (s.setPhase .ctrIv).setWork .ctrIv (buildIv (nonceOperand P s))

/-- ASM_CTR_ENC (R90). It stops where its message or its MAC does not exist (log 12). The section's "run only after
VALIDATE" leaves open what it does when started by hand on lengths VALIDATE rejects: R90 uses neither t nor n, so
it runs, if the lengths fit and `cbc_out` exists (DESIGN CHOICE, unsafe; log 12). -/
def execAsmCtrEnc (s : State) : Host.Outcome State Fault Refusal :=
  if fits Config.params s = false then .fault .notAllocated
  else if s.hasWork .cbcOut = false then .fault .missingBuffer
  else .next (asmCtrEncOp Config.params s)

/-- ASM_CTR_DEC (R91). It stops on a tag length VALIDATE rejects and where its message does not exist; the other
lengths, which R91 does not use, are not checked (DESIGN CHOICE, unsafe; log 12). -/
def execAsmCtrDec (s : State) : Host.Outcome State Fault Refusal :=
  if ¬ s.legalTag then .fault .notValidated
  else if fits Config.params s = false then .fault .notAllocated
  else .next (asmCtrDecOp Config.params s)

/-- BUILD_CTR_IV (R92). What it does with a nonce length outside 7..13 "is not described" (91 N9): it stops. The
other lengths, which R92 does not use, are not checked (DESIGN CHOICE, unsafe; log 12). -/
def execBuildCtrIv (s : State) : Host.Outcome State Fault Refusal :=
  if ¬ s.legalNonce then .fault .notValidated
  else .next (buildCtrIvOp Config.params s)

end Sys2Proof.Machine
end

