-- ==== Sys2Proof/Machine/CipherPort.lean ====
section
/-! DEFINITION. The cipher port and the primitive's contract (45_cipher_port.md): the two modes over the block
function E, the context, the answer to a request, and the meanings of CIPH_INIT, CIPH_SET_KEY and
CIPH_ENCRYPT. -/

namespace Sys2Proof.Machine

/-- E on byte sequences of 16 bytes (R127). -/
def cipherBlock (P : Params) (key block : Bytes) : Bytes := (P.blockCipher key (blockOf block)).toList

/-- CBC over the first `k` blocks of an input, from the block before them (R125). -/
def cbcChain (P : Params) (key : Bytes) : Nat → Bytes → Bytes → Bytes
  | 0, _, _ => []
  | k + 1, prev, input =>
    let c := cipherBlock P key (xorBytes (input.take 16) prev)
    c ++ cbcChain P key k c (input.drop 16)

/-- `CBC(key, iv, input)` (R125). -/
def cbcMode (P : Params) (key iv input : Bytes) : Bytes := cbcChain P key (input.length / 16) iv input

/-- `inc128(iv, i)`: the IV as a 128-bit big-endian number, plus i, mod 2^128 (R126). -/
def inc128 (iv : Bytes) (i : Nat) : Bytes := be ((beNat iv + i) % 2 ^ 128) 16

/-- CTR over the first `k` blocks of an input, the first with counter `i` (R126). -/
def ctrChain (P : Params) (key iv : Bytes) : Nat → Nat → Bytes → Bytes
  | 0, _, _ => []
  | k + 1, i, input =>
    xorBytes (input.take 16) (cipherBlock P key (inc128 iv i)) ++ ctrChain P key iv k (i + 1) (input.drop 16)

/-- `CTR(key, iv, input)` (R126). -/
def ctrMode (P : Params) (key iv input : Bytes) : Bytes := ctrChain P key iv (input.length / 16) 0 input

/-- Output bytes the spec leaves unspecified, for the request of this number (log 8). -/
def freeBytes (P : Params) (number length : Nat) : Bytes := (List.range length).map (P.freeOutput number)

/-- The set-up under which a CIPH_ENCRYPT is the first of its CIPH_SET_KEY, in direction ENCRYPT, over whole
blocks: what R120 (a) asks for. A set-up whose key is not its class's length, or whose IV is not 16 bytes, is none
(DESIGN CHOICE, safe; log 8): its CIPH_SET_KEY completes, and what is encrypted under it is free. -/
def CipherContext.contract (ctx : CipherContext) (input : Bytes) : Option SetKey :=
  match ctx.setup with
  | none => none
  | some r =>
    if ctx.fresh = true ∧ r.direction = .encrypt ∧ r.wf = true ∧ input.length % 16 = 0 then some r else none

/-- What an OK answer to CIPH_ENCRYPT carries (R120 a): CBC or CTR of the input under the contract, free bytes
of the same length outside it (R131, R132). -/
def encryptOutput (P : Params) (number : Nat) (ctx : CipherContext) (input : Bytes) : Bytes :=
  match ctx.contract input, ctx.mode with
  | some r, some .cbc => cbcMode P r.key r.iv input
  | some r, some .ctr => ctrMode P r.key r.iv input
  | _, _ => freeBytes P number input.length

/-- What an OK answer carries (R61): output bytes for CIPH_ENCRYPT alone. -/
def requestOutput (P : Params) (number : Nat) (ctx : CipherContext) : PortRequest → Bytes
  | .init _ => []
  | .setKey _ => []
  | .encrypt input => encryptOutput P number ctx input

/-- The context after a request was answered OK (R19, R121, R122). -/
def CipherContext.after (ctx : CipherContext) : PortRequest → CipherContext
  | .init m => ⟨some m, none, false⟩
  | .setKey r => ⟨ctx.mode, some r, true⟩
  | .encrypt _ => ⟨ctx.mode, ctx.setup, false⟩

/-- The output buffer of a phase (R123), read off the context's mode: `cbc_out` in the CBC phase, `ctr_out` in the CTR
phase; the engine has none for another mode (log 22). -/
def outputBuffer : Option Mode → Option WorkBuffer
  | some .cbc => some .cbcOut
  | some .ctr => some .ctrOut
  | some .ecb => none
  | none => none

/-- Puts the answer's bytes into the output buffer, where the request has one (R123). For a request run alone the
spec gives no phase and no allocated buffer (R17, R35): there the context's mode chooses the buffer, which comes
to exist with the output's length and no capacity test. So it does in a phase CBC_RUN or CTR_RUN written by hand
whose context holds another mode, or none: the phase's own buffer then stays. In a command as the spec runs it,
phase and mode agree. (DESIGN CHOICE, unsafe; log 22.) -/
def storeOutput (s : State) (r : PortRequest) (out : Bytes) : State :=
  match r, outputBuffer s.context.mode with
  | .encrypt _, some b => s.setWork b out
  | _, _ => s

/-- The status the primitive gives to the next request (R129): the next of State's list, else the free value of
the request's number. -/
def nextStatus (P : Params) (s : State) : PortStatus := s.answers.headD (P.portStatus s.issued)

/-- A request was answered: its number is used, the answer recorded (R130). -/
def State.record (s : State) (e : PortEvent) : State :=
  { s with answers := s.answers.tail, issued := s.issued + 1, trace := s.trace ++ [e] }

/-- Replaces the primitive's context. -/
def State.setContext (s : State) (ctx : CipherContext) : State := { s with context := ctx }

/-- `ciph(req)`: issues a request, takes its answer, raises CipherError on Error (R121 to R123, R129). After an
Error the context is unspecified (log 9). -/
def ciph (P : Params) (r : PortRequest) (s : State) : Flow :=
  match nextStatus P s with
  | .error => .raise .cipherError ((s.record ⟨r, .error⟩).setContext CipherContext.unset)
  | .ok =>
    let out := requestOutput P s.issued s.context r
    .ok ((storeOutput (s.record ⟨r, .ok out⟩) r out).setContext (s.context.after r))

/-- The key request of a phase (R122): the key bytes and class of the operand registers, the given IV,
direction ENCRYPT. VALIDATE has shown that KEY_BITS has a class (R124). -/
def keyRequest (P : Params) (s : State) (iv : Bytes) : SetKey :=
  ⟨(keyClassOf s.keyBits).getD .key128, .encrypt, keyOperand P s, iv⟩

/-- CIPH_INIT (R121). -/
def execCiphInit (mode : Mode) (s : State) : Host.Outcome State Fault Refusal :=
  .next (settle (ciph Config.params (.init mode) s))

/-- CIPH_SET_KEY (R122). It completes on an ill-formed set-up too, which no encoding has (log 8). -/
def execCiphSetKey (setup : SetKey) (s : State) : Host.Outcome State Fault Refusal :=
  .next (settle (ciph Config.params (.setKey setup) s))

/-- CIPH_ENCRYPT (R123). Run alone, outside a command, it has no capacity test (R35 tests in ALLOC; log 22). -/
def execCiphEncrypt (input : Bytes) (s : State) : Host.Outcome State Fault Refusal :=
  .next (settle (ciph Config.params (.encrypt input) s))

end Sys2Proof.Machine
end

