-- ==== Sys2Proof/Machine/Commands.lean ====
section
/-! DEFINITION. The commands CCM_ENC and CCM_DEC (43_encrypt_and_tag.md, 44_auth_decrypt.md): their phase lists
(R18) and what each phase does (R101, R102, R111 to R113). A command is one atomic transition (R10): the whole
list, or up to the first `raise`. -/

namespace Sys2Proof.Machine

/-- The phases of a command between IDLE and IDLE, in order (R18). -/
def phasesOf : Command → List Phase
  | .ccmEnc => [.clearOut, .validate, .alloc, .asmCbc, .cbcInit, .cbcKey, .cbcRun, .ctrIv, .asmCtr,
      .ctrInit, .ctrKey, .ctrRun, .output, .free]
  | .ccmDec => [.clearOut, .validate, .alloc, .ctrIv, .asmCtr, .ctrInit, .ctrKey, .ctrRun, .recover,
      .asmCbc, .cbcInit, .cbcKey, .cbcRun, .compare, .output, .free]
  | .cbcSize => [.size]
  | .ctrSize => [.size]

/-- Phase ALLOC (R35, R101, R111): all or nothing; the working buffers begin to exist, all zero (R17). -/
def allocOp (P : Params) (s : State) : Flow :=
  if fits P s then
    .ok (((((s.setWork .bInput (zeros (s.workSize .bInput))).setWork .cbcOut (zeros (s.workSize .cbcOut))).setWork
      .ctrIv (zeros (s.workSize .ctrIv))).setWork .ctrIn (zeros (s.workSize .ctrIn))).setWork
      .ctrOut (zeros (s.workSize .ctrOut)))
  else .raise .allocationFailure s

/-- `U`, the CTR-recovered candidate tag: the first t bytes of CTR output block 0 (R111, R112). -/
def recoveredTag (s : State) : Bytes := slice (s.workBytes .ctrOut) 0 s.tagLength

/-- `T'`, the recomputed tag: the first t bytes of the last CBC output block (R111, R112). -/
def recomputedTag (s : State) : Bytes := slice (s.workBytes .cbcOut) (16 * (s.cbcBlocks - 1)) s.tagLength

/-- Phase COMPARE (R112). -/
def compareOp (s : State) : Flow :=
  if recomputedTag s = recoveredTag s then .ok s else .raise .authenticationFailure s

/-- `MSG_OUT[0 ..< m] <- ctr_out[16 ..< 16+m]` (R102, R113). -/
def releaseMessage (s : State) : State :=
  s.setBuffer .msgOut (memWriteBytes .msgOut 0 (slice (s.workBytes .ctrOut) 16 s.msgLength) s.msgOut)

/-- `TAG_OUT[0 ..< t] <- ctr_out[0 ..< t]` (R102). -/
def releaseTag (s : State) : State :=
  s.setBuffer .tagOut (memWriteBytes .tagOut 0 (slice (s.workBytes .ctrOut) 0 s.tagLength) s.tagOut)

/-- Phase OUTPUT: R102 for CCM_ENC, R113 for CCM_DEC. The size commands have no such phase. -/
def outputOp (c : Command) (s : State) : State :=
  match c with
  | .ccmEnc => (releaseMessage (releaseTag s)).setResult .ok
  | .ccmDec => (releaseMessage s).setResult .ok
  | .cbcSize => s
  | .ctrSize => s

/-- Phase FREE (R101, R111): the working buffers are discarded, DONE <- 1. -/
def freeOp (s : State) : State := s.discardWork.setDone

/-- The message source of a command's CBC pass (R85). -/
def sourceOf : Command → MsgSource
  | .ccmDec => .recovered
  | .ccmEnc => .msgIn
  | .cbcSize => .msgIn
  | .ctrSize => .msgIn

/-- Phase ASM_CTR: the encrypt variant (R90) or the decrypt variant (R91). -/
def asmCtrOp (P : Params) (c : Command) (s : State) : State :=
  match c with
  | .ccmDec => asmCtrDecOp P s
  | .ccmEnc => asmCtrEncOp P s
  | .cbcSize => s
  | .ctrSize => s

/-- Phase SIZE (R72, R73). -/
def sizeOp (c : Command) (s : State) : State :=
  match c with
  | .cbcSize => sizeCbc s
  | .ctrSize => sizeCtr s
  | .ccmEnc => s
  | .ccmDec => s

/-- What a phase of a command does (R101, R111, R128). -/
def phaseOp (P : Params) (c : Command) (p : Phase) (s : State) : Flow :=
  match p with
  | .idle => .ok s
  | .clearOut => .ok s.clearOutputs
  | .validate => validateOp s
  | .alloc => allocOp P s
  | .asmCbc => .ok (asmCbcmacOp P (sourceOf c) s)
  | .cbcInit => ciph P (.init .cbc) s
  | .cbcKey => ciph P (.setKey (keyRequest P s (zeros 16))) s
  | .cbcRun => ciph P (.encrypt (s.workBytes .bInput)) s
  | .ctrIv => .ok (buildCtrIvOp P s)
  | .asmCtr => .ok (asmCtrOp P c s)
  | .ctrInit => ciph P (.init .ctr) s
  | .ctrKey => ciph P (.setKey (keyRequest P s (s.workBytes .ctrIv))) s
  | .ctrRun => ciph P (.encrypt (s.workBytes .ctrIn)) s
  | .recover => .ok s
  | .compare => compareOp s
  | .output => .ok (outputOp c s)
  | .free => .ok (freeOp s)
  | .size => .ok (sizeOp c s)

/-- Walks a list of phases to its end, or through the failure exit at the first `raise` (R18, R101, R111). So a
CipherError comes after one to six requests, the sixth being able to fail too (R128, R130, L2.18), where R145
counts one to five (DEDUCED, safe; log 23). -/
def runPhases (P : Params) (c : Command) : List Phase → State → State
  | [], s => s.endCommand
  | p :: ps, s =>
    match phaseOp P c p (s.enter c p) with
    | .ok s' => runPhases P c ps s'
    | .raise r s' => failureExit r s'

/-- A whole command, from the CMD write to STATUS updated (R10). -/
def runCommand (P : Params) (c : Command) (s : State) : State := runPhases P c (phasesOf c) s

/-- CCM_ENC (R100 to R104). -/
def execCcmEnc (s : State) : Host.Outcome State Fault Refusal := .next (runCommand Config.params .ccmEnc s)

/-- CCM_DEC (R110 to R116). -/
def execCcmDec (s : State) : Host.Outcome State Fault Refusal := .next (runCommand Config.params .ccmDec s)

end Sys2Proof.Machine
end

