-- ==== Sys2Proof/Machine/Dispatch.lean ====
section
/-! DEFINITION. One arm per operation of the opcode table: a direct call of its meaning. -/

namespace Sys2Proof.Machine

def exec (i : Instr) (s : State) : Host.Outcome State Fault Refusal :=
  match i with
  | .ccmEnc => Sys2Proof.Machine.execCcmEnc s
  | .ccmDec => Sys2Proof.Machine.execCcmDec s
  | .cbcSize => Sys2Proof.Machine.execCbcSize s
  | .ctrSize => Sys2Proof.Machine.execCtrSize s
  | .ciphInit mode => Sys2Proof.Machine.execCiphInit mode s
  | .ciphSetKey setup => Sys2Proof.Machine.execCiphSetKey setup s
  | .ciphEncrypt input => Sys2Proof.Machine.execCiphEncrypt input s
  | .validate => Sys2Proof.Machine.execValidate s
  | .asmCbcmac source => Sys2Proof.Machine.execAsmCbcmac source s
  | .asmCtrEnc => Sys2Proof.Machine.execAsmCtrEnc s
  | .asmCtrDec => Sys2Proof.Machine.execAsmCtrDec s
  | .buildCtrIv => Sys2Proof.Machine.execBuildCtrIv s

end Sys2Proof.Machine
end

