-- ==== Sys2Proof/Machine/HostPort.lean ====
section
/-! DEFINITION. The host's side: the register file REG (R11 to R14, R30), the accesses and their effects (R33),
the CMD write (R12, R50 to R52), and reset as an input (R160). -/

namespace Sys2Proof.Machine

/-- REG indices 2 to 6 are the operand registers (R11, R30). -/
def operandAt (index : Nat) : Option OperandReg :=
  if index = 2 then some .keyBits
  else if index = 3 then some .nonceLen
  else if index = 4 then some .aadLen
  else if index = 5 then some .msgLen
  else if index = 6 then some .tagLen
  else none

/-- The index of an operand register (R11). -/
def operandIndex : OperandReg → Nat
  | .keyBits => 2
  | .nonceLen => 3
  | .aadLen => 4
  | .msgLen => 5
  | .tagLen => 6

/-- What a read of REG returns (R12: CMD reads 0; R11, R13, R14); nothing outside indices 0 to 7 (R30). -/
def regRead (index : Nat) (s : State) : Option Word :=
  if index = 0 then some 0
  else if index = 1 then some s.status
  else if index = 7 then some s.blocks
  else
    match operandAt index with
    | some r => some (s.operand r)
    | none => none

/-- A write of CMD (R12): the word's command to its end, or R52's effect on a reserved word. -/
def commandWrite (w : Word) (s : State) : Host.Outcome State Fault Refusal :=
  match decodeCommand w with
  | .ok i => exec i s
  | .error _ => .next (invalidCommand s)

/-- A write of REG (R33): CMD runs a command, STATUS and BLOCKS ignore it, an operand register stores it; no
step outside indices 0 to 7 (D36). -/
def regWrite (index : Nat) (w : Word) (s : State) : Host.Outcome State Fault Refusal :=
  if index = 0 then commandWrite w s
  else if index = 1 then .next s
  else if index = 7 then .next s
  else
    match operandAt index with
    | some r => .next (s.setOperand r w)
    | none => .refused .indexOutOfRange

/-- The spaces the host may write (R15, R16, R30). -/
def hostWritable : Space → Bool
  | .key => true
  | .nonce => true
  | .aad => true
  | .msgIn => true
  | .tagIn => true
  | .msgOut => false
  | .tagOut => false

/-- A write of one byte of a space (R33): stored in an operand buffer, ignored in an output buffer, no step
outside the space (D36). -/
def byteWrite (P : Params) (sp : Space) (i : Nat) (b : Byte) (s : State) : Host.Outcome State Fault Refusal :=
  if inSpace P sp i = false then .refused .indexOutOfRange
  else if hostWritable sp = true then .next (s.setBuffer sp (memWrite sp i b (s.buffer sp)))
  else .next s

/-- The host gets a reply (R33). -/
def State.reply (s : State) (r : Reply) : State := { s with replies := s.replies ++ [r] }

/-- A read of one byte of a space (R33: no side effect); no step outside the space (D36). -/
def byteRead (P : Params) (sp : Space) (i : Nat) (s : State) : Host.Outcome State Fault Refusal :=
  if inSpace P sp i = false then .refused .indexOutOfRange
  else .next (s.reply (.byte (byteAt P s sp i)))

/-- A read of REG (R33). -/
def regReadAccess (index : Nat) (s : State) : Host.Outcome State Fault Refusal :=
  match regRead index s with
  | some w => .next (s.reply (.reg w))
  | none => .refused .indexOutOfRange

/-- One input (R33, R160). -/
def access (P : Params) (a : Input) (s : State) : Host.Outcome State Fault Refusal :=
  match a with
  | .writeReg index w => regWrite index w s
  | .readReg index => regReadAccess index s
  | .writeByte sp i b => byteWrite P sp i b s
  | .readByte sp i => byteRead P sp i s
  | .reset => .next (resetFrom s)

/-- The engine in IDLE (R160): it takes the next input in program order (R36 a); with none, it waits. -/
def hostTurn (P : Params) (s : State) : Host.Outcome State Fault Refusal :=
  match s.inputs with
  | [] => .next s
  | a :: rest => access P a { s with inputs := rest }

end Sys2Proof.Machine
end

