-- ==== Sys2Proof/Machine/HostPrograms.lean ====
section
/-! DEFINITION. The notation for host programs (R64, R65): each statement as the accesses it stands for. -/

namespace Sys2Proof.Machine

/-- The word of a command (R51). -/
def commandWord : Command → Word
  | .ccmEnc => 0x00000001#32
  | .ccmDec => 0x00000002#32
  | .cbcSize => 0x00000010#32
  | .ctrSize => 0x00000011#32

/-- `WR name, value` (R64). -/
def hostWr (r : OperandReg) (w : Word) : List Input := [.writeReg (operandIndex r) w]

/-- `WRB SPACE[i], byte` (R64). -/
def hostWrb (sp : Space) (i : Nat) (b : Byte) : List Input := [.writeByte sp i b]

/-- `CMD mnemonic` (R64). -/
def hostCmd (c : Command) : List Input := [.writeReg 0 (commandWord c)]

/-- `RD STATUS` (R64). -/
def hostRdStatus : List Input := [.readReg 1]

/-- `RD BLOCKS` (R64). -/
def hostRdBlocks : List Input := [.readReg 7]

/-- `RD name` for an operand register (R64). -/
def hostRd (r : OperandReg) : List Input := [.readReg (operandIndex r)]

/-- `RDB SPACE[i]` (R64). -/
def hostRdb (sp : Space) (i : Nat) : List Input := [.readByte sp i]

/-- `LD` from index `i` on: one byte write after another (R65). -/
def hostLdFrom (sp : Space) : Nat → Bytes → List Input
  | _, [] => []
  | i, b :: bs => .writeByte sp i b :: hostLdFrom sp (i + 1) bs

/-- `LD SPACE, b0 b1 ... bk` (R65). -/
def hostLd (sp : Space) (bs : Bytes) : List Input := hostLdFrom sp 0 bs

/-- `RDS SPACE, n` (R65). -/
def hostRds (sp : Space) (n : Nat) : List Input := (List.range n).map fun i => .readByte sp i

/-- A number of ENC or DEC as the value of a `WR` (R64: 32 bits). A number of 2^32 or more has none: for a message
length the spec refuses it (93 U15), for the other numbers that is the model's choice (DESIGN CHOICE, safe;
log 21). -/
def hostNumber (n : Nat) : Option Word := if n < 2 ^ 32 then some (BitVec.ofNat 32 n) else none

/-- `WR name, n` for a number of ENC or DEC; no accesses where 32 bits cannot say it (log 21). -/
def hostWrNumber (r : OperandReg) (n : Nat) : Option (List Input) := (hostNumber n).map (hostWr r)

/-- One statement after another; an expansion exists only if both do. -/
def hostThen : Option (List Input) → Option (List Input) → Option (List Input)
  | some a, some b => some (a ++ b)
  | some _, none => none
  | none, _ => none

/-- `LD SPACE, bytes ; WR name, n`, as ENC and DEC pair them (R65). -/
def hostLdWr (sp : Space) (bs : Bytes) (r : OperandReg) (n : Nat) : Option (List Input) :=
  hostThen (some (hostLd sp bs)) (hostWrNumber r n)

/-- What ENC and DEC have in common before the tag's operands (R65). -/
def hostLoad (key nonce aad msg : Bytes) : Option (List Input) :=
  hostThen (hostLdWr .key key .keyBits (8 * key.length))
    (hostThen (hostLdWr .nonce nonce .nonceLen nonce.length)
      (hostThen (hostLdWr .aad aad .aadLen aad.length) (hostLdWr .msgIn msg .msgLen msg.length)))

/-- `ENC key, nonce, aad, msg, t` (R65); no expansion where a number does not fit 32 bits (log 21). -/
def hostEnc (key nonce aad msg : Bytes) (t : Nat) : Option (List Input) :=
  hostThen (hostLoad key nonce aad msg) (hostThen (hostWrNumber .tagLen t) (some (hostCmd .ccmEnc)))

/-- `DEC key, nonce, aad, msg, tag` (R65); no expansion where a number does not fit 32 bits (log 21). -/
def hostDec (key nonce aad msg tag : Bytes) : Option (List Input) :=
  hostThen (hostLoad key nonce aad msg)
    (hostThen (hostLdWr .tagIn tag .tagLen tag.length) (some (hostCmd .ccmDec)))

end Sys2Proof.Machine
end

