-- ==== Sys2Proof/Machine/Sequencer.lean ====
section
/-! DEFINITION. The sequencer phase by phase (R18), for a state that stands inside a command: a run from reset
never shows one (R10), a state written by hand may. And the cipher port's own turn: a request that waits there
for its answer (R40). -/

namespace Sys2Proof.Machine

/-- The phase after `p` in a list, `none` at its end (R18). -/
def nextPhase (p : Phase) : List Phase → Option Phase
  | [] => none
  | [_] => none
  | q :: r :: rest => if p = q then some r else nextPhase p (r :: rest)

/-- Moves on to the next phase of the command, or to IDLE at its end (R18). -/
def State.advance (s : State) (c : Command) (p : Phase) : State :=
  match nextPhase p (phasesOf c) with
  | some q => s.setPhase q
  | none => s.endCommand

/-- The operation of the opcode table that a phase performs, with its operands (R18, R101, R111, R128). The
other phases have no row. -/
def phaseInstr (P : Params) (c : Command) (p : Phase) (s : State) : Option Instr :=
  match p with
  | .validate => some .validate
  | .asmCbc => some (.asmCbcmac (sourceOf c))
  | .cbcInit => some (.ciphInit .cbc)
  | .cbcKey => some (.ciphSetKey (keyRequest P s (zeros 16)))
  | .cbcRun => some (.ciphEncrypt (s.workBytes .bInput))
  | .ctrIv => some .buildCtrIv
  | .asmCtr => some (if c = .ccmDec then .asmCtrDec else .asmCtrEnc)
  | .ctrInit => some (.ciphInit .ctr)
  | .ctrKey => some (.ciphSetKey (keyRequest P s (s.workBytes .ctrIv)))
  | .ctrRun => some (.ciphEncrypt (s.workBytes .ctrIn))
  | .idle => none
  | .clearOut => none
  | .alloc => none
  | .recover => none
  | .compare => none
  | .output => none
  | .free => none
  | .size => none

/-- A working buffer that a phase reads must exist (R17). -/
def needWork (s : State) (b : WorkBuffer) : Option Fault :=
  if s.hasWork b then none else some .missingBuffer

/-- Why a phase has no operands in this state, where it has none: its request or its copy would read what does
not exist (log 12). The table's operations check their own. -/
def phaseFault (P : Params) (p : Phase) (s : State) : Option Fault :=
  match p with
  | .cbcKey => if s.legalKey then none else some .notValidated
  | .cbcRun => needWork s .bInput
  | .ctrKey => if s.legalKey then needWork s .ctrIv else some .notValidated
  | .ctrRun => needWork s .ctrIn
  | .recover => needWork s .ctrOut
  | .compare =>
    if ¬ s.legalTag then some .notValidated
    else if s.hasWork .cbcOut then needWork s .ctrOut
    else some .missingBuffer
  | .output =>
    if ¬ s.legalTag then some .notValidated
    else if fits P s = false then some .notAllocated
    else needWork s .ctrOut
  | .idle => none
  | .clearOut => none
  | .validate => none
  | .alloc => none
  | .asmCbc => none
  | .cbcInit => none
  | .ctrIv => none
  | .asmCtr => none
  | .ctrInit => none
  | .free => none
  | .size => none

/-- After the operation of a phase: a command that ended in it (a `raise`) stays ended, else the next phase. -/
def afterPhase (c : Command) (p : Phase) (o : Host.Outcome State Fault Refusal) : Host.Outcome State Fault Refusal :=
  match o with
  | .next s => if s.phase = .idle then .next s else .next (s.advance c p)
  | .fault f => .fault f
  | .refused r => .refused r

/-- One phase of the command in progress. -/
def sequencerTurn (P : Params) (s : State) : Host.Outcome State Fault Refusal :=
  match s.command with
  | none => .fault .noCommand
  | some c =>
    if s.phase ∉ phasesOf c then .fault .phaseNotInCommand
    else
      match phaseFault P s.phase s with
      | some f => .fault f
      | none =>
        match phaseInstr P c s.phase s with
        | some i => afterPhase c s.phase (exec i s)
        | none => afterPhase c s.phase (.next (settle (phaseOp P c s.phase s)))

/-- The primitive's turn (R40): it answers the request that waits on the port. -/
def portTurn (f : PortFrame) (s : State) : Host.Outcome State Fault Refusal :=
  match decodePort f with
  | .ok i => exec i { s with port := none }
  | .error e => .refused (.reservedRequest e)

/-- Whose turn it is: a reset comes first, at any moment (R160); then the primitive, if a request waits on the
port (R40); then the sequencer, if a command is in progress; then the host (R10). -/
def turn (P : Params) (s : State) : Host.Outcome State Fault Refusal :=
  if s.inputs.head? = some .reset then .next (resetFrom { s with inputs := s.inputs.tail })
  else
    match s.port with
    | some f => portTurn f s
    | none => if s.phase = .idle then hostTurn P s else sequencerTurn P s

end Sys2Proof.Machine
end

