-- ==== Sys2Proof/Machine/Step.lean ====
section
/-! DEFINITION. The step, and where a bare word of the opcode table is put so that the next step runs it. -/

namespace Sys2Proof.Machine

/-- One step of the machine at its own parameters (Machine/Sequencer.lean says whose turn it is). -/
def step (s : State) : Host.Outcome State Fault Refusal := turn Config.params s

/-- `s` with a table word where the next step fetches: a command word as the host's next write to CMD, a header
word as the request on the cipher port, with zeros behind it. The step fetches a CMD write in IDLE with nothing
on the port, and a request on the port with no reset before it. -/
def State.withFetchWord (s : State) (nbits w : Nat) : State :=
  match tableWire nbits w with
  | .cmd word =>
    { s with inputs := .writeReg 0 word :: s.inputs, port := none, phase := .idle, command := none }
  | .port f => { s with port := some f, inputs := s.inputs.dropWhile (· == .reset) }

end Sys2Proof.Machine
end

