-- ==== Sys2Proof/Safety.lean ====
section
/-! DEFINITION. The terms the claims are written in: the primitive's statuses to come, the closed forms of the
rules (R85, R90 to R92), what a run must never release, and the invariant of the machine. -/

namespace Sys2Proof.Machine

/-! ## The primitive's statuses -/

/-- The status the primitive will give to the `k`-th request from here, counted from 0 (R129). -/
def statusAt (P : Params) (s : State) (k : Nat) : PortStatus :=
  (s.answers.drop k).headD (P.portStatus (s.issued + k))

/-- The next six requests, those of one command (R130), are all answered OK. -/
abbrev allAnswersOk (P : Params) (s : State) : Prop := ∀ k < 6, statusAt P s k = .ok

/-- How many of the next `n` requests, the first being number `k` from here, are issued before the command ends:
up to and with the first that is answered Error (R128, R130). -/
def requestsIssued (P : Params) (s : State) : Nat → Nat → Nat
  | _, 0 => 0
  | k, n + 1 => if statusAt P s k = .ok then 1 + requestsIssued P s (k + 1) n else 1

/-! ## The operands -/

/-- All five tests of VALIDATE pass (R80). -/
abbrev operandsLegal (s : State) : Prop := s.legalKey ∧ s.legalTag ∧ s.legalNonce ∧ s.legalAad ∧ s.legalMsg

/-! ## Closed forms -/

/-- `b_input` as one expression (R85). -/
def ccmInput (t : Nat) (nonce aad msg : Bytes) : Bytes :=
  [b0Flags t nonce.length aad.length] ++ nonce ++ be msg.length (15 - nonce.length)
    ++ (if aad.length > 0 then pad16 (be aad.length 2 ++ aad) else []) ++ pad16 msg

/-- The CTR IV as one expression (R92). -/
def ccmIv (nonce : Bytes) : Bytes := [ivFlags nonce.length] ++ nonce ++ zeros (15 - nonce.length)

/-- The MAC: the last block of the CBC pass with a zero IV over `b_input` (R101, R125). -/
def ccmMac (P : Params) (key : Bytes) (t : Nat) (nonce aad msg : Bytes) : Bytes :=
  slice (cbcMode P key (zeros 16) (ccmInput t nonce aad msg)) (16 * (cbcBlocks msg.length aad.length - 1)) 16

/-- The CTR pass over a first block and a padded message (R90, R91, R126). -/
def ccmCtr (P : Params) (key nonce head msg : Bytes) : Bytes :=
  ctrMode P key (ccmIv nonce) (head ++ zeros (16 - head.length) ++ pad16 msg)

/-- The output of the CTR pass of CCM_ENC in a state's operands (R101). -/
def encOutput (P : Params) (s : State) : Bytes :=
  ccmCtr P (keyOperand P s) (nonceOperand P s)
    (ccmMac P (keyOperand P s) s.tagLength (nonceOperand P s) (aadOperand P s) (msgOperand P s)) (msgOperand P s)

/-- The output of the CTR pass of CCM_DEC in a state's operands (R111). -/
def decOutput (P : Params) (s : State) : Bytes :=
  ccmCtr P (keyOperand P s) (nonceOperand P s) (tagOperand P s) (msgOperand P s)

/-- The recovered plaintext of CCM_DEC (R111). -/
def decPlaintext (P : Params) (s : State) : Bytes := slice (decOutput P s) 16 s.msgLength

/-- `U` of CCM_DEC (R111). -/
def decCandidate (P : Params) (s : State) : Bytes := slice (decOutput P s) 0 s.tagLength

/-- `T'` of CCM_DEC (R111). -/
def decRecomputed (P : Params) (s : State) : Bytes :=
  (ccmMac P (keyOperand P s) s.tagLength (nonceOperand P s) (aadOperand P s) (decPlaintext P s)).take s.tagLength

/-- The six requests of a CCM_ENC in a state's operands (R130). -/
def encPlan (P : Params) (s : State) : List PortRequest :=
  [.init .cbc, .setKey (keyRequest P s (zeros 16)),
    .encrypt (ccmInput s.tagLength (nonceOperand P s) (aadOperand P s) (msgOperand P s)),
    .init .ctr, .setKey (keyRequest P s (ccmIv (nonceOperand P s))),
    .encrypt (ccmMac P (keyOperand P s) s.tagLength (nonceOperand P s) (aadOperand P s) (msgOperand P s)
      ++ pad16 (msgOperand P s))]

/-- The six requests of a CCM_DEC in a state's operands (R130). -/
def decPlan (P : Params) (s : State) : List PortRequest :=
  [.init .ctr, .setKey (keyRequest P s (ccmIv (nonceOperand P s))),
    .encrypt (tagOperand P s ++ zeros (16 - s.tagLength) ++ pad16 (msgOperand P s)),
    .init .cbc, .setKey (keyRequest P s (zeros 16)),
    .encrypt (ccmInput s.tagLength (nonceOperand P s) (aadOperand P s) (decPlaintext P s))]

/-- Block `k` of a byte sequence (R7). -/
def blockAt (bytes : Bytes) (k : Nat) : Bytes := slice bytes (16 * k) 16

/-! ## What a claim says of two states -/

/-- A byte of an output buffer (R16). -/
def outByte (s : State) (sp : Space) (i : Nat) : Option Byte := memRead sp i (s.buffer sp)

/-- Nothing is released: every byte of MSG_OUT and TAG_OUT reads 0x00 (R16, R146). -/
def nothingReleased (s : State) : Prop :=
  ∀ i, outByte s .msgOut i = some 0 ∧ outByte s .tagOut i = some 0

/-- No working buffer exists (R17). -/
def noWork (s : State) : Prop := ∀ b, s.work b = none

/-- The five operand registers are the same (R11). -/
def sameRegisters (s t : State) : Prop := ∀ r, t.operand r = s.operand r

/-- Every byte of a space reads the same. -/
def sameBytes (sp : Space) (s t : State) : Prop := ∀ i, memRead sp i (t.buffer sp) = memRead sp i (s.buffer sp)

/-- The operand registers and the operand buffers are the same, byte for byte (R11, R15). -/
def sameOperands (s t : State) : Prop :=
  sameRegisters s t ∧ t.epoch = s.epoch
    ∧ sameBytes .key s t ∧ sameBytes .nonce s t ∧ sameBytes .aad s t ∧ sameBytes .msgIn s t ∧ sameBytes .tagIn s t

/-- What is the host's and the port's, not a command's to change: the inputs to come, the replies given, the
request waiting. -/
def sameSurroundings (s t : State) : Prop :=
  t.inputs = s.inputs ∧ t.replies = s.replies ∧ t.port = s.port

/-- What a CCM command leaves as it was, and where it leaves the engine: the operands, BLOCKS, STATUS[31:5] and
the surroundings the same; IDLE, no working buffer, DONE set (R11, R13 to R18, R146). -/
def commandFrame (s t : State) : Prop :=
  sameOperands s t ∧ t.blocks = s.blocks ∧ sameSurroundings s t
    ∧ (∀ i, 5 ≤ i → t.status.getLsbD i = s.status.getLsbD i)
    ∧ statusDone t.status = true ∧ t.phase = .idle ∧ t.command = none ∧ noWork t

/-- Two states agree on what a CCM command may read: the operand registers and the bytes of KEY, NONCE, AAD and
MSG_IN below the lengths (R15). -/
def agreeOnOperands (P : Params) (s u : State) : Prop :=
  sameRegisters s u ∧ keyOperand P u = keyOperand P s ∧ nonceOperand P u = nonceOperand P s
    ∧ aadOperand P u = aadOperand P s ∧ msgOperand P u = msgOperand P s

/-! ## The invariant -/

/-- The cells of every buffer are in canonical form and inside their space (R30). -/
def memoryOk (P : Params) (s : State) : Prop :=
  ∀ sp, Memory.wf sp (s.buffer sp) ∧ ∀ c ∈ s.buffer sp, inSpace P sp c.1 = true

/-- STATUS: bits [31:5] are 0, RESULT is one of the ten codes, and RESULT is 0 until a command has ended (R13,
R140, R21). -/
def statusOk (s : State) : Prop :=
  s.status.toNat < 32 ∧ (statusResult s.status).toNat ≤ 9
    ∧ (statusDone s.status = false → statusResult s.status = 0)

/-- In IDLE no command is in progress and no working buffer exists, nor does one in SIZE (R17, R18). -/
def sequencerOk (s : State) : Prop :=
  (s.phase = .idle ↔ s.command = none) ∧ (s.phase = .idle ∨ s.phase = .size → noWork s)

/-- The machine's invariant. Between steps the cipher port is empty (R40, R130: requests are issued inside a
command). -/
def Inv (s : State) : Prop :=
  memoryOk Config.params s ∧ statusOk s ∧ sequencerOk s ∧ s.port = none

end Sys2Proof.Machine
end

