-- ==== Sys2Proof/Certificates/Slice0/Obligations.lean ====
section
/-! DEFINITION. The statements for the provers. Each docstring names the rule of spec/ it formalises, or says
that it is the model's choice. -/

open Sys2Proof Sys2Proof.Machine

/-! ## Encodings -/

/-- R51: the word of each command, matched over all 32 bits. -/
def Obligations.CommandWordsDecode : Prop :=
  ∀ w : Word, (decodeCommand w = .ok .ccmEnc ↔ w = 0x00000001#32) ∧ (decodeCommand w = .ok .ccmDec ↔ w = 0x00000002#32)
    ∧ (decodeCommand w = .ok .cbcSize ↔ w = 0x00000010#32) ∧ (decodeCommand w = .ok .ctrSize ↔ w = 0x00000011#32)

/-- Words written out from the spec's encodings (R51, R61, R62, worked examples of R121 to R123) decode to the
operation they stand for. A sanity statement. -/
def Obligations.WrittenWordsDecode : Prop :=
  decode (.cmd 0x00000011#32) = .ok .ctrSize
    ∧ decode (.port ⟨[0x00000004#32], []⟩) = .ok (.ciphInit .cbc)
    ∧ decode (.port ⟨[0x00000008#32], []⟩) = .ok (.ciphInit .ctr)
    ∧ decode (.port ⟨[0x00008201#32], List.replicate 16 0xC0#8 ++ List.replicate 16 0x01#8⟩) =
        .ok (.ciphSetKey ⟨.key128, .encrypt, List.replicate 16 0xC0#8, List.replicate 16 0x01#8⟩)
    ∧ decode (.port ⟨[0x00008305#32], List.replicate 24 0xC0#8 ++ List.replicate 16 0x01#8⟩) =
        .ok (.ciphSetKey ⟨.key192, .encrypt, List.replicate 24 0xC0#8, List.replicate 16 0x01#8⟩)
    ∧ decode (.port ⟨[0x00008409#32], List.replicate 32 0xC0#8 ++ List.replicate 16 0x01#8⟩) =
        .ok (.ciphSetKey ⟨.key256, .encrypt, List.replicate 32 0xC0#8, List.replicate 16 0x01#8⟩)
    ∧ decode (.port ⟨[0x00000002#32, 0x00000010#32, 0x00000000#32], List.replicate 16 0x59#8⟩) =
        .ok (.ciphEncrypt (List.replicate 16 0x59#8))

/-- Decode and encode agree (R51, R61, R62): every well-formed operation that has an encoding is what its encoding
decodes to, with every operand. -/
def Obligations.EncodedOperationsDecode : Prop :=
  ∀ (i : Instr) (w : Wire), i.wf = true → encode i = some w → decode w = .ok i

/-- Every wire has one meaning (R51, R61, R62): what decodes is exactly the encoding of a well-formed operation. That
a port frame R61 and R62 do not list (OFFSET not 0, KEYBYTES not the class's, a fixed bit set, a reserved code)
decodes to nothing is the model's choice (log 14, partly DEDUCED): R63 says only that the engine never produces
the reserved values. -/
def Obligations.DecodedWiresAreEncodings : Prop :=
  ∀ (w : Wire) (i : Instr), decode w = .ok i → i.wf = true ∧ encode i = some w

/-! ## The step -/

/-- A step runs the decoded command (R10, R12): in IDLE with nothing on the port, a write of a command's word to
CMD is `exec` of that command, the access being consumed. -/
def Obligations.StepRunsTheDecodedCommand : Prop :=
  ∀ (s : State) (w : Word) (rest : List Input) (i : Instr),
    s.phase = .idle → s.port = none → s.inputs = .writeReg 0 w :: rest → decodeCommand w = .ok i →
      step s = exec i { s with inputs := rest }

/-- A step answers the request that waits on the cipher port (R40; that a request can wait there between steps is
the model's own, log 3). -/
def Obligations.StepAnswersThePortRequest : Prop :=
  ∀ (s : State) (f : PortFrame) (i : Instr),
    s.inputs.head? ≠ some .reset → s.port = some f → decodePort f = .ok i →
      step s = exec i { s with port := none }

/-- Inside a command a step performs the phase the sequencer stands in and moves to the next phase of the list (R18):
the operation of the opcode table where the phase has one, a command that ended in it staying ended; else (CLEAR_OUT,
ALLOC, RECOVER, COMPARE, OUTPUT, FREE, and SIZE of the size commands) what the phase does, or the failure exit it
raises. After the last phase the command has ended. That a state can stand inside a command is the model's choice
(logs 2, 12). -/
def Obligations.StepPerformsTheSequencersPhase : Prop :=
  ∀ (s : State) (c : Command),
    s.inputs.head? ≠ some .reset → s.port = none → s.command = some c → s.phase ≠ .idle → s.phase ∈ phasesOf c →
      phaseFault Config.params s.phase s = none →
        (∀ i, phaseInstr Config.params c s.phase s = some i →
          step s =
            match exec i s with
            | .next t => if t.phase = .idle then .next t else .next (t.advance c s.phase)
            | .fault f => .fault f
            | .refused r => .refused r)
        ∧ (phaseInstr Config.params c s.phase s = none →
          step s = .next
            (match phaseOp Config.params c s.phase s with
            | .ok t => t.advance c s.phase
            | .raise r t => failureExit r t))
        ∧ (phaseInstr Config.params c s.phase s = none ↔
          s.phase ∈ [.clearOut, .alloc, .recover, .compare, .output, .free, .size])

/-- R160: nothing runs after reset: in IDLE with no input and nothing on the port the engine waits. -/
def Obligations.IdleEngineWaits : Prop :=
  step State.reset = .next State.reset
    ∧ ∀ s : State, s.phase = .idle → s.port = none → s.inputs = [] → step s = .next s

/-- R21, the reset values: registers, STATUS and BLOCKS 0, outputs all 0x00, IDLE, no working buffer, every byte of
the operand buffers an arbitrary value (the free value of that byte, log 5). -/
def Obligations.ResetValues : Prop :=
  (∀ r, State.reset.operand r = 0) ∧ State.reset.status = 0 ∧ State.reset.blocks = 0
    ∧ nothingReleased State.reset ∧ State.reset.phase = .idle ∧ noWork State.reset
    ∧ ∀ sp, hostWritable sp = true → ∀ i, byteAt Config.params State.reset sp i = Config.resetByte 0 sp i

/-- R160: a reset input takes effect at any moment, also inside a command or with a request on the port, with the
values of R21; the operand buffers hold the free bytes of a new reset. That the inputs to come and the records
stay is the model's choice (log 18). -/
def Obligations.ResetAtAnyMoment : Prop :=
  ∀ (s : State) (rest : List Input), s.inputs = .reset :: rest →
    ∃ t, step s = .next t ∧ (∀ r, t.operand r = 0) ∧ t.status = 0 ∧ t.blocks = 0 ∧ nothingReleased t
      ∧ t.phase = .idle ∧ t.command = none ∧ noWork t ∧ t.port = none ∧ t.inputs = rest
      ∧ ∀ sp, hostWritable sp = true → ∀ i, byteAt Config.params t sp i = Config.resetByte (s.epoch + 1) sp i

/-! ## The host's accesses -/

/-- R11: any 32-bit value can be written to an operand register and is read back unchanged; nothing else changes,
no other register, no buffer, no flag. -/
def Obligations.OperandRegistersReadBack : Prop :=
  ∀ (s : State) (r : OperandReg) (w : Word) (rest : List Input),
    s.phase = .idle → s.port = none → s.inputs = .writeReg (operandIndex r) w :: rest →
      ∃ t, step s = .next t ∧ t = ({ s with inputs := rest } : State).setOperand r w
        ∧ regRead (operandIndex r) t = some w
        ∧ (∀ k, k ≠ operandIndex r → regRead k t = regRead k s) ∧ ∀ sp, sameBytes sp s t

/-- R33 (b): a host write to STATUS, BLOCKS or a byte of an output buffer is ignored. -/
def Obligations.ReadOnlyWritesIgnored : Prop :=
  ∀ (s : State) (a : Input) (rest : List Input),
    s.phase = .idle → s.port = none → s.inputs = a :: rest →
      ((∃ w, a = .writeReg 1 w) ∨ (∃ w, a = .writeReg 7 w)
        ∨ ∃ sp i b, a = .writeByte sp i b ∧ hostWritable sp = false ∧ inSpace Config.params sp i = true) →
        step s = .next { s with inputs := rest }

/-- R33 (a, b): a read returns the stored value (0 for CMD) and changes nothing. -/
def Obligations.HostReadsHaveNoSideEffect : Prop :=
  ∀ (s : State) (rest : List Input), s.phase = .idle → s.port = none →
    (∀ k v, s.inputs = .readReg k :: rest → regRead k s = some v →
        step s = .next { s with inputs := rest, replies := s.replies ++ [.reg v] })
      ∧ (∀ sp i, s.inputs = .readByte sp i :: rest → inSpace Config.params sp i = true →
        step s = .next { s with inputs := rest, replies := s.replies ++ [.byte (byteAt Config.params s sp i)] })
      ∧ regRead 0 s = some 0 ∧ regRead 1 s = some s.status ∧ regRead 7 s = some s.blocks

/-- R30 (D36): an access to an index outside its space has no step: refused. -/
def Obligations.OutOfRangeAccessRefused : Prop :=
  ∀ (s : State) (rest : List Input), s.phase = .idle → s.port = none →
    (∀ k w, 7 < k → s.inputs = .writeReg k w :: rest → step s = .refused .indexOutOfRange)
      ∧ (∀ k, 7 < k → s.inputs = .readReg k :: rest → step s = .refused .indexOutOfRange)
      ∧ (∀ sp i b, inSpace Config.params sp i = false → s.inputs = .writeByte sp i b :: rest →
        step s = .refused .indexOutOfRange)
      ∧ ∀ sp i, inSpace Config.params sp i = false → s.inputs = .readByte sp i :: rest →
        step s = .refused .indexOutOfRange

/-- R33 (a): a byte written to an operand buffer reads as written, by the host and by a command; every other byte
of every space and every register stays as it was, and the buffer keeps its canonical form. -/
def Obligations.ByteWriteThenReadBack : Prop :=
  ∀ (s : State) (sp : Space) (i : Nat) (b : Byte) (rest : List Input),
    s.phase = .idle → s.port = none → s.inputs = .writeByte sp i b :: rest → hostWritable sp = true →
      inSpace Config.params sp i = true → Memory.wf sp (s.buffer sp) →
        ∃ t, step s = .next t ∧ byteAt Config.params t sp i = b
          ∧ (∀ sq k, (sq ≠ sp ∨ k ≠ i) → memRead sq k (t.buffer sq) = memRead sq k (s.buffer sq))
          ∧ Memory.wf sp (t.buffer sp) ∧ (∀ k, regRead k t = regRead k s) ∧ t.inputs = rest ∧ t.phase = .idle

/-- R65: `LD SPACE, b0 ... bk` loads the bytes at indices 0 to k, one access a step, and leaves every other byte
as it was. -/
def Obligations.LoadStatementLoads : Prop :=
  ∀ (s : State) (sp : Space) (bs : Bytes),
    s.phase = .idle → s.port = none → s.inputs = hostLd sp bs → hostWritable sp = true →
      (∀ i < bs.length, inSpace Config.params sp i = true) → Memory.wf sp (s.buffer sp) →
        ∃ t : State, Host.Core.run Sys2Proof.core bs.length s = .next t ∧ t.inputs = []
          ∧ (∀ i < bs.length, byteAt Config.params t sp i = bs.getD i 0)
          ∧ (∀ sq k, (sq ≠ sp ∨ bs.length ≤ k) → memRead sq k (t.buffer sq) = memRead sq k (s.buffer sq))

/-- R52: a reserved CMD word changes nothing but RESULT and DONE; no request is issued. -/
def Obligations.ReservedWordOnlySetsStatus : Prop :=
  ∀ (s : State) (w : Word) (rest : List Input),
    s.phase = .idle → s.port = none → s.inputs = .writeReg 0 w :: rest →
      w ≠ 0x00000001#32 → w ≠ 0x00000002#32 → w ≠ 0x00000010#32 → w ≠ 0x00000011#32 →
        ∃ t, step s = .next t ∧ t = { s with inputs := rest, status := t.status }
          ∧ statusResult t.status = 9 ∧ statusDone t.status = true
          ∧ ∀ i, 5 ≤ i → t.status.getLsbD i = s.status.getLsbD i

/-! ## Sizing -/

/-- R72: CBC_SIZE (CMD word 0x10) puts cbc_blocks(MSG_LEN, AAD_LEN) into BLOCKS without truncation, RESULT = OK,
DONE = 1, and changes nothing else but the phase, which is IDLE after it. -/
def Obligations.CbcSizeComputesBlocks : Prop :=
  decodeCommand 0x00000010#32 = .ok .cbcSize ∧ ∀ s : State, ∃ t, exec .cbcSize s = .next t
    ∧ t = { s with blocks := t.blocks, status := t.status, phase := .idle, command := none }
    ∧ t.blocks.toNat =
        1 + (if s.aadLen.toNat > 0 then 1 + (s.aadLen.toNat - 14 + 15) / 16 else 0) + (s.msgLen.toNat + 15) / 16
    ∧ statusResult t.status = 0 ∧ statusDone t.status = true
    ∧ ∀ i, 5 ≤ i → t.status.getLsbD i = s.status.getLsbD i

/-- R73: CTR_SIZE (CMD word 0x11) puts ctr_blocks(MSG_LEN) into BLOCKS, RESULT = OK, DONE = 1, and changes nothing
else but the phase, which is IDLE after it. -/
def Obligations.CtrSizeComputesBlocks : Prop :=
  decodeCommand 0x00000011#32 = .ok .ctrSize ∧ ∀ s : State, ∃ t, exec .ctrSize s = .next t
    ∧ t = { s with blocks := t.blocks, status := t.status, phase := .idle, command := none }
    ∧ t.blocks.toNat = 1 + (s.msgLen.toNat + 15) / 16
    ∧ statusResult t.status = 0 ∧ statusDone t.status = true
    ∧ ∀ i, 5 ≤ i → t.status.getLsbD i = s.status.getLsbD i

/-- R74: the properties of the two size functions, (a) the data model's formula, (b) the assemblers' buffers: what is
written into them is the appended regions of R85, R90 and R91, which have exactly these sizes, so nothing falls
past the end, (c) the comparison, (d) monotonicity, (e) the largest legal AAD region, (f) the zero-AAD path. -/
def Obligations.SizeFunctionProperties : Prop :=
  (∀ m a, cbcBlocks m a = (if a > 0 then cdiv16 (a + 2) else 0) + cdiv16 m + 1)
    ∧ (∀ t nonce aad msg, (buildBInput t nonce aad msg).length = 16 * cbcBlocks msg.length aad.length)
    ∧ (∀ t nonce aad msg, 7 ≤ nonce.length → nonce.length ≤ 13 →
        (ccmInput t nonce aad msg).length = 16 * cbcBlocks msg.length aad.length
          ∧ buildBInput t nonce aad msg = ccmInput t nonce aad msg)
    ∧ (∀ head msg, (buildCtrIn head msg).length = 16 * ctrBlocks msg.length)
    ∧ (∀ head msg : Bytes, head.length ≤ 16 →
        (head ++ zeros (16 - head.length) ++ pad16 msg).length = 16 * ctrBlocks msg.length
          ∧ buildCtrIn head msg = head ++ zeros (16 - head.length) ++ pad16 msg)
    ∧ (∀ m a, ctrBlocks m ≤ cbcBlocks m a ∧ (ctrBlocks m = cbcBlocks m a ↔ a = 0))
    ∧ (∀ m m' a a', m ≤ m' → a ≤ a' → cbcBlocks m a ≤ cbcBlocks m' a' ∧ ctrBlocks m ≤ ctrBlocks m')
    ∧ (∀ a, a ≤ 0xFEFF → aadBlocks a ≤ 4081)
    ∧ ∀ m, cbcBlocks m 0 = 1 + cdiv16 m

/-! ## Validation and assembly -/

/-- R80: VALIDATE goes on with nothing changed but the phase when no test holds, else takes the failure exit
with the first test that holds, in R80's order and on the full 32-bit registers. R80 and R146 speak of a phase of
CCM_ENC or CCM_DEC; that VALIDATE run alone, outside a command, takes the same exit is the model's choice
(log 17). -/
def Obligations.ValidateReportsFirstCause : Prop :=
  ∀ s : State, exec .validate s = .next
    (if s.keyBits ≠ 128 ∧ s.keyBits ≠ 192 ∧ s.keyBits ≠ 256 then
      failureExit .invalidKeyLength { s with phase := .validate }
    else if s.tagLen = 0 ∨ s.tagLen = 2 ∨ s.tagLen.toNat > 16 ∨ s.tagLen.toNat % 2 = 1 then
      failureExit .invalidTagLength { s with phase := .validate }
    else if s.nonceLen.toNat < 7 ∨ s.nonceLen.toNat > 13 then
      failureExit .invalidNonceLength { s with phase := .validate }
    else if s.aadLen.toNat ≥ 0xFF00 then failureExit .aadTooLong { s with phase := .validate }
    else if s.msgLen.toNat ≥ 2 ^ (8 * (15 - s.nonceLen.toNat)) then
      failureExit .messageTooLong { s with phase := .validate }
    else { s with phase := .validate })

/-- R146: what the failure exit does, for every result; that a `raise` in any phase of a command takes it, whatever
phases are left; and that a reserved word's exit is the two STATUS writes alone. -/
def Obligations.FailureExitEffect : Prop :=
  ∀ (r : Result) (s : State),
    nothingReleased (failureExit r s) ∧ commandFrame s (failureExit r s)
      ∧ statusResult (failureExit r s).status = r.code ∧ (failureExit r s).trace = s.trace
      ∧ (failureExit r s).issued = s.issued ∧ (failureExit r s).context = s.context
      ∧ (∀ (P : Params) (c : Command) (p : Phase) (ps : List Phase) (u : State),
          phaseOp P c p (u.enter c p) = .raise r s → runPhases P c (p :: ps) u = failureExit r s)
      ∧ invalidCommand s = { s with status := (invalidCommand s).status }
      ∧ statusResult (invalidCommand s).status = 9 ∧ statusDone (invalidCommand s).status = true

/-- R55: the fields of the FLAGS byte of B0 for legal lengths: bit 7 is 0, ADATA, M' and L', and the formula has
no overlap. -/
def Obligations.FlagsByteFields : Prop :=
  ∀ t n a : Nat, 4 ≤ t → t ≤ 16 → t % 2 = 0 → 7 ≤ n → n ≤ 13 →
    (b0Flags t n a).getLsbD 7 = false ∧ (b0Flags t n a).getLsbD 6 = decide (a > 0)
      ∧ ((b0Flags t n a).extractLsb' 3 3).toNat = (t - 2) / 2
      ∧ ((b0Flags t n a).extractLsb' 0 3).toNat = 14 - n

/-- R56: the LENGTH field is the big-endian message length in the last q bytes of the block, the other bytes stay,
and the encoding fails (a rest is left) exactly when the length needs more than q bytes. -/
def Obligations.LengthFieldIsBigEndian : Prop :=
  ∀ (q m : Nat) (buf : Bytes), 2 ≤ q → q ≤ 8 → 16 ≤ buf.length →
    (∀ j < q, (writeLength q 0 m buf)[16 - q + j]? = (be (m % 2 ^ (8 * q)) q)[j]?)
      ∧ (∀ k, k < 16 - q ∨ 16 ≤ k → (writeLength q 0 m buf)[k]? = buf[k]?)
      ∧ (m >>> (8 * q) ≠ 0 ↔ 2 ^ (8 * q) ≤ m)

/-- R85: the four steps R81 to R84 over a zeroed buffer build exactly the one expression of R85, on both paths;
nothing else changes but the phase. -/
def Obligations.AsmCbcmacBuildsItsInput : Prop :=
  ∀ (s : State) (source : MsgSource),
    s.legalTag → s.legalNonce → s.legalAad → s.legalMsg → fits Config.params s = true →
      sourceExists source s = true →
        exec (.asmCbcmac source) s = .next
          { s with
            phase := .asmCbc
            bInput := some (ccmInput s.tagLength (nonceOperand Config.params s) (aadOperand Config.params s)
              (sourceMessage Config.params source s)) }

/-- R58, R57, R86: where the AAD and the message land in `b_input`, and that the buffer has exactly its size: AAD
byte j at 18 + j, message byte j at 16·(1+na) + j, 0x00 in the padding of both regions. -/
def Obligations.AadAndMessagePositions : Prop :=
  ∀ (t : Nat) (nonce aad msg : Bytes), 7 ≤ nonce.length → nonce.length ≤ 13 →
    (buildBInput t nonce aad msg).length = 16 * cbcBlocks msg.length aad.length
      ∧ (∀ j < aad.length, (buildBInput t nonce aad msg)[18 + j]? = aad[j]?)
      ∧ (∀ j < msg.length, (buildBInput t nonce aad msg)[16 * (1 + aadBlocks aad.length) + j]? = msg[j]?)
      ∧ (aad.length > 0 → ∀ k, 18 + aad.length ≤ k → k < 16 * (1 + aadBlocks aad.length) →
          (buildBInput t nonce aad msg)[k]? = some 0)
      ∧ ∀ k, 16 * (1 + aadBlocks aad.length) + msg.length ≤ k → k < 16 * cbcBlocks msg.length aad.length →
          (buildBInput t nonce aad msg)[k]? = some 0

/-- R90: `ctr_in = mac ++ pad16(pt)`, the MAC whole; nothing else changes but the phase. That it also runs on lengths
VALIDATE rejects is the model's choice (log 12). -/
def Obligations.AsmCtrEncBuildsItsInput : Prop :=
  ∀ (s : State) (out : Bytes), fits Config.params s = true → s.cbcOut = some out → out.length = 16 * s.cbcBlocks →
    exec .asmCtrEnc s = .next
      { s with
        phase := .asmCtr
        ctrIn := some (slice out (16 * (s.cbcBlocks - 1)) 16 ++ pad16 (msgOperand Config.params s)) }

/-- R91: `ctr_in = tag ++ zeros(16 - t) ++ pad16(ct)`; nothing else changes but the phase. That it also runs beside
other lengths that VALIDATE rejects is the model's choice (log 12). -/
def Obligations.AsmCtrDecBuildsItsInput : Prop :=
  ∀ s : State, s.legalTag → fits Config.params s = true →
    exec .asmCtrDec s = .next
      { s with
        phase := .asmCtr
        ctrIn := some (tagOperand Config.params s ++ zeros (16 - s.tagLength)
          ++ pad16 (msgOperand Config.params s)) }

/-- R92: `ctr_iv = [q - 1] ++ nonce ++ zeros(q)`; nothing else changes but the phase. That it also runs beside other
lengths that VALIDATE rejects is the model's choice (log 12). -/
def Obligations.BuildCtrIvBuildsTheIv : Prop :=
  ∀ s : State, s.legalNonce →
    exec .buildCtrIv s = .next
      { s with
        phase := .ctrIv
        ctrIv := some ([BitVec.ofNat 8 (14 - s.nonceLength)] ++ nonceOperand Config.params s
          ++ zeros (15 - s.nonceLength)) }

/-- The model's choice (log 12; 91 N9 "is not described", R17): BUILD_CTR_IV stops on an illegal nonce length,
ASM_CBCMAC on an illegal tag, nonce, AAD or message length and on legal ones that fit without the recovered message
it is to take, ASM_CTR_ENC on lengths that fit without a whole `cbc_out`, ASM_CTR_DEC on an illegal tag length. The
stop on lengths that do not fit, and what runs beside lengths an operation does not use, are not said here. -/
def Obligations.InternalOperationsStopWithoutOperands : Prop :=
  ∀ s : State,
    (¬ s.legalNonce → exec .buildCtrIv s = .fault .notValidated)
      ∧ (∀ source, ¬ (s.legalTag ∧ s.legalNonce ∧ s.legalAad ∧ s.legalMsg) →
          exec (.asmCbcmac source) s = .fault .notValidated)
      ∧ (s.legalTag → s.legalNonce → s.legalAad → s.legalMsg → fits Config.params s = true →
          s.hasWork .ctrOut = false → exec (.asmCbcmac .recovered) s = .fault .missingBuffer)
      ∧ (fits Config.params s = true → s.hasWork .cbcOut = false → exec .asmCtrEnc s = .fault .missingBuffer)
      ∧ (¬ s.legalTag → exec .asmCtrDec s = .fault .notValidated)

/-! ## The cipher port -/

/-- R121: CIPH_INIT answered OK selects the mode and begins a new context; nothing else changes but the record of
the request. -/
def Obligations.CiphInitSelectsTheMode : Prop :=
  ∀ (s : State) (m : Mode), statusAt Config.params s 0 = .ok →
    exec (.ciphInit m) s = .next
      { s with
        context := ⟨some m, none, false⟩, answers := s.answers.tail, issued := s.issued + 1
        trace := s.trace ++ [⟨.init m, .ok []⟩] }

/-- R122: CIPH_SET_KEY answered OK installs key, IV and direction in the context; nothing else changes but the
record of the request. That it completes on an ill-formed set-up too is the model's choice (log 8). -/
def Obligations.CiphSetKeyInstallsTheKey : Prop :=
  ∀ (s : State) (r : SetKey), statusAt Config.params s 0 = .ok →
    exec (.ciphSetKey r) s = .next
      { s with
        context := ⟨s.context.mode, some r, true⟩, answers := s.answers.tail, issued := s.issued + 1
        trace := s.trace ++ [⟨.setKey r, .ok []⟩] }

/-- R120 (a), R123: after CIPH_INIT and CIPH_SET_KEY with direction ENCRYPT, a CIPH_ENCRYPT over whole blocks that
is answered OK puts CBC(key, iv, input) into `cbc_out`, or CTR(key, iv, input) into `ctr_out`, by the mode;
nothing else changes but the context and the record of the request. That it also runs alone, outside a command, and
then brings the buffer into existence whatever its length, and that the mode and not the phase chooses the buffer in a
phase written by hand with another mode, is the model's choice (log 22). -/
def Obligations.CiphEncryptUnderContract : Prop :=
  ∀ (s : State) (input : Bytes) (r : SetKey) (m : Mode), statusAt Config.params s 0 = .ok →
    s.context = ⟨some m, some r, true⟩ → r.direction = .encrypt → r.wf = true → input.length % 16 = 0 →
      (m = .cbc → exec (.ciphEncrypt input) s = .next
        { s with
          cbcOut := some (cbcMode Config.params r.key r.iv input), context := ⟨some .cbc, some r, false⟩
          answers := s.answers.tail, issued := s.issued + 1
          trace := s.trace ++ [⟨.encrypt input, .ok (cbcMode Config.params r.key r.iv input)⟩] })
      ∧ (m = .ctr → exec (.ciphEncrypt input) s = .next
        { s with
          ctrOut := some (ctrMode Config.params r.key r.iv input), context := ⟨some .ctr, some r, false⟩
          answers := s.answers.tail, issued := s.issued + 1
          trace := s.trace ++ [⟨.encrypt input, .ok (ctrMode Config.params r.key r.iv input)⟩] })

/-- The model's choice (log 8; R131, R132: no meaning needed, outputs unspecified): outside the contract a
CIPH_ENCRYPT that is answered OK still completes; the bytes it outputs are free, as many as the input's, and every
buffer but the mode's own stays; run alone it brings that buffer into existence, and
in a phase of another mode the mode chooses the buffer (log 22). -/
def Obligations.CiphEncryptOutsideContract : Prop :=
  ∀ (s : State) (input : Bytes), statusAt Config.params s 0 = .ok →
    (s.context.contract input = none ∨ s.context.mode = none ∨ s.context.mode = some .ecb) →
      ∃ (t : State) (out : Bytes), exec (.ciphEncrypt input) s = .next t ∧ out.length = input.length
        ∧ (s.context.mode = some .cbc → t.cbcOut = some out) ∧ (s.context.mode = some .ctr → t.ctrOut = some out)
        ∧ (s.context.mode ≠ some .cbc → t.cbcOut = s.cbcOut) ∧ (s.context.mode ≠ some .ctr → t.ctrOut = s.ctrOut)
        ∧ t.trace = s.trace ++ [⟨.encrypt input, .ok out⟩] ∧ sameOperands s t ∧ t.blocks = s.blocks
        ∧ t.status = s.status ∧ (∀ sp, sameBytes sp s t) ∧ t.bInput = s.bInput ∧ t.ctrIv = s.ctrIv
        ∧ t.ctrIn = s.ctrIn ∧ t.phase = s.phase ∧ t.command = s.command ∧ sameSurroundings s t

/-- R121 to R123, R129, R146: a request answered Error ends the command through the failure exit with
CipherError, and no further request is issued. That the exit is also taken outside a command is the model's choice
(log 17). -/
def Obligations.PortErrorEndsTheCommand : Prop :=
  ∀ (s : State) (i : Instr) (r : PortRequest), statusAt Config.params s 0 = .error →
    ((∃ m, i = .ciphInit m ∧ r = .init m) ∨ (∃ k, i = .ciphSetKey k ∧ r = .setKey k)
      ∨ ∃ input, i = .ciphEncrypt input ∧ r = .encrypt input) →
      ∃ t, exec i s = .next t ∧ statusResult t.status = 6 ∧ nothingReleased t ∧ commandFrame s t
        ∧ t.trace = s.trace ++ [⟨r, .error⟩] ∧ t.issued = s.issued + 1

/-- R125: block i of the CBC output is E(key, P_i xor C_{i-1}), with C_{-1} the IV, and the output has the
input's length. -/
def Obligations.CbcModeChainsItsBlocks : Prop :=
  ∀ (P : Params) (key iv input : Bytes), iv.length = 16 → input.length % 16 = 0 →
    (cbcMode P key iv input).length = input.length
      ∧ ∀ i < input.length / 16,
        blockAt (cbcMode P key iv input) i =
          cipherBlock P key (xorBytes (blockAt input i)
            (if i = 0 then iv else blockAt (cbcMode P key iv input) (i - 1)))

/-- R126: block i of the CTR output is P_i xor E(key, ctr_i), ctr_i the IV as a 128-bit big-endian number plus i, mod
2^128; the output has the input's length, and the pass is its own inverse. -/
def Obligations.CtrModeXorsTheKeystream : Prop :=
  ∀ (P : Params) (key iv input : Bytes), input.length % 16 = 0 →
    (ctrMode P key iv input).length = input.length
      ∧ (∀ i < input.length / 16,
        blockAt (ctrMode P key iv input) i = xorBytes (blockAt input i)
          (cipherBlock P key (be ((beNat iv + i) % 2 ^ 128) 16)))
      ∧ ctrMode P key iv (ctrMode P key iv input) = input

/-- R94 (an inference the spec marks as its own, from R92, R80 and R126): the counter stays in the last q bytes of
the IV for every block of the CTR pass of a legal message. -/
def Obligations.CounterStaysInItsField : Prop :=
  ∀ (nonce : Bytes) (m k : Nat), 7 ≤ nonce.length → nonce.length ≤ 13 →
    m < 2 ^ (8 * (15 - nonce.length)) → k < ctrBlocks m →
      inc128 (buildIv nonce) k = [ivFlags nonce.length] ++ nonce ++ be k (15 - nonce.length)

/-! ## The commands -/

/-- R101, R102: with legal operands that fit and six OK answers, CCM_ENC completes with RESULT = OK, the truncated
tag in TAG_OUT and the ciphertext in MSG_OUT, both zero beyond their lengths; operands, BLOCKS and surroundings
are unchanged. -/
def Obligations.EncryptAndTagSucceeds : Prop :=
  ∀ s : State, operandsLegal s → fits Config.params s = true → allAnswersOk Config.params s →
    ∃ t, exec .ccmEnc s = .next t ∧ statusResult t.status = 0 ∧ commandFrame s t
      ∧ (encOutput Config.params s).length = 16 * s.ctrBlocks
      ∧ (∀ i, outByte t .tagOut i =
          some (if i < s.tagLength then (encOutput Config.params s).getD i 0 else 0))
      ∧ ∀ i, outByte t .msgOut i =
          some (if i < s.msgLength then (encOutput Config.params s).getD (16 + i) 0 else 0)

/-- R111 to R113: with legal operands that fit and six OK answers, CCM_DEC completes: with RESULT = OK and the
recovered plaintext in MSG_OUT if T' = U over t bytes, else with AuthenticationFailure and nothing released; TAG_OUT
is zero either way, operands, BLOCKS and surroundings are unchanged. -/
def Obligations.DecryptAndVerifyDecides : Prop :=
  ∀ s : State, operandsLegal s → fits Config.params s = true → allAnswersOk Config.params s →
    ∃ t, exec .ccmDec s = .next t ∧ commandFrame s t
      ∧ (decOutput Config.params s).length = 16 * s.ctrBlocks
      ∧ (∀ i, outByte t .tagOut i = some 0)
      ∧ if decRecomputed Config.params s = decCandidate Config.params s then
          statusResult t.status = 0
            ∧ ∀ i, outByte t .msgOut i =
              some (if i < s.msgLength then (decPlaintext Config.params s).getD i 0 else 0)
        else statusResult t.status = 7 ∧ ∀ i, outByte t .msgOut i = some 0

/-- R143: which result a write to CMD leaves, for every word and every state of the idle engine: the first cause in
the order of priority. -/
def Obligations.CommandResultByPriority : Prop :=
  ∀ (s : State) (w : Word) (rest : List Input),
    s.phase = .idle → s.port = none → s.inputs = .writeReg 0 w :: rest →
      ∃ t, step s = .next t ∧ statusDone t.status = true ∧ statusResult t.status =
        if w ≠ 0x00000001#32 ∧ w ≠ 0x00000002#32 ∧ w ≠ 0x00000010#32 ∧ w ≠ 0x00000011#32 then 9
        else if w = 0x00000010#32 ∨ w = 0x00000011#32 then 0
        else if ¬ s.legalKey then 8
        else if ¬ s.legalTag then 1
        else if ¬ s.legalNonce then 2
        else if ¬ s.legalAad then 3
        else if ¬ s.legalMsg then 4
        else if fits Config.params s = false then 5
        else if ¬ allAnswersOk Config.params s then 6
        else if w = 0x00000002#32 ∧ decRecomputed Config.params s ≠ decCandidate Config.params s then 7
        else 0

/-- R145, R146, R16: whatever fails, a CCM command releases nothing; it always completes, keeps the operands and
BLOCKS, and leaves the engine idle with no working buffer. For every state. -/
def Obligations.FailedCommandReleasesNothing : Prop :=
  ∀ (s : State) (i : Instr), i = .ccmEnc ∨ i = .ccmDec →
    ∃ t, exec i s = .next t ∧ commandFrame s t ∧ (t.failed = true → nothingReleased t)
      ∧ (i = .ccmDec → ∀ k, outByte t .tagOut k = some 0)

/-- R130: the requests of a command, in order, cut short after the first Error; none of a size command or a reserved
word, none of a CCM command that fails in VALIDATE or ALLOC. For every state. The sixth request can fail like the others
(R130, L2.18; R145 counts at most five for a CipherError, log 23). -/
def Obligations.CommandIssuesItsRequests : Prop :=
  (∀ (s : State) (i : Instr) (plan : List PortRequest),
    (i = .ccmEnc ∧ plan = encPlan Config.params s) ∨ (i = .ccmDec ∧ plan = decPlan Config.params s) →
      ∃ (t : State) (sent : List PortRequest), exec i s = .next t
        ∧ sent = (if operandsLegal s ∧ fits Config.params s = true
            then plan.take (requestsIssued Config.params s 0 6) else [])
        ∧ t.trace.map (·.request) = s.trace.map (·.request) ++ sent ∧ t.issued = s.issued + sent.length)
    ∧ (∀ (s : State) (i : Instr), i = .cbcSize ∨ i = .ctrSize →
        ∃ t, exec i s = .next t ∧ t.trace = s.trace ∧ t.issued = s.issued)
    ∧ ∀ s : State, (invalidCommand s).trace = s.trace ∧ (invalidCommand s).issued = s.issued

/-- R115 (c), the round trip: what CCM_ENC encrypted and tagged with result OK, CCM_DEC with the same key, nonce,
AAD and lengths, the ciphertext in MSG_IN and the tag in TAG_IN, and six OK answers, decrypts to the plaintext with
result OK. At every choice of the parameters, so for every E (`exec` runs the commands at the machine's own). -/
def Obligations.DecryptRecoversThePlaintext : Prop :=
  ∀ (P : Params) (s u : State), (runCommand P .ccmEnc s).failed = false →
    sameRegisters s u → keyOperand P u = keyOperand P s → nonceOperand P u = nonceOperand P s →
    aadOperand P u = aadOperand P s →
    (∀ i < s.msgLength, outByte (runCommand P .ccmEnc s) .msgOut i = some (byteAt P u .msgIn i)) →
    (∀ i < s.tagLength, outByte (runCommand P .ccmEnc s) .tagOut i = some (byteAt P u .tagIn i)) →
    allAnswersOk P u →
      (runCommand P .ccmDec u).failed = false
        ∧ ∀ i < s.msgLength, outByte (runCommand P .ccmDec u) .msgOut i = some (byteAt P s .msgIn i)

/-- R115 (d): a tag that differs from the one that verified is always rejected with AuthenticationFailure, nothing
released. At every choice of the parameters. -/
def Obligations.TagTamperingDetected : Prop :=
  ∀ (P : Params) (s u : State), (runCommand P .ccmDec s).failed = false →
    agreeOnOperands P s u → tagOperand P u ≠ tagOperand P s → allAnswersOk P u →
      statusResult (runCommand P .ccmDec u).status = 7 ∧ nothingReleased (runCommand P .ccmDec u)

/-- R115 (f) in the form that holds (its proof's "each CBC step is injective" carries a change of one block): when
E(key, ·) is injective and t = 16, a change confined to one block of the ciphertext is always detected. At every
choice of the parameters; log 20. -/
def Obligations.OneBlockTamperingDetected : Prop :=
  ∀ (P : Params) (s u : State) (k : Nat), (∀ key, Function.Injective (P.blockCipher key)) →
    s.tagLength = 16 → sameRegisters s u → keyOperand P u = keyOperand P s →
    nonceOperand P u = nonceOperand P s → aadOperand P u = aadOperand P s → tagOperand P u = tagOperand P s →
    (∀ i < s.msgLength, i / 16 ≠ k → byteAt P u .msgIn i = byteAt P s .msgIn i) →
    msgOperand P u ≠ msgOperand P s →
    allAnswersOk P u → (runCommand P .ccmDec s).failed = false →
      statusResult (runCommand P .ccmDec u).status = 7

/-- R115 (f) as it is worded, for a change of any message bytes: it does not follow from the rules, because a
change in two blocks can cancel in the CBC chain. Expected to fail; log 20. -/
def Obligations.AnyMessageTamperingDetected : Prop :=
  ∀ (P : Params) (s u : State), (∀ key, Function.Injective (P.blockCipher key)) →
    s.tagLength = 16 → sameRegisters s u → keyOperand P u = keyOperand P s →
    nonceOperand P u = nonceOperand P s → aadOperand P u = aadOperand P s → tagOperand P u = tagOperand P s →
    msgOperand P u ≠ msgOperand P s →
    allAnswersOk P u → (runCommand P .ccmDec s).failed = false →
      statusResult (runCommand P .ccmDec u).status = 7

/-- R20, R15: the result, the outputs and the requests of a CCM command depend on nothing but the operand registers,
the operand bytes below the lengths and the primitive's statuses: not on BLOCKS, STATUS, earlier outputs, the
cipher context, working buffers, or bytes beyond the lengths. -/
def Obligations.CommandDependsOnlyOnOperands : Prop :=
  ∀ (s u : State) (i : Instr),
    i = .ccmEnc ∨ (i = .ccmDec ∧ tagOperand Config.params u = tagOperand Config.params s) →
    agreeOnOperands Config.params s u → (∀ k < 6, statusAt Config.params u k = statusAt Config.params s k) →
      ∃ (t v : State) (events : List PortEvent), exec i s = .next t ∧ exec i u = .next v
        ∧ statusResult t.status = statusResult v.status
        ∧ (∀ k, outByte t .msgOut k = outByte v .msgOut k ∧ outByte t .tagOut k = outByte v .tagOut k)
        ∧ t.trace = s.trace ++ events ∧ v.trace = u.trace ++ events

/-- R10, R18: the atomic command is the run of the sequencer phase by phase: from CLEAR_OUT, with no input to come
and nothing on the port, sixteen steps lead to the state the command's one step leads to. That a state can stand
inside a command is the model's choice (log 2). -/
def Obligations.PhaseByPhaseRunIsTheCommand : Prop :=
  ∀ (s : State) (c : Command) (i : Instr), (c = .ccmEnc ∧ i = .ccmEnc) ∨ (c = .ccmDec ∧ i = .ccmDec) →
    s.inputs = [] → s.port = none →
      Host.Core.run Sys2Proof.core 16 ({ s with phase := .clearOut, command := some c } : State) = exec i s

/-! ## Invariants and whole-machine rules -/

/-- R11, R15 (D28): no operation of the engine writes an operand register or an operand buffer. -/
def Obligations.EngineNeverWritesOperands : Prop :=
  ∀ (i : Instr) (s t : State), exec i s = .next t → sameOperands s t

/-- R14, R16: only the size commands write BLOCKS, and only what runs inside a CCM command writes the outputs: the
assemblers, the IV builder and the size commands leave every output byte as it was. -/
def Obligations.OnlySizeCommandsWriteBlocks : Prop :=
  ∀ (i : Instr) (s t : State), exec i s = .next t →
    (i ≠ .cbcSize → i ≠ .ctrSize → t.blocks = s.blocks)
      ∧ ((i = .cbcSize ∨ i = .ctrSize ∨ (∃ source, i = .asmCbcmac source) ∨ i = .asmCtrEnc ∨ i = .asmCtrDec
          ∨ i = .buildCtrIv) → sameBytes .msgOut s t ∧ sameBytes .tagOut s t)

/-- The invariant holds after reset (R21). -/
def Obligations.ResetMeetsTheInvariant : Prop := Inv State.reset

/-- Every step keeps the invariant: canonical buffers inside their spaces (R30), a legal STATUS (R13, R140), no
working buffer and no command in IDLE (R17, R18), an empty cipher port. From every state that meets it. -/
def Obligations.StepKeepsTheInvariant : Prop :=
  ∀ s t : State, Inv s → step s = .next t → Inv t
end

