-- ==== Sys2Proof/Laws/Bytes.lean ====
section
/-! SUPPORT. Lengths and bytes of the byte-sequence operations, and what `putBytes` does: once each. -/

namespace Sys2Proof.Machine

@[simp] theorem zeros_length (n : Nat) : (zeros n).length = n := by simp [zeros]

@[simp] theorem zeros_zero : zeros 0 = [] := rfl

theorem zeros_add (a b : Nat) : zeros (a + b) = zeros a ++ zeros b := List.replicate_add ..

@[simp] theorem be_length (n k : Nat) : (be n k).length = k := by simp [be]

@[simp] theorem slice_length (s : Bytes) (a n : Nat) : (slice s a n).length = min n (s.length - a) := by
  simp [slice]

@[simp] theorem xorBytes_length (a b : Bytes) : (xorBytes a b).length = min a.length b.length := by
  simp [xorBytes]

theorem pad16_length (s : Bytes) : (pad16 s).length = 16 * cdiv16 s.length := by
  simp [pad16, cdiv16]; omega

@[simp] theorem putBytes_length (buf : Bytes) (i : Nat) (src : Bytes) :
    (putBytes buf i src).length = buf.length := by
  induction src generalizing buf i with
  | nil => rfl
  | cons b src ih => simp [putBytes, ih]

/-- `putBytes` changes exactly the bytes from `i` on that `src` covers. -/
theorem putBytes_getElem? (buf : Bytes) (i : Nat) (src : Bytes) (k : Nat) :
    (putBytes buf i src)[k]? =
      if i ≤ k ∧ k < i + src.length ∧ k < buf.length then src[k - i]? else buf[k]? := by
  induction src generalizing buf i with
  | nil =>
    rw [putBytes, if_neg]
    simp only [List.length_nil]
    omega
  | cons b src ih =>
    simp only [putBytes, ih, List.length_set, List.length_cons]
    by_cases h1 : i + 1 ≤ k ∧ k < i + 1 + src.length ∧ k < buf.length
    · rw [if_pos h1, if_pos (by omega)]
      obtain ⟨d, rfl⟩ : ∃ d, k = i + 1 + d := ⟨k - (i + 1), by omega⟩
      rw [show i + 1 + d - (i + 1) = d by omega, show i + 1 + d - i = d + 1 by omega]
      rfl
    · rw [if_neg h1, List.getElem?_set]
      by_cases h2 : i = k
      · subst h2
        by_cases h3 : i < buf.length
        · simp [h3]
        · simp [h3]
      · rw [if_neg h2, if_neg (by omega)]

/-- `putBytes` where the sequence fits: what stands before, the sequence, what stands after. -/
theorem putBytes_eq (buf : Bytes) (i : Nat) (src : Bytes) (h : i + src.length ≤ buf.length) :
    putBytes buf i src = buf.take i ++ src ++ buf.drop (i + src.length) := by
  induction src generalizing buf i with
  | nil => simp [putBytes]
  | cons b src ih =>
    simp only [List.length_cons] at h
    simp only [putBytes]
    rw [ih _ _ (by simp; omega)]
    have h1 : List.take (i + 1) (buf.set i b) = buf.take i ++ [b] := by
      rw [List.take_add_one]
      simp only [List.take_set, List.getElem?_set, show i < buf.length by omega, if_true]
      rw [List.set_eq_of_length_le (by simp)]
      rfl
    rw [h1, List.drop_set_of_lt (by omega)]
    simp [Nat.add_assoc, Nat.add_comm 1]

/-- The next putBytes begins where this one ended: the two are one. -/
theorem putBytes_putBytes (buf : Bytes) (i : Nat) (a b : Bytes) :
    putBytes (putBytes buf i a) (i + a.length) b = putBytes buf i (a ++ b) := by
  induction a generalizing buf i with
  | nil => simp [putBytes]
  | cons x a ih =>
    simp only [putBytes, List.cons_append, List.length_cons]
    rw [← ih]
    congr 1
    omega

@[simp] theorem writeB0Head_length (t a : Nat) (nonce buf : Bytes) :
    (writeB0Head t a nonce buf).length = buf.length := by simp [writeB0Head]

@[simp] theorem writeLength_length (k i left : Nat) (buf : Bytes) :
    (writeLength k i left buf).length = buf.length := by
  induction k generalizing i left buf with
  | zero => rfl
  | succ k ih => simp [writeLength, ih]

@[simp] theorem writeAad_length (aad buf : Bytes) : (writeAad aad buf).length = buf.length := by
  unfold writeAad; split <;> simp

@[simp] theorem writeMessage_length (a : Nat) (msg buf : Bytes) :
    (writeMessage a msg buf).length = buf.length := by simp [writeMessage]

@[simp] theorem buildCtrIn_length (head msg : Bytes) :
    (buildCtrIn head msg).length = 16 * ctrBlocks msg.length := by simp [buildCtrIn]

@[simp] theorem buildIv_length (nonce : Bytes) : (buildIv nonce).length = 16 := by simp [buildIv]

@[simp] theorem blockOf_getElem (s : Bytes) (i : Nat) (h : i < 16) : (blockOf s)[i] = s.getD i 0 := by
  simp [blockOf]

/-- A block's bytes are the sequence, when it has 16 bytes. -/
theorem blockOf_toList (s : Bytes) (h : s.length = 16) : (blockOf s).toList = s := by
  apply List.ext_getElem
  · simp [h]
  · intro i h1 h2
    simp at h1
    simp [h2]

theorem zeros_set_zero (n : Nat) (b : Byte) (h : 0 < n) : (zeros n).set 0 b = [b] ++ zeros (n - 1) := by
  obtain ⟨k, rfl⟩ : ∃ k, n = k + 1 := ⟨n - 1, by omega⟩
  simp [zeros, List.replicate_succ]

theorem zeros_drop (n k : Nat) : (zeros n).drop k = zeros (n - k) := by simp [zeros]

/-- `putBytes` at the end of what was written so far. -/
theorem putBytes_after (pre src : Bytes) (n : Nat) (h : src.length ≤ n) :
    putBytes (pre ++ zeros n) pre.length src = pre ++ src ++ zeros (n - src.length) := by
  rw [putBytes_eq _ _ _ (by simp; omega)]
  simp [List.drop_append, zeros_drop]

/-- Byte `j` of a big-endian encoding. -/
theorem be_getElem? (n k j : Nat) :
    (be n k)[j]? = if j < k then some (lowByte ((n >>> (8 * (k - 1 - j))) &&& 0xFF)) else none := by
  unfold be
  by_cases h : j < k
  · rw [if_pos h, List.getElem?_map, List.getElem?_range h]; rfl
  · rw [if_neg h, List.getElem?_eq_none (by simp; omega)]

/-- `writeLength` writes bytes 15 - i downwards and no other. -/
theorem writeLength_getElem? (k i left : Nat) (buf : Bytes) (j : Nat) (hk : i + k ≤ 16) :
    (writeLength k i left buf)[j]? =
      if i ≤ 15 - j ∧ 15 - j < i + k ∧ j ≤ 15 ∧ j < buf.length
        then some (lowByte ((left >>> (8 * (15 - j - i))) &&& 0xFF)) else buf[j]? := by
  induction k generalizing i left buf with
  | zero => rw [writeLength, if_neg (by omega)]
  | succ k ih =>
    rw [writeLength, ih _ _ _ (by omega)]
    simp only [List.length_set]
    by_cases h1 : i + 1 ≤ 15 - j ∧ 15 - j < i + 1 + k ∧ j ≤ 15 ∧ j < buf.length
    · rw [if_pos h1, if_pos (by omega), ← Nat.shiftRight_add]
      congr 5
      omega
    · rw [if_neg h1, List.getElem?_set]
      by_cases h2 : 15 - i = j
      · subst h2
        by_cases h3 : 15 - i < buf.length
        · rw [if_pos rfl, if_pos h3, if_pos (by omega)]
          rw [show 15 - (15 - i) - i = 0 by omega]; simp
        · rw [if_pos rfl, if_neg h3, if_neg (by omega)]
          rw [List.getElem?_eq_none (by omega)]
      · rw [if_neg h2, if_neg (by omega)]

end Sys2Proof.Machine
end

