-- ==== Sys2Proof/Laws/Memory.lean ====
section
/-! SUPPORT. The byte spaces: reading after writing, and the canonical form, which every operation keeps. -/

namespace Sys2Proof.Machine

/-- Indices strictly rising: the part of the canonical form that the list operations see. -/
abbrev rising (m : List Host.Cell) : Prop := m.Pairwise fun a b => a.1 < b.1

theorem cellAt_none_of_lt {i : Nat} {m : List Host.Cell} (h : ∀ c ∈ m, i < c.1) : cellAt i m = none := by
  induction m with
  | nil => rfl
  | cons c m ih =>
    obtain ⟨j, b⟩ := c
    have hj : i < j := h (j, b) (by simp)
    rw [cellAt, if_neg (by omega)]
    exact ih fun c hc => h c (by simp [hc])

theorem cellAt_insert (i k : Nat) (b : Byte) (m : List Host.Cell) (hm : rising m) :
    cellAt k (cellInsert i b m) = if k = i then some b else cellAt k m := by
  induction m with
  | nil => simp [cellInsert, cellAt]
  | cons c m ih =>
    obtain ⟨j, x⟩ := c
    rw [rising, List.pairwise_cons] at hm
    simp only [cellInsert]
    by_cases h1 : i < j
    · simp only [h1, if_true, cellAt]
    · by_cases h2 : i = j
      · subst h2
        simp only [h1, if_false, if_true, cellAt]
        split <;> rfl
      · simp only [h1, h2, if_false, cellAt, ih hm.2]
        by_cases h3 : k = j
        · simp [h3, show ¬ j = i by omega]
        · simp [h3]

theorem cellAt_erase (i k : Nat) (m : List Host.Cell) (hm : rising m) :
    cellAt k (cellErase i m) = if k = i then none else cellAt k m := by
  induction m with
  | nil => simp [cellErase, cellAt]
  | cons c m ih =>
    obtain ⟨j, x⟩ := c
    rw [rising, List.pairwise_cons] at hm
    simp only [cellErase]
    by_cases h1 : i = j
    · subst h1
      simp only [if_true, cellAt]
      by_cases h2 : k = i
      · subst h2
        simp only [if_true]
        exact cellAt_none_of_lt fun c hc => hm.1 c hc
      · simp [h2]
    · simp only [h1, if_false, cellAt, ih hm.2]
      by_cases h3 : k = j
      · simp [h3, show ¬ j = i by omega]
      · simp [h3]

theorem mem_cellInsert {i : Nat} {b : Byte} {m : List Host.Cell} {c : Host.Cell} (h : c ∈ cellInsert i b m) :
    c = (i, b) ∨ c ∈ m := by
  induction m with
  | nil => simpa [cellInsert] using h
  | cons d m ih =>
    obtain ⟨j, x⟩ := d
    simp only [cellInsert] at h
    split at h
    · simpa using h
    · split at h
      · rcases List.mem_cons.mp h with h | h
        · exact .inl h
        · exact .inr (by simp [h])
      · rcases List.mem_cons.mp h with h | h
        · exact .inr (by simp [h])
        · rcases ih h with h | h
          · exact .inl h
          · exact .inr (by simp [h])

theorem mem_cellErase {i : Nat} {m : List Host.Cell} {c : Host.Cell} (h : c ∈ cellErase i m) : c ∈ m := by
  induction m with
  | nil => simp [cellErase] at h
  | cons d m ih =>
    obtain ⟨j, x⟩ := d
    simp only [cellErase] at h
    split at h
    · simp [h]
    · rcases List.mem_cons.mp h with h | h
      · simp [h]
      · simp [ih h]

theorem rising_insert {i : Nat} {b : Byte} {m : List Host.Cell} (hm : rising m) : rising (cellInsert i b m) := by
  induction m with
  | nil => simp [cellInsert, rising]
  | cons d m ih =>
    obtain ⟨j, x⟩ := d
    have hm' := List.pairwise_cons.mp hm
    simp only [cellInsert]
    split
    · rename_i h
      refine List.pairwise_cons.mpr ⟨fun c hc => ?_, hm⟩
      rcases List.mem_cons.mp hc with rfl | hc
      · exact h
      · exact Nat.lt_trans h (hm'.1 c hc)
    · split
      · rename_i h
        subst h
        exact List.pairwise_cons.mpr ⟨hm'.1, hm'.2⟩
      · refine List.pairwise_cons.mpr ⟨fun c hc => ?_, ih hm'.2⟩
        rcases mem_cellInsert hc with rfl | hc
        · simp; omega
        · exact hm'.1 c hc

theorem rising_erase {i : Nat} {m : List Host.Cell} (hm : rising m) : rising (cellErase i m) := by
  induction m with
  | nil => simp [cellErase, rising]
  | cons d m ih =>
    obtain ⟨j, x⟩ := d
    have hm' := List.pairwise_cons.mp hm
    simp only [cellErase]
    split
    · exact hm'.2
    · exact List.pairwise_cons.mpr ⟨fun c hc => hm'.1 c (mem_cellErase hc), ih hm'.2⟩

/-- An empty list is canonical. -/
@[simp] theorem wf_nil (sp : Space) : Memory.wf sp [] := by simp [Memory.wf]

/-- A write keeps the canonical form. -/
theorem memWrite_wf {sp : Space} {i : Nat} {b : Byte} {m : List Host.Cell} (h : Memory.wf sp m) :
    Memory.wf sp (memWrite sp i b m) := by
  unfold memWrite
  split
  · exact ⟨rising_erase h.1, fun c hc => h.2 c (mem_cellErase hc)⟩
  · rename_i hb
    refine ⟨rising_insert h.1, fun c hc => ?_⟩
    rcases mem_cellInsert hc with rfl | hc
    · exact hb
    · exact h.2 c hc

/-- Writing a byte sequence keeps the canonical form. -/
theorem memWriteBytes_wf {sp : Space} {i : Nat} {bs : Bytes} {m : List Host.Cell} (h : Memory.wf sp m) :
    Memory.wf sp (memWriteBytes sp i bs m) := by
  induction bs generalizing i m with
  | nil => exact h
  | cons b bs ih => exact ih (memWrite_wf h)

/-- Read after write (R33 a): the byte written reads as written, every other byte as before. -/
theorem memRead_memWrite (sp : Space) (i k : Nat) (b : Byte) (m : List Host.Cell) (h : Memory.wf sp m) :
    memRead sp k (memWrite sp i b m) = if k = i then some b else memRead sp k m := by
  unfold memRead memWrite
  by_cases hb : unlisted sp = some b
  · rw [if_pos hb, cellAt_erase _ _ _ h.1]
    by_cases hk : k = i <;> simp [hk, hb]
  · rw [if_neg hb, cellAt_insert _ _ _ _ h.1]
    by_cases hk : k = i <;> simp [hk]

/-- Read after writing a sequence: its bytes where it stands, every other byte as before. -/
theorem memRead_memWriteBytes (sp : Space) (i k : Nat) (bs : Bytes) (m : List Host.Cell) (h : Memory.wf sp m) :
    memRead sp k (memWriteBytes sp i bs m) =
      if i ≤ k ∧ k < i + bs.length then bs[k - i]? else memRead sp k m := by
  induction bs generalizing i m with
  | nil =>
    rw [memWriteBytes, if_neg]
    simp only [List.length_nil]
    omega
  | cons b bs ih =>
    simp only [memWriteBytes, ih _ _ (memWrite_wf h), memRead_memWrite _ _ _ _ _ h, List.length_cons]
    by_cases h1 : i + 1 ≤ k ∧ k < i + 1 + bs.length
    · rw [if_pos h1, if_pos (by omega)]
      obtain ⟨d, rfl⟩ : ∃ d, k = i + 1 + d := ⟨k - (i + 1), by omega⟩
      rw [show i + 1 + d - (i + 1) = d by omega, show i + 1 + d - i = d + 1 by omega]
      rfl
    · rw [if_neg h1]
      by_cases h2 : k = i
      · subst h2; simp
      · rw [if_neg h2, if_neg (by omega)]

/-- A write lists no index but its own that was not listed before. -/
theorem mem_memWrite {sp : Space} {i : Nat} {b : Byte} {m : List Host.Cell} {c : Host.Cell}
    (h : c ∈ memWrite sp i b m) : c = (i, b) ∨ c ∈ m := by
  unfold memWrite at h
  split at h
  · exact .inr (mem_cellErase h)
  · exact mem_cellInsert h

/-- Writing a sequence lists no index outside it that was not listed before. -/
theorem mem_memWriteBytes {sp : Space} {i : Nat} {bs : Bytes} {m : List Host.Cell} {c : Host.Cell}
    (h : c ∈ memWriteBytes sp i bs m) : (i ≤ c.1 ∧ c.1 < i + bs.length) ∨ c ∈ m := by
  induction bs generalizing i m with
  | nil => exact .inr h
  | cons b bs ih =>
    simp only [List.length_cons]
    rcases ih h with h | h
    · exact .inl (by omega)
    · rcases mem_memWrite h with rfl | h
      · exact .inl (by simp)
      · exact .inr h

/-- The lists of State.reset are canonical. -/
theorem reset_wf (sp : Space) : Memory.wf sp (State.reset.buffer sp) := by cases sp <;> exact wf_nil _

/-- A cleared output buffer reads 0x00 everywhere (R16). -/
@[simp] theorem memRead_nil (sp : Space) (i : Nat) : memRead sp i [] = unlisted sp := rfl

@[simp] theorem spaceBytes_length (P : Params) (s : State) (sp : Space) (n : Nat) :
    (spaceBytes P s sp n).length = n := by simp [spaceBytes]

@[simp] theorem keyOperand_length (P : Params) (s : State) : (keyOperand P s).length = s.keyLength := by
  simp [keyOperand]

@[simp] theorem nonceOperand_length (P : Params) (s : State) : (nonceOperand P s).length = s.nonceLength := by
  simp [nonceOperand]

@[simp] theorem aadOperand_length (P : Params) (s : State) : (aadOperand P s).length = s.aadLength := by
  simp [aadOperand]

@[simp] theorem msgOperand_length (P : Params) (s : State) : (msgOperand P s).length = s.msgLength := by
  simp [msgOperand]

@[simp] theorem tagOperand_length (P : Params) (s : State) : (tagOperand P s).length = s.tagLength := by
  simp [tagOperand]

end Sys2Proof.Machine
end

