-- ==== Sys2Proof/Laws/State.lean ====
section
/-! SUPPORT. One lemma per field per update of State, and the same for the lengths and the operands, so that no
later proof unfolds a record update. -/

namespace Sys2Proof.Machine

/-! ## setPhase -/

@[simp] theorem setPhase_keyBits (s : State) (p : Phase) : (s.setPhase p).keyBits = s.keyBits := rfl
@[simp] theorem setPhase_nonceLen (s : State) (p : Phase) : (s.setPhase p).nonceLen = s.nonceLen := rfl
@[simp] theorem setPhase_aadLen (s : State) (p : Phase) : (s.setPhase p).aadLen = s.aadLen := rfl
@[simp] theorem setPhase_msgLen (s : State) (p : Phase) : (s.setPhase p).msgLen = s.msgLen := rfl
@[simp] theorem setPhase_tagLen (s : State) (p : Phase) : (s.setPhase p).tagLen = s.tagLen := rfl
@[simp] theorem setPhase_status (s : State) (p : Phase) : (s.setPhase p).status = s.status := rfl
@[simp] theorem setPhase_blocks (s : State) (p : Phase) : (s.setPhase p).blocks = s.blocks := rfl
@[simp] theorem setPhase_key (s : State) (p : Phase) : (s.setPhase p).key = s.key := rfl
@[simp] theorem setPhase_nonce (s : State) (p : Phase) : (s.setPhase p).nonce = s.nonce := rfl
@[simp] theorem setPhase_aad (s : State) (p : Phase) : (s.setPhase p).aad = s.aad := rfl
@[simp] theorem setPhase_msgIn (s : State) (p : Phase) : (s.setPhase p).msgIn = s.msgIn := rfl
@[simp] theorem setPhase_tagIn (s : State) (p : Phase) : (s.setPhase p).tagIn = s.tagIn := rfl
@[simp] theorem setPhase_msgOut (s : State) (p : Phase) : (s.setPhase p).msgOut = s.msgOut := rfl
@[simp] theorem setPhase_tagOut (s : State) (p : Phase) : (s.setPhase p).tagOut = s.tagOut := rfl
@[simp] theorem setPhase_phase (s : State) (p : Phase) : (s.setPhase p).phase = p := rfl
@[simp] theorem setPhase_bInput (s : State) (p : Phase) : (s.setPhase p).bInput = s.bInput := rfl
@[simp] theorem setPhase_cbcOut (s : State) (p : Phase) : (s.setPhase p).cbcOut = s.cbcOut := rfl
@[simp] theorem setPhase_ctrIv (s : State) (p : Phase) : (s.setPhase p).ctrIv = s.ctrIv := rfl
@[simp] theorem setPhase_ctrIn (s : State) (p : Phase) : (s.setPhase p).ctrIn = s.ctrIn := rfl
@[simp] theorem setPhase_ctrOut (s : State) (p : Phase) : (s.setPhase p).ctrOut = s.ctrOut := rfl
@[simp] theorem setPhase_context (s : State) (p : Phase) : (s.setPhase p).context = s.context := rfl
@[simp] theorem setPhase_command (s : State) (p : Phase) : (s.setPhase p).command = s.command := rfl
@[simp] theorem setPhase_port (s : State) (p : Phase) : (s.setPhase p).port = s.port := rfl
@[simp] theorem setPhase_inputs (s : State) (p : Phase) : (s.setPhase p).inputs = s.inputs := rfl
@[simp] theorem setPhase_replies (s : State) (p : Phase) : (s.setPhase p).replies = s.replies := rfl
@[simp] theorem setPhase_answers (s : State) (p : Phase) : (s.setPhase p).answers = s.answers := rfl
@[simp] theorem setPhase_issued (s : State) (p : Phase) : (s.setPhase p).issued = s.issued := rfl
@[simp] theorem setPhase_trace (s : State) (p : Phase) : (s.setPhase p).trace = s.trace := rfl
@[simp] theorem setPhase_epoch (s : State) (p : Phase) : (s.setPhase p).epoch = s.epoch := rfl
@[simp] theorem setPhase_keyLength (s : State) (p : Phase) : (s.setPhase p).keyLength = s.keyLength := rfl
@[simp] theorem setPhase_nonceLength (s : State) (p : Phase) : (s.setPhase p).nonceLength = s.nonceLength := rfl
@[simp] theorem setPhase_aadLength (s : State) (p : Phase) : (s.setPhase p).aadLength = s.aadLength := rfl
@[simp] theorem setPhase_msgLength (s : State) (p : Phase) : (s.setPhase p).msgLength = s.msgLength := rfl
@[simp] theorem setPhase_tagLength (s : State) (p : Phase) : (s.setPhase p).tagLength = s.tagLength := rfl
@[simp] theorem setPhase_cbcBlocks (s : State) (p : Phase) : (s.setPhase p).cbcBlocks = s.cbcBlocks := rfl
@[simp] theorem setPhase_ctrBlocks (s : State) (p : Phase) : (s.setPhase p).ctrBlocks = s.ctrBlocks := rfl
@[simp] theorem setPhase_keyOperand (P : Params) (s : State) (p : Phase) : keyOperand P (s.setPhase p) = keyOperand P s := rfl
@[simp] theorem setPhase_nonceOperand (P : Params) (s : State) (p : Phase) : nonceOperand P (s.setPhase p) = nonceOperand P s := rfl
@[simp] theorem setPhase_aadOperand (P : Params) (s : State) (p : Phase) : aadOperand P (s.setPhase p) = aadOperand P s := rfl
@[simp] theorem setPhase_msgOperand (P : Params) (s : State) (p : Phase) : msgOperand P (s.setPhase p) = msgOperand P s := rfl
@[simp] theorem setPhase_tagOperand (P : Params) (s : State) (p : Phase) : tagOperand P (s.setPhase p) = tagOperand P s := rfl
@[simp] theorem setPhase_operand (s : State) (p : Phase) (q : OperandReg) : (s.setPhase p).operand q = s.operand q := by cases q <;> rfl
@[simp] theorem setPhase_buffer (s : State) (p : Phase) (sp : Space) : (s.setPhase p).buffer sp = s.buffer sp := by cases sp <;> rfl
@[simp] theorem setPhase_work (s : State) (p : Phase) (b : WorkBuffer) : (s.setPhase p).work b = s.work b := by cases b <;> rfl
@[simp] theorem setPhase_workBytes (s : State) (p : Phase) (b : WorkBuffer) : (s.setPhase p).workBytes b = s.workBytes b := by cases b <;> rfl
@[simp] theorem setPhase_workSize (s : State) (p : Phase) (b : WorkBuffer) : (s.setPhase p).workSize b = s.workSize b := by cases b <;> rfl
@[simp] theorem setPhase_fits (P : Params) (s : State) (p : Phase) : fits P (s.setPhase p) = fits P s := rfl

/-! ## endCommand -/

@[simp] theorem endCommand_keyBits (s : State) : (s.endCommand).keyBits = s.keyBits := rfl
@[simp] theorem endCommand_nonceLen (s : State) : (s.endCommand).nonceLen = s.nonceLen := rfl
@[simp] theorem endCommand_aadLen (s : State) : (s.endCommand).aadLen = s.aadLen := rfl
@[simp] theorem endCommand_msgLen (s : State) : (s.endCommand).msgLen = s.msgLen := rfl
@[simp] theorem endCommand_tagLen (s : State) : (s.endCommand).tagLen = s.tagLen := rfl
@[simp] theorem endCommand_status (s : State) : (s.endCommand).status = s.status := rfl
@[simp] theorem endCommand_blocks (s : State) : (s.endCommand).blocks = s.blocks := rfl
@[simp] theorem endCommand_key (s : State) : (s.endCommand).key = s.key := rfl
@[simp] theorem endCommand_nonce (s : State) : (s.endCommand).nonce = s.nonce := rfl
@[simp] theorem endCommand_aad (s : State) : (s.endCommand).aad = s.aad := rfl
@[simp] theorem endCommand_msgIn (s : State) : (s.endCommand).msgIn = s.msgIn := rfl
@[simp] theorem endCommand_tagIn (s : State) : (s.endCommand).tagIn = s.tagIn := rfl
@[simp] theorem endCommand_msgOut (s : State) : (s.endCommand).msgOut = s.msgOut := rfl
@[simp] theorem endCommand_tagOut (s : State) : (s.endCommand).tagOut = s.tagOut := rfl
@[simp] theorem endCommand_phase (s : State) : (s.endCommand).phase = .idle := rfl
@[simp] theorem endCommand_bInput (s : State) : (s.endCommand).bInput = s.bInput := rfl
@[simp] theorem endCommand_cbcOut (s : State) : (s.endCommand).cbcOut = s.cbcOut := rfl
@[simp] theorem endCommand_ctrIv (s : State) : (s.endCommand).ctrIv = s.ctrIv := rfl
@[simp] theorem endCommand_ctrIn (s : State) : (s.endCommand).ctrIn = s.ctrIn := rfl
@[simp] theorem endCommand_ctrOut (s : State) : (s.endCommand).ctrOut = s.ctrOut := rfl
@[simp] theorem endCommand_context (s : State) : (s.endCommand).context = s.context := rfl
@[simp] theorem endCommand_command (s : State) : (s.endCommand).command = none := rfl
@[simp] theorem endCommand_port (s : State) : (s.endCommand).port = s.port := rfl
@[simp] theorem endCommand_inputs (s : State) : (s.endCommand).inputs = s.inputs := rfl
@[simp] theorem endCommand_replies (s : State) : (s.endCommand).replies = s.replies := rfl
@[simp] theorem endCommand_answers (s : State) : (s.endCommand).answers = s.answers := rfl
@[simp] theorem endCommand_issued (s : State) : (s.endCommand).issued = s.issued := rfl
@[simp] theorem endCommand_trace (s : State) : (s.endCommand).trace = s.trace := rfl
@[simp] theorem endCommand_epoch (s : State) : (s.endCommand).epoch = s.epoch := rfl
@[simp] theorem endCommand_keyLength (s : State) : (s.endCommand).keyLength = s.keyLength := rfl
@[simp] theorem endCommand_nonceLength (s : State) : (s.endCommand).nonceLength = s.nonceLength := rfl
@[simp] theorem endCommand_aadLength (s : State) : (s.endCommand).aadLength = s.aadLength := rfl
@[simp] theorem endCommand_msgLength (s : State) : (s.endCommand).msgLength = s.msgLength := rfl
@[simp] theorem endCommand_tagLength (s : State) : (s.endCommand).tagLength = s.tagLength := rfl
@[simp] theorem endCommand_cbcBlocks (s : State) : (s.endCommand).cbcBlocks = s.cbcBlocks := rfl
@[simp] theorem endCommand_ctrBlocks (s : State) : (s.endCommand).ctrBlocks = s.ctrBlocks := rfl
@[simp] theorem endCommand_keyOperand (P : Params) (s : State) : keyOperand P (s.endCommand) = keyOperand P s := rfl
@[simp] theorem endCommand_nonceOperand (P : Params) (s : State) : nonceOperand P (s.endCommand) = nonceOperand P s := rfl
@[simp] theorem endCommand_aadOperand (P : Params) (s : State) : aadOperand P (s.endCommand) = aadOperand P s := rfl
@[simp] theorem endCommand_msgOperand (P : Params) (s : State) : msgOperand P (s.endCommand) = msgOperand P s := rfl
@[simp] theorem endCommand_tagOperand (P : Params) (s : State) : tagOperand P (s.endCommand) = tagOperand P s := rfl
@[simp] theorem endCommand_operand (s : State) (q : OperandReg) : (s.endCommand).operand q = s.operand q := by cases q <;> rfl
@[simp] theorem endCommand_buffer (s : State) (sp : Space) : (s.endCommand).buffer sp = s.buffer sp := by cases sp <;> rfl
@[simp] theorem endCommand_work (s : State) (b : WorkBuffer) : (s.endCommand).work b = s.work b := by cases b <;> rfl
@[simp] theorem endCommand_workBytes (s : State) (b : WorkBuffer) : (s.endCommand).workBytes b = s.workBytes b := by cases b <;> rfl
@[simp] theorem endCommand_workSize (s : State) (b : WorkBuffer) : (s.endCommand).workSize b = s.workSize b := by cases b <;> rfl
@[simp] theorem endCommand_fits (P : Params) (s : State) : fits P (s.endCommand) = fits P s := rfl

/-! ## enter -/

@[simp] theorem enter_keyBits (s : State) (c : Command) (p : Phase) : (s.enter c p).keyBits = s.keyBits := rfl
@[simp] theorem enter_nonceLen (s : State) (c : Command) (p : Phase) : (s.enter c p).nonceLen = s.nonceLen := rfl
@[simp] theorem enter_aadLen (s : State) (c : Command) (p : Phase) : (s.enter c p).aadLen = s.aadLen := rfl
@[simp] theorem enter_msgLen (s : State) (c : Command) (p : Phase) : (s.enter c p).msgLen = s.msgLen := rfl
@[simp] theorem enter_tagLen (s : State) (c : Command) (p : Phase) : (s.enter c p).tagLen = s.tagLen := rfl
@[simp] theorem enter_status (s : State) (c : Command) (p : Phase) : (s.enter c p).status = s.status := rfl
@[simp] theorem enter_blocks (s : State) (c : Command) (p : Phase) : (s.enter c p).blocks = s.blocks := rfl
@[simp] theorem enter_key (s : State) (c : Command) (p : Phase) : (s.enter c p).key = s.key := rfl
@[simp] theorem enter_nonce (s : State) (c : Command) (p : Phase) : (s.enter c p).nonce = s.nonce := rfl
@[simp] theorem enter_aad (s : State) (c : Command) (p : Phase) : (s.enter c p).aad = s.aad := rfl
@[simp] theorem enter_msgIn (s : State) (c : Command) (p : Phase) : (s.enter c p).msgIn = s.msgIn := rfl
@[simp] theorem enter_tagIn (s : State) (c : Command) (p : Phase) : (s.enter c p).tagIn = s.tagIn := rfl
@[simp] theorem enter_msgOut (s : State) (c : Command) (p : Phase) : (s.enter c p).msgOut = s.msgOut := rfl
@[simp] theorem enter_tagOut (s : State) (c : Command) (p : Phase) : (s.enter c p).tagOut = s.tagOut := rfl
@[simp] theorem enter_phase (s : State) (c : Command) (p : Phase) : (s.enter c p).phase = p := rfl
@[simp] theorem enter_bInput (s : State) (c : Command) (p : Phase) : (s.enter c p).bInput = s.bInput := rfl
@[simp] theorem enter_cbcOut (s : State) (c : Command) (p : Phase) : (s.enter c p).cbcOut = s.cbcOut := rfl
@[simp] theorem enter_ctrIv (s : State) (c : Command) (p : Phase) : (s.enter c p).ctrIv = s.ctrIv := rfl
@[simp] theorem enter_ctrIn (s : State) (c : Command) (p : Phase) : (s.enter c p).ctrIn = s.ctrIn := rfl
@[simp] theorem enter_ctrOut (s : State) (c : Command) (p : Phase) : (s.enter c p).ctrOut = s.ctrOut := rfl
@[simp] theorem enter_context (s : State) (c : Command) (p : Phase) : (s.enter c p).context = s.context := rfl
@[simp] theorem enter_command (s : State) (c : Command) (p : Phase) : (s.enter c p).command = some c := rfl
@[simp] theorem enter_port (s : State) (c : Command) (p : Phase) : (s.enter c p).port = s.port := rfl
@[simp] theorem enter_inputs (s : State) (c : Command) (p : Phase) : (s.enter c p).inputs = s.inputs := rfl
@[simp] theorem enter_replies (s : State) (c : Command) (p : Phase) : (s.enter c p).replies = s.replies := rfl
@[simp] theorem enter_answers (s : State) (c : Command) (p : Phase) : (s.enter c p).answers = s.answers := rfl
@[simp] theorem enter_issued (s : State) (c : Command) (p : Phase) : (s.enter c p).issued = s.issued := rfl
@[simp] theorem enter_trace (s : State) (c : Command) (p : Phase) : (s.enter c p).trace = s.trace := rfl
@[simp] theorem enter_epoch (s : State) (c : Command) (p : Phase) : (s.enter c p).epoch = s.epoch := rfl
@[simp] theorem enter_keyLength (s : State) (c : Command) (p : Phase) : (s.enter c p).keyLength = s.keyLength := rfl
@[simp] theorem enter_nonceLength (s : State) (c : Command) (p : Phase) : (s.enter c p).nonceLength = s.nonceLength := rfl
@[simp] theorem enter_aadLength (s : State) (c : Command) (p : Phase) : (s.enter c p).aadLength = s.aadLength := rfl
@[simp] theorem enter_msgLength (s : State) (c : Command) (p : Phase) : (s.enter c p).msgLength = s.msgLength := rfl
@[simp] theorem enter_tagLength (s : State) (c : Command) (p : Phase) : (s.enter c p).tagLength = s.tagLength := rfl
@[simp] theorem enter_cbcBlocks (s : State) (c : Command) (p : Phase) : (s.enter c p).cbcBlocks = s.cbcBlocks := rfl
@[simp] theorem enter_ctrBlocks (s : State) (c : Command) (p : Phase) : (s.enter c p).ctrBlocks = s.ctrBlocks := rfl
@[simp] theorem enter_keyOperand (P : Params) (s : State) (c : Command) (p : Phase) : keyOperand P (s.enter c p) = keyOperand P s := rfl
@[simp] theorem enter_nonceOperand (P : Params) (s : State) (c : Command) (p : Phase) : nonceOperand P (s.enter c p) = nonceOperand P s := rfl
@[simp] theorem enter_aadOperand (P : Params) (s : State) (c : Command) (p : Phase) : aadOperand P (s.enter c p) = aadOperand P s := rfl
@[simp] theorem enter_msgOperand (P : Params) (s : State) (c : Command) (p : Phase) : msgOperand P (s.enter c p) = msgOperand P s := rfl
@[simp] theorem enter_tagOperand (P : Params) (s : State) (c : Command) (p : Phase) : tagOperand P (s.enter c p) = tagOperand P s := rfl
@[simp] theorem enter_operand (s : State) (c : Command) (p : Phase) (q : OperandReg) : (s.enter c p).operand q = s.operand q := by cases q <;> rfl
@[simp] theorem enter_buffer (s : State) (c : Command) (p : Phase) (sp : Space) : (s.enter c p).buffer sp = s.buffer sp := by cases sp <;> rfl
@[simp] theorem enter_work (s : State) (c : Command) (p : Phase) (b : WorkBuffer) : (s.enter c p).work b = s.work b := by cases b <;> rfl
@[simp] theorem enter_workBytes (s : State) (c : Command) (p : Phase) (b : WorkBuffer) : (s.enter c p).workBytes b = s.workBytes b := by cases b <;> rfl
@[simp] theorem enter_workSize (s : State) (c : Command) (p : Phase) (b : WorkBuffer) : (s.enter c p).workSize b = s.workSize b := by cases b <;> rfl
@[simp] theorem enter_fits (P : Params) (s : State) (c : Command) (p : Phase) : fits P (s.enter c p) = fits P s := rfl

/-! ## setBlocks -/

@[simp] theorem setBlocks_keyBits (s : State) (n : Nat) : (s.setBlocks n).keyBits = s.keyBits := rfl
@[simp] theorem setBlocks_nonceLen (s : State) (n : Nat) : (s.setBlocks n).nonceLen = s.nonceLen := rfl
@[simp] theorem setBlocks_aadLen (s : State) (n : Nat) : (s.setBlocks n).aadLen = s.aadLen := rfl
@[simp] theorem setBlocks_msgLen (s : State) (n : Nat) : (s.setBlocks n).msgLen = s.msgLen := rfl
@[simp] theorem setBlocks_tagLen (s : State) (n : Nat) : (s.setBlocks n).tagLen = s.tagLen := rfl
@[simp] theorem setBlocks_status (s : State) (n : Nat) : (s.setBlocks n).status = s.status := rfl
@[simp] theorem setBlocks_blocks (s : State) (n : Nat) : (s.setBlocks n).blocks = BitVec.ofNat 32 n := rfl
@[simp] theorem setBlocks_key (s : State) (n : Nat) : (s.setBlocks n).key = s.key := rfl
@[simp] theorem setBlocks_nonce (s : State) (n : Nat) : (s.setBlocks n).nonce = s.nonce := rfl
@[simp] theorem setBlocks_aad (s : State) (n : Nat) : (s.setBlocks n).aad = s.aad := rfl
@[simp] theorem setBlocks_msgIn (s : State) (n : Nat) : (s.setBlocks n).msgIn = s.msgIn := rfl
@[simp] theorem setBlocks_tagIn (s : State) (n : Nat) : (s.setBlocks n).tagIn = s.tagIn := rfl
@[simp] theorem setBlocks_msgOut (s : State) (n : Nat) : (s.setBlocks n).msgOut = s.msgOut := rfl
@[simp] theorem setBlocks_tagOut (s : State) (n : Nat) : (s.setBlocks n).tagOut = s.tagOut := rfl
@[simp] theorem setBlocks_phase (s : State) (n : Nat) : (s.setBlocks n).phase = s.phase := rfl
@[simp] theorem setBlocks_bInput (s : State) (n : Nat) : (s.setBlocks n).bInput = s.bInput := rfl
@[simp] theorem setBlocks_cbcOut (s : State) (n : Nat) : (s.setBlocks n).cbcOut = s.cbcOut := rfl
@[simp] theorem setBlocks_ctrIv (s : State) (n : Nat) : (s.setBlocks n).ctrIv = s.ctrIv := rfl
@[simp] theorem setBlocks_ctrIn (s : State) (n : Nat) : (s.setBlocks n).ctrIn = s.ctrIn := rfl
@[simp] theorem setBlocks_ctrOut (s : State) (n : Nat) : (s.setBlocks n).ctrOut = s.ctrOut := rfl
@[simp] theorem setBlocks_context (s : State) (n : Nat) : (s.setBlocks n).context = s.context := rfl
@[simp] theorem setBlocks_command (s : State) (n : Nat) : (s.setBlocks n).command = s.command := rfl
@[simp] theorem setBlocks_port (s : State) (n : Nat) : (s.setBlocks n).port = s.port := rfl
@[simp] theorem setBlocks_inputs (s : State) (n : Nat) : (s.setBlocks n).inputs = s.inputs := rfl
@[simp] theorem setBlocks_replies (s : State) (n : Nat) : (s.setBlocks n).replies = s.replies := rfl
@[simp] theorem setBlocks_answers (s : State) (n : Nat) : (s.setBlocks n).answers = s.answers := rfl
@[simp] theorem setBlocks_issued (s : State) (n : Nat) : (s.setBlocks n).issued = s.issued := rfl
@[simp] theorem setBlocks_trace (s : State) (n : Nat) : (s.setBlocks n).trace = s.trace := rfl
@[simp] theorem setBlocks_epoch (s : State) (n : Nat) : (s.setBlocks n).epoch = s.epoch := rfl
@[simp] theorem setBlocks_keyLength (s : State) (n : Nat) : (s.setBlocks n).keyLength = s.keyLength := rfl
@[simp] theorem setBlocks_nonceLength (s : State) (n : Nat) : (s.setBlocks n).nonceLength = s.nonceLength := rfl
@[simp] theorem setBlocks_aadLength (s : State) (n : Nat) : (s.setBlocks n).aadLength = s.aadLength := rfl
@[simp] theorem setBlocks_msgLength (s : State) (n : Nat) : (s.setBlocks n).msgLength = s.msgLength := rfl
@[simp] theorem setBlocks_tagLength (s : State) (n : Nat) : (s.setBlocks n).tagLength = s.tagLength := rfl
@[simp] theorem setBlocks_cbcBlocks (s : State) (n : Nat) : (s.setBlocks n).cbcBlocks = s.cbcBlocks := rfl
@[simp] theorem setBlocks_ctrBlocks (s : State) (n : Nat) : (s.setBlocks n).ctrBlocks = s.ctrBlocks := rfl
@[simp] theorem setBlocks_keyOperand (P : Params) (s : State) (n : Nat) : keyOperand P (s.setBlocks n) = keyOperand P s := rfl
@[simp] theorem setBlocks_nonceOperand (P : Params) (s : State) (n : Nat) : nonceOperand P (s.setBlocks n) = nonceOperand P s := rfl
@[simp] theorem setBlocks_aadOperand (P : Params) (s : State) (n : Nat) : aadOperand P (s.setBlocks n) = aadOperand P s := rfl
@[simp] theorem setBlocks_msgOperand (P : Params) (s : State) (n : Nat) : msgOperand P (s.setBlocks n) = msgOperand P s := rfl
@[simp] theorem setBlocks_tagOperand (P : Params) (s : State) (n : Nat) : tagOperand P (s.setBlocks n) = tagOperand P s := rfl
@[simp] theorem setBlocks_operand (s : State) (n : Nat) (q : OperandReg) : (s.setBlocks n).operand q = s.operand q := by cases q <;> rfl
@[simp] theorem setBlocks_buffer (s : State) (n : Nat) (sp : Space) : (s.setBlocks n).buffer sp = s.buffer sp := by cases sp <;> rfl
@[simp] theorem setBlocks_work (s : State) (n : Nat) (b : WorkBuffer) : (s.setBlocks n).work b = s.work b := by cases b <;> rfl
@[simp] theorem setBlocks_workBytes (s : State) (n : Nat) (b : WorkBuffer) : (s.setBlocks n).workBytes b = s.workBytes b := by cases b <;> rfl
@[simp] theorem setBlocks_workSize (s : State) (n : Nat) (b : WorkBuffer) : (s.setBlocks n).workSize b = s.workSize b := by cases b <;> rfl
@[simp] theorem setBlocks_fits (P : Params) (s : State) (n : Nat) : fits P (s.setBlocks n) = fits P s := rfl

/-! ## setResult -/

@[simp] theorem setResult_keyBits (s : State) (r : Result) : (s.setResult r).keyBits = s.keyBits := rfl
@[simp] theorem setResult_nonceLen (s : State) (r : Result) : (s.setResult r).nonceLen = s.nonceLen := rfl
@[simp] theorem setResult_aadLen (s : State) (r : Result) : (s.setResult r).aadLen = s.aadLen := rfl
@[simp] theorem setResult_msgLen (s : State) (r : Result) : (s.setResult r).msgLen = s.msgLen := rfl
@[simp] theorem setResult_tagLen (s : State) (r : Result) : (s.setResult r).tagLen = s.tagLen := rfl
@[simp] theorem setResult_status (s : State) (r : Result) : (s.setResult r).status = withResult s.status r := rfl
@[simp] theorem setResult_blocks (s : State) (r : Result) : (s.setResult r).blocks = s.blocks := rfl
@[simp] theorem setResult_key (s : State) (r : Result) : (s.setResult r).key = s.key := rfl
@[simp] theorem setResult_nonce (s : State) (r : Result) : (s.setResult r).nonce = s.nonce := rfl
@[simp] theorem setResult_aad (s : State) (r : Result) : (s.setResult r).aad = s.aad := rfl
@[simp] theorem setResult_msgIn (s : State) (r : Result) : (s.setResult r).msgIn = s.msgIn := rfl
@[simp] theorem setResult_tagIn (s : State) (r : Result) : (s.setResult r).tagIn = s.tagIn := rfl
@[simp] theorem setResult_msgOut (s : State) (r : Result) : (s.setResult r).msgOut = s.msgOut := rfl
@[simp] theorem setResult_tagOut (s : State) (r : Result) : (s.setResult r).tagOut = s.tagOut := rfl
@[simp] theorem setResult_phase (s : State) (r : Result) : (s.setResult r).phase = s.phase := rfl
@[simp] theorem setResult_bInput (s : State) (r : Result) : (s.setResult r).bInput = s.bInput := rfl
@[simp] theorem setResult_cbcOut (s : State) (r : Result) : (s.setResult r).cbcOut = s.cbcOut := rfl
@[simp] theorem setResult_ctrIv (s : State) (r : Result) : (s.setResult r).ctrIv = s.ctrIv := rfl
@[simp] theorem setResult_ctrIn (s : State) (r : Result) : (s.setResult r).ctrIn = s.ctrIn := rfl
@[simp] theorem setResult_ctrOut (s : State) (r : Result) : (s.setResult r).ctrOut = s.ctrOut := rfl
@[simp] theorem setResult_context (s : State) (r : Result) : (s.setResult r).context = s.context := rfl
@[simp] theorem setResult_command (s : State) (r : Result) : (s.setResult r).command = s.command := rfl
@[simp] theorem setResult_port (s : State) (r : Result) : (s.setResult r).port = s.port := rfl
@[simp] theorem setResult_inputs (s : State) (r : Result) : (s.setResult r).inputs = s.inputs := rfl
@[simp] theorem setResult_replies (s : State) (r : Result) : (s.setResult r).replies = s.replies := rfl
@[simp] theorem setResult_answers (s : State) (r : Result) : (s.setResult r).answers = s.answers := rfl
@[simp] theorem setResult_issued (s : State) (r : Result) : (s.setResult r).issued = s.issued := rfl
@[simp] theorem setResult_trace (s : State) (r : Result) : (s.setResult r).trace = s.trace := rfl
@[simp] theorem setResult_epoch (s : State) (r : Result) : (s.setResult r).epoch = s.epoch := rfl
@[simp] theorem setResult_keyLength (s : State) (r : Result) : (s.setResult r).keyLength = s.keyLength := rfl
@[simp] theorem setResult_nonceLength (s : State) (r : Result) : (s.setResult r).nonceLength = s.nonceLength := rfl
@[simp] theorem setResult_aadLength (s : State) (r : Result) : (s.setResult r).aadLength = s.aadLength := rfl
@[simp] theorem setResult_msgLength (s : State) (r : Result) : (s.setResult r).msgLength = s.msgLength := rfl
@[simp] theorem setResult_tagLength (s : State) (r : Result) : (s.setResult r).tagLength = s.tagLength := rfl
@[simp] theorem setResult_cbcBlocks (s : State) (r : Result) : (s.setResult r).cbcBlocks = s.cbcBlocks := rfl
@[simp] theorem setResult_ctrBlocks (s : State) (r : Result) : (s.setResult r).ctrBlocks = s.ctrBlocks := rfl
@[simp] theorem setResult_keyOperand (P : Params) (s : State) (r : Result) : keyOperand P (s.setResult r) = keyOperand P s := rfl
@[simp] theorem setResult_nonceOperand (P : Params) (s : State) (r : Result) : nonceOperand P (s.setResult r) = nonceOperand P s := rfl
@[simp] theorem setResult_aadOperand (P : Params) (s : State) (r : Result) : aadOperand P (s.setResult r) = aadOperand P s := rfl
@[simp] theorem setResult_msgOperand (P : Params) (s : State) (r : Result) : msgOperand P (s.setResult r) = msgOperand P s := rfl
@[simp] theorem setResult_tagOperand (P : Params) (s : State) (r : Result) : tagOperand P (s.setResult r) = tagOperand P s := rfl
@[simp] theorem setResult_operand (s : State) (r : Result) (q : OperandReg) : (s.setResult r).operand q = s.operand q := by cases q <;> rfl
@[simp] theorem setResult_buffer (s : State) (r : Result) (sp : Space) : (s.setResult r).buffer sp = s.buffer sp := by cases sp <;> rfl
@[simp] theorem setResult_work (s : State) (r : Result) (b : WorkBuffer) : (s.setResult r).work b = s.work b := by cases b <;> rfl
@[simp] theorem setResult_workBytes (s : State) (r : Result) (b : WorkBuffer) : (s.setResult r).workBytes b = s.workBytes b := by cases b <;> rfl
@[simp] theorem setResult_workSize (s : State) (r : Result) (b : WorkBuffer) : (s.setResult r).workSize b = s.workSize b := by cases b <;> rfl
@[simp] theorem setResult_fits (P : Params) (s : State) (r : Result) : fits P (s.setResult r) = fits P s := rfl

/-! ## setDone -/

@[simp] theorem setDone_keyBits (s : State) : (s.setDone).keyBits = s.keyBits := rfl
@[simp] theorem setDone_nonceLen (s : State) : (s.setDone).nonceLen = s.nonceLen := rfl
@[simp] theorem setDone_aadLen (s : State) : (s.setDone).aadLen = s.aadLen := rfl
@[simp] theorem setDone_msgLen (s : State) : (s.setDone).msgLen = s.msgLen := rfl
@[simp] theorem setDone_tagLen (s : State) : (s.setDone).tagLen = s.tagLen := rfl
@[simp] theorem setDone_status (s : State) : (s.setDone).status = withDone s.status := rfl
@[simp] theorem setDone_blocks (s : State) : (s.setDone).blocks = s.blocks := rfl
@[simp] theorem setDone_key (s : State) : (s.setDone).key = s.key := rfl
@[simp] theorem setDone_nonce (s : State) : (s.setDone).nonce = s.nonce := rfl
@[simp] theorem setDone_aad (s : State) : (s.setDone).aad = s.aad := rfl
@[simp] theorem setDone_msgIn (s : State) : (s.setDone).msgIn = s.msgIn := rfl
@[simp] theorem setDone_tagIn (s : State) : (s.setDone).tagIn = s.tagIn := rfl
@[simp] theorem setDone_msgOut (s : State) : (s.setDone).msgOut = s.msgOut := rfl
@[simp] theorem setDone_tagOut (s : State) : (s.setDone).tagOut = s.tagOut := rfl
@[simp] theorem setDone_phase (s : State) : (s.setDone).phase = s.phase := rfl
@[simp] theorem setDone_bInput (s : State) : (s.setDone).bInput = s.bInput := rfl
@[simp] theorem setDone_cbcOut (s : State) : (s.setDone).cbcOut = s.cbcOut := rfl
@[simp] theorem setDone_ctrIv (s : State) : (s.setDone).ctrIv = s.ctrIv := rfl
@[simp] theorem setDone_ctrIn (s : State) : (s.setDone).ctrIn = s.ctrIn := rfl
@[simp] theorem setDone_ctrOut (s : State) : (s.setDone).ctrOut = s.ctrOut := rfl
@[simp] theorem setDone_context (s : State) : (s.setDone).context = s.context := rfl
@[simp] theorem setDone_command (s : State) : (s.setDone).command = s.command := rfl
@[simp] theorem setDone_port (s : State) : (s.setDone).port = s.port := rfl
@[simp] theorem setDone_inputs (s : State) : (s.setDone).inputs = s.inputs := rfl
@[simp] theorem setDone_replies (s : State) : (s.setDone).replies = s.replies := rfl
@[simp] theorem setDone_answers (s : State) : (s.setDone).answers = s.answers := rfl
@[simp] theorem setDone_issued (s : State) : (s.setDone).issued = s.issued := rfl
@[simp] theorem setDone_trace (s : State) : (s.setDone).trace = s.trace := rfl
@[simp] theorem setDone_epoch (s : State) : (s.setDone).epoch = s.epoch := rfl
@[simp] theorem setDone_keyLength (s : State) : (s.setDone).keyLength = s.keyLength := rfl
@[simp] theorem setDone_nonceLength (s : State) : (s.setDone).nonceLength = s.nonceLength := rfl
@[simp] theorem setDone_aadLength (s : State) : (s.setDone).aadLength = s.aadLength := rfl
@[simp] theorem setDone_msgLength (s : State) : (s.setDone).msgLength = s.msgLength := rfl
@[simp] theorem setDone_tagLength (s : State) : (s.setDone).tagLength = s.tagLength := rfl
@[simp] theorem setDone_cbcBlocks (s : State) : (s.setDone).cbcBlocks = s.cbcBlocks := rfl
@[simp] theorem setDone_ctrBlocks (s : State) : (s.setDone).ctrBlocks = s.ctrBlocks := rfl
@[simp] theorem setDone_keyOperand (P : Params) (s : State) : keyOperand P (s.setDone) = keyOperand P s := rfl
@[simp] theorem setDone_nonceOperand (P : Params) (s : State) : nonceOperand P (s.setDone) = nonceOperand P s := rfl
@[simp] theorem setDone_aadOperand (P : Params) (s : State) : aadOperand P (s.setDone) = aadOperand P s := rfl
@[simp] theorem setDone_msgOperand (P : Params) (s : State) : msgOperand P (s.setDone) = msgOperand P s := rfl
@[simp] theorem setDone_tagOperand (P : Params) (s : State) : tagOperand P (s.setDone) = tagOperand P s := rfl
@[simp] theorem setDone_operand (s : State) (q : OperandReg) : (s.setDone).operand q = s.operand q := by cases q <;> rfl
@[simp] theorem setDone_buffer (s : State) (sp : Space) : (s.setDone).buffer sp = s.buffer sp := by cases sp <;> rfl
@[simp] theorem setDone_work (s : State) (b : WorkBuffer) : (s.setDone).work b = s.work b := by cases b <;> rfl
@[simp] theorem setDone_workBytes (s : State) (b : WorkBuffer) : (s.setDone).workBytes b = s.workBytes b := by cases b <;> rfl
@[simp] theorem setDone_workSize (s : State) (b : WorkBuffer) : (s.setDone).workSize b = s.workSize b := by cases b <;> rfl
@[simp] theorem setDone_fits (P : Params) (s : State) : fits P (s.setDone) = fits P s := rfl

/-! ## clearOutputs -/

@[simp] theorem clearOutputs_keyBits (s : State) : (s.clearOutputs).keyBits = s.keyBits := rfl
@[simp] theorem clearOutputs_nonceLen (s : State) : (s.clearOutputs).nonceLen = s.nonceLen := rfl
@[simp] theorem clearOutputs_aadLen (s : State) : (s.clearOutputs).aadLen = s.aadLen := rfl
@[simp] theorem clearOutputs_msgLen (s : State) : (s.clearOutputs).msgLen = s.msgLen := rfl
@[simp] theorem clearOutputs_tagLen (s : State) : (s.clearOutputs).tagLen = s.tagLen := rfl
@[simp] theorem clearOutputs_status (s : State) : (s.clearOutputs).status = s.status := rfl
@[simp] theorem clearOutputs_blocks (s : State) : (s.clearOutputs).blocks = s.blocks := rfl
@[simp] theorem clearOutputs_key (s : State) : (s.clearOutputs).key = s.key := rfl
@[simp] theorem clearOutputs_nonce (s : State) : (s.clearOutputs).nonce = s.nonce := rfl
@[simp] theorem clearOutputs_aad (s : State) : (s.clearOutputs).aad = s.aad := rfl
@[simp] theorem clearOutputs_msgIn (s : State) : (s.clearOutputs).msgIn = s.msgIn := rfl
@[simp] theorem clearOutputs_tagIn (s : State) : (s.clearOutputs).tagIn = s.tagIn := rfl
@[simp] theorem clearOutputs_msgOut (s : State) : (s.clearOutputs).msgOut = [] := rfl
@[simp] theorem clearOutputs_tagOut (s : State) : (s.clearOutputs).tagOut = [] := rfl
@[simp] theorem clearOutputs_phase (s : State) : (s.clearOutputs).phase = s.phase := rfl
@[simp] theorem clearOutputs_bInput (s : State) : (s.clearOutputs).bInput = s.bInput := rfl
@[simp] theorem clearOutputs_cbcOut (s : State) : (s.clearOutputs).cbcOut = s.cbcOut := rfl
@[simp] theorem clearOutputs_ctrIv (s : State) : (s.clearOutputs).ctrIv = s.ctrIv := rfl
@[simp] theorem clearOutputs_ctrIn (s : State) : (s.clearOutputs).ctrIn = s.ctrIn := rfl
@[simp] theorem clearOutputs_ctrOut (s : State) : (s.clearOutputs).ctrOut = s.ctrOut := rfl
@[simp] theorem clearOutputs_context (s : State) : (s.clearOutputs).context = s.context := rfl
@[simp] theorem clearOutputs_command (s : State) : (s.clearOutputs).command = s.command := rfl
@[simp] theorem clearOutputs_port (s : State) : (s.clearOutputs).port = s.port := rfl
@[simp] theorem clearOutputs_inputs (s : State) : (s.clearOutputs).inputs = s.inputs := rfl
@[simp] theorem clearOutputs_replies (s : State) : (s.clearOutputs).replies = s.replies := rfl
@[simp] theorem clearOutputs_answers (s : State) : (s.clearOutputs).answers = s.answers := rfl
@[simp] theorem clearOutputs_issued (s : State) : (s.clearOutputs).issued = s.issued := rfl
@[simp] theorem clearOutputs_trace (s : State) : (s.clearOutputs).trace = s.trace := rfl
@[simp] theorem clearOutputs_epoch (s : State) : (s.clearOutputs).epoch = s.epoch := rfl
@[simp] theorem clearOutputs_keyLength (s : State) : (s.clearOutputs).keyLength = s.keyLength := rfl
@[simp] theorem clearOutputs_nonceLength (s : State) : (s.clearOutputs).nonceLength = s.nonceLength := rfl
@[simp] theorem clearOutputs_aadLength (s : State) : (s.clearOutputs).aadLength = s.aadLength := rfl
@[simp] theorem clearOutputs_msgLength (s : State) : (s.clearOutputs).msgLength = s.msgLength := rfl
@[simp] theorem clearOutputs_tagLength (s : State) : (s.clearOutputs).tagLength = s.tagLength := rfl
@[simp] theorem clearOutputs_cbcBlocks (s : State) : (s.clearOutputs).cbcBlocks = s.cbcBlocks := rfl
@[simp] theorem clearOutputs_ctrBlocks (s : State) : (s.clearOutputs).ctrBlocks = s.ctrBlocks := rfl
@[simp] theorem clearOutputs_keyOperand (P : Params) (s : State) : keyOperand P (s.clearOutputs) = keyOperand P s := rfl
@[simp] theorem clearOutputs_nonceOperand (P : Params) (s : State) : nonceOperand P (s.clearOutputs) = nonceOperand P s := rfl
@[simp] theorem clearOutputs_aadOperand (P : Params) (s : State) : aadOperand P (s.clearOutputs) = aadOperand P s := rfl
@[simp] theorem clearOutputs_msgOperand (P : Params) (s : State) : msgOperand P (s.clearOutputs) = msgOperand P s := rfl
@[simp] theorem clearOutputs_tagOperand (P : Params) (s : State) : tagOperand P (s.clearOutputs) = tagOperand P s := rfl
@[simp] theorem clearOutputs_operand (s : State) (q : OperandReg) : (s.clearOutputs).operand q = s.operand q := by cases q <;> rfl
@[simp] theorem clearOutputs_work (s : State) (b : WorkBuffer) : (s.clearOutputs).work b = s.work b := by cases b <;> rfl
@[simp] theorem clearOutputs_workBytes (s : State) (b : WorkBuffer) : (s.clearOutputs).workBytes b = s.workBytes b := by cases b <;> rfl
@[simp] theorem clearOutputs_workSize (s : State) (b : WorkBuffer) : (s.clearOutputs).workSize b = s.workSize b := by cases b <;> rfl
@[simp] theorem clearOutputs_fits (P : Params) (s : State) : fits P (s.clearOutputs) = fits P s := rfl

/-! ## discardWork -/

@[simp] theorem discardWork_keyBits (s : State) : (s.discardWork).keyBits = s.keyBits := rfl
@[simp] theorem discardWork_nonceLen (s : State) : (s.discardWork).nonceLen = s.nonceLen := rfl
@[simp] theorem discardWork_aadLen (s : State) : (s.discardWork).aadLen = s.aadLen := rfl
@[simp] theorem discardWork_msgLen (s : State) : (s.discardWork).msgLen = s.msgLen := rfl
@[simp] theorem discardWork_tagLen (s : State) : (s.discardWork).tagLen = s.tagLen := rfl
@[simp] theorem discardWork_status (s : State) : (s.discardWork).status = s.status := rfl
@[simp] theorem discardWork_blocks (s : State) : (s.discardWork).blocks = s.blocks := rfl
@[simp] theorem discardWork_key (s : State) : (s.discardWork).key = s.key := rfl
@[simp] theorem discardWork_nonce (s : State) : (s.discardWork).nonce = s.nonce := rfl
@[simp] theorem discardWork_aad (s : State) : (s.discardWork).aad = s.aad := rfl
@[simp] theorem discardWork_msgIn (s : State) : (s.discardWork).msgIn = s.msgIn := rfl
@[simp] theorem discardWork_tagIn (s : State) : (s.discardWork).tagIn = s.tagIn := rfl
@[simp] theorem discardWork_msgOut (s : State) : (s.discardWork).msgOut = s.msgOut := rfl
@[simp] theorem discardWork_tagOut (s : State) : (s.discardWork).tagOut = s.tagOut := rfl
@[simp] theorem discardWork_phase (s : State) : (s.discardWork).phase = s.phase := rfl
@[simp] theorem discardWork_bInput (s : State) : (s.discardWork).bInput = none := rfl
@[simp] theorem discardWork_cbcOut (s : State) : (s.discardWork).cbcOut = none := rfl
@[simp] theorem discardWork_ctrIv (s : State) : (s.discardWork).ctrIv = none := rfl
@[simp] theorem discardWork_ctrIn (s : State) : (s.discardWork).ctrIn = none := rfl
@[simp] theorem discardWork_ctrOut (s : State) : (s.discardWork).ctrOut = none := rfl
@[simp] theorem discardWork_context (s : State) : (s.discardWork).context = s.context := rfl
@[simp] theorem discardWork_command (s : State) : (s.discardWork).command = s.command := rfl
@[simp] theorem discardWork_port (s : State) : (s.discardWork).port = s.port := rfl
@[simp] theorem discardWork_inputs (s : State) : (s.discardWork).inputs = s.inputs := rfl
@[simp] theorem discardWork_replies (s : State) : (s.discardWork).replies = s.replies := rfl
@[simp] theorem discardWork_answers (s : State) : (s.discardWork).answers = s.answers := rfl
@[simp] theorem discardWork_issued (s : State) : (s.discardWork).issued = s.issued := rfl
@[simp] theorem discardWork_trace (s : State) : (s.discardWork).trace = s.trace := rfl
@[simp] theorem discardWork_epoch (s : State) : (s.discardWork).epoch = s.epoch := rfl
@[simp] theorem discardWork_keyLength (s : State) : (s.discardWork).keyLength = s.keyLength := rfl
@[simp] theorem discardWork_nonceLength (s : State) : (s.discardWork).nonceLength = s.nonceLength := rfl
@[simp] theorem discardWork_aadLength (s : State) : (s.discardWork).aadLength = s.aadLength := rfl
@[simp] theorem discardWork_msgLength (s : State) : (s.discardWork).msgLength = s.msgLength := rfl
@[simp] theorem discardWork_tagLength (s : State) : (s.discardWork).tagLength = s.tagLength := rfl
@[simp] theorem discardWork_cbcBlocks (s : State) : (s.discardWork).cbcBlocks = s.cbcBlocks := rfl
@[simp] theorem discardWork_ctrBlocks (s : State) : (s.discardWork).ctrBlocks = s.ctrBlocks := rfl
@[simp] theorem discardWork_keyOperand (P : Params) (s : State) : keyOperand P (s.discardWork) = keyOperand P s := rfl
@[simp] theorem discardWork_nonceOperand (P : Params) (s : State) : nonceOperand P (s.discardWork) = nonceOperand P s := rfl
@[simp] theorem discardWork_aadOperand (P : Params) (s : State) : aadOperand P (s.discardWork) = aadOperand P s := rfl
@[simp] theorem discardWork_msgOperand (P : Params) (s : State) : msgOperand P (s.discardWork) = msgOperand P s := rfl
@[simp] theorem discardWork_tagOperand (P : Params) (s : State) : tagOperand P (s.discardWork) = tagOperand P s := rfl
@[simp] theorem discardWork_operand (s : State) (q : OperandReg) : (s.discardWork).operand q = s.operand q := by cases q <;> rfl
@[simp] theorem discardWork_buffer (s : State) (sp : Space) : (s.discardWork).buffer sp = s.buffer sp := by cases sp <;> rfl
@[simp] theorem discardWork_workSize (s : State) (b : WorkBuffer) : (s.discardWork).workSize b = s.workSize b := by cases b <;> rfl
@[simp] theorem discardWork_fits (P : Params) (s : State) : fits P (s.discardWork) = fits P s := rfl

/-! ## setContext -/

@[simp] theorem setContext_keyBits (s : State) (ctx : CipherContext) : (s.setContext ctx).keyBits = s.keyBits := rfl
@[simp] theorem setContext_nonceLen (s : State) (ctx : CipherContext) : (s.setContext ctx).nonceLen = s.nonceLen := rfl
@[simp] theorem setContext_aadLen (s : State) (ctx : CipherContext) : (s.setContext ctx).aadLen = s.aadLen := rfl
@[simp] theorem setContext_msgLen (s : State) (ctx : CipherContext) : (s.setContext ctx).msgLen = s.msgLen := rfl
@[simp] theorem setContext_tagLen (s : State) (ctx : CipherContext) : (s.setContext ctx).tagLen = s.tagLen := rfl
@[simp] theorem setContext_status (s : State) (ctx : CipherContext) : (s.setContext ctx).status = s.status := rfl
@[simp] theorem setContext_blocks (s : State) (ctx : CipherContext) : (s.setContext ctx).blocks = s.blocks := rfl
@[simp] theorem setContext_key (s : State) (ctx : CipherContext) : (s.setContext ctx).key = s.key := rfl
@[simp] theorem setContext_nonce (s : State) (ctx : CipherContext) : (s.setContext ctx).nonce = s.nonce := rfl
@[simp] theorem setContext_aad (s : State) (ctx : CipherContext) : (s.setContext ctx).aad = s.aad := rfl
@[simp] theorem setContext_msgIn (s : State) (ctx : CipherContext) : (s.setContext ctx).msgIn = s.msgIn := rfl
@[simp] theorem setContext_tagIn (s : State) (ctx : CipherContext) : (s.setContext ctx).tagIn = s.tagIn := rfl
@[simp] theorem setContext_msgOut (s : State) (ctx : CipherContext) : (s.setContext ctx).msgOut = s.msgOut := rfl
@[simp] theorem setContext_tagOut (s : State) (ctx : CipherContext) : (s.setContext ctx).tagOut = s.tagOut := rfl
@[simp] theorem setContext_phase (s : State) (ctx : CipherContext) : (s.setContext ctx).phase = s.phase := rfl
@[simp] theorem setContext_bInput (s : State) (ctx : CipherContext) : (s.setContext ctx).bInput = s.bInput := rfl
@[simp] theorem setContext_cbcOut (s : State) (ctx : CipherContext) : (s.setContext ctx).cbcOut = s.cbcOut := rfl
@[simp] theorem setContext_ctrIv (s : State) (ctx : CipherContext) : (s.setContext ctx).ctrIv = s.ctrIv := rfl
@[simp] theorem setContext_ctrIn (s : State) (ctx : CipherContext) : (s.setContext ctx).ctrIn = s.ctrIn := rfl
@[simp] theorem setContext_ctrOut (s : State) (ctx : CipherContext) : (s.setContext ctx).ctrOut = s.ctrOut := rfl
@[simp] theorem setContext_context (s : State) (ctx : CipherContext) : (s.setContext ctx).context = ctx := rfl
@[simp] theorem setContext_command (s : State) (ctx : CipherContext) : (s.setContext ctx).command = s.command := rfl
@[simp] theorem setContext_port (s : State) (ctx : CipherContext) : (s.setContext ctx).port = s.port := rfl
@[simp] theorem setContext_inputs (s : State) (ctx : CipherContext) : (s.setContext ctx).inputs = s.inputs := rfl
@[simp] theorem setContext_replies (s : State) (ctx : CipherContext) : (s.setContext ctx).replies = s.replies := rfl
@[simp] theorem setContext_answers (s : State) (ctx : CipherContext) : (s.setContext ctx).answers = s.answers := rfl
@[simp] theorem setContext_issued (s : State) (ctx : CipherContext) : (s.setContext ctx).issued = s.issued := rfl
@[simp] theorem setContext_trace (s : State) (ctx : CipherContext) : (s.setContext ctx).trace = s.trace := rfl
@[simp] theorem setContext_epoch (s : State) (ctx : CipherContext) : (s.setContext ctx).epoch = s.epoch := rfl
@[simp] theorem setContext_keyLength (s : State) (ctx : CipherContext) : (s.setContext ctx).keyLength = s.keyLength := rfl
@[simp] theorem setContext_nonceLength (s : State) (ctx : CipherContext) : (s.setContext ctx).nonceLength = s.nonceLength := rfl
@[simp] theorem setContext_aadLength (s : State) (ctx : CipherContext) : (s.setContext ctx).aadLength = s.aadLength := rfl
@[simp] theorem setContext_msgLength (s : State) (ctx : CipherContext) : (s.setContext ctx).msgLength = s.msgLength := rfl
@[simp] theorem setContext_tagLength (s : State) (ctx : CipherContext) : (s.setContext ctx).tagLength = s.tagLength := rfl
@[simp] theorem setContext_cbcBlocks (s : State) (ctx : CipherContext) : (s.setContext ctx).cbcBlocks = s.cbcBlocks := rfl
@[simp] theorem setContext_ctrBlocks (s : State) (ctx : CipherContext) : (s.setContext ctx).ctrBlocks = s.ctrBlocks := rfl
@[simp] theorem setContext_keyOperand (P : Params) (s : State) (ctx : CipherContext) : keyOperand P (s.setContext ctx) = keyOperand P s := rfl
@[simp] theorem setContext_nonceOperand (P : Params) (s : State) (ctx : CipherContext) : nonceOperand P (s.setContext ctx) = nonceOperand P s := rfl
@[simp] theorem setContext_aadOperand (P : Params) (s : State) (ctx : CipherContext) : aadOperand P (s.setContext ctx) = aadOperand P s := rfl
@[simp] theorem setContext_msgOperand (P : Params) (s : State) (ctx : CipherContext) : msgOperand P (s.setContext ctx) = msgOperand P s := rfl
@[simp] theorem setContext_tagOperand (P : Params) (s : State) (ctx : CipherContext) : tagOperand P (s.setContext ctx) = tagOperand P s := rfl
@[simp] theorem setContext_operand (s : State) (ctx : CipherContext) (q : OperandReg) : (s.setContext ctx).operand q = s.operand q := by cases q <;> rfl
@[simp] theorem setContext_buffer (s : State) (ctx : CipherContext) (sp : Space) : (s.setContext ctx).buffer sp = s.buffer sp := by cases sp <;> rfl
@[simp] theorem setContext_work (s : State) (ctx : CipherContext) (b : WorkBuffer) : (s.setContext ctx).work b = s.work b := by cases b <;> rfl
@[simp] theorem setContext_workBytes (s : State) (ctx : CipherContext) (b : WorkBuffer) : (s.setContext ctx).workBytes b = s.workBytes b := by cases b <;> rfl
@[simp] theorem setContext_workSize (s : State) (ctx : CipherContext) (b : WorkBuffer) : (s.setContext ctx).workSize b = s.workSize b := by cases b <;> rfl
@[simp] theorem setContext_fits (P : Params) (s : State) (ctx : CipherContext) : fits P (s.setContext ctx) = fits P s := rfl

/-! ## record -/

@[simp] theorem record_keyBits (s : State) (e : PortEvent) : (s.record e).keyBits = s.keyBits := rfl
@[simp] theorem record_nonceLen (s : State) (e : PortEvent) : (s.record e).nonceLen = s.nonceLen := rfl
@[simp] theorem record_aadLen (s : State) (e : PortEvent) : (s.record e).aadLen = s.aadLen := rfl
@[simp] theorem record_msgLen (s : State) (e : PortEvent) : (s.record e).msgLen = s.msgLen := rfl
@[simp] theorem record_tagLen (s : State) (e : PortEvent) : (s.record e).tagLen = s.tagLen := rfl
@[simp] theorem record_status (s : State) (e : PortEvent) : (s.record e).status = s.status := rfl
@[simp] theorem record_blocks (s : State) (e : PortEvent) : (s.record e).blocks = s.blocks := rfl
@[simp] theorem record_key (s : State) (e : PortEvent) : (s.record e).key = s.key := rfl
@[simp] theorem record_nonce (s : State) (e : PortEvent) : (s.record e).nonce = s.nonce := rfl
@[simp] theorem record_aad (s : State) (e : PortEvent) : (s.record e).aad = s.aad := rfl
@[simp] theorem record_msgIn (s : State) (e : PortEvent) : (s.record e).msgIn = s.msgIn := rfl
@[simp] theorem record_tagIn (s : State) (e : PortEvent) : (s.record e).tagIn = s.tagIn := rfl
@[simp] theorem record_msgOut (s : State) (e : PortEvent) : (s.record e).msgOut = s.msgOut := rfl
@[simp] theorem record_tagOut (s : State) (e : PortEvent) : (s.record e).tagOut = s.tagOut := rfl
@[simp] theorem record_phase (s : State) (e : PortEvent) : (s.record e).phase = s.phase := rfl
@[simp] theorem record_bInput (s : State) (e : PortEvent) : (s.record e).bInput = s.bInput := rfl
@[simp] theorem record_cbcOut (s : State) (e : PortEvent) : (s.record e).cbcOut = s.cbcOut := rfl
@[simp] theorem record_ctrIv (s : State) (e : PortEvent) : (s.record e).ctrIv = s.ctrIv := rfl
@[simp] theorem record_ctrIn (s : State) (e : PortEvent) : (s.record e).ctrIn = s.ctrIn := rfl
@[simp] theorem record_ctrOut (s : State) (e : PortEvent) : (s.record e).ctrOut = s.ctrOut := rfl
@[simp] theorem record_context (s : State) (e : PortEvent) : (s.record e).context = s.context := rfl
@[simp] theorem record_command (s : State) (e : PortEvent) : (s.record e).command = s.command := rfl
@[simp] theorem record_port (s : State) (e : PortEvent) : (s.record e).port = s.port := rfl
@[simp] theorem record_inputs (s : State) (e : PortEvent) : (s.record e).inputs = s.inputs := rfl
@[simp] theorem record_replies (s : State) (e : PortEvent) : (s.record e).replies = s.replies := rfl
@[simp] theorem record_answers (s : State) (e : PortEvent) : (s.record e).answers = s.answers.tail := rfl
@[simp] theorem record_issued (s : State) (e : PortEvent) : (s.record e).issued = s.issued + 1 := rfl
@[simp] theorem record_trace (s : State) (e : PortEvent) : (s.record e).trace = s.trace ++ [e] := rfl
@[simp] theorem record_epoch (s : State) (e : PortEvent) : (s.record e).epoch = s.epoch := rfl
@[simp] theorem record_keyLength (s : State) (e : PortEvent) : (s.record e).keyLength = s.keyLength := rfl
@[simp] theorem record_nonceLength (s : State) (e : PortEvent) : (s.record e).nonceLength = s.nonceLength := rfl
@[simp] theorem record_aadLength (s : State) (e : PortEvent) : (s.record e).aadLength = s.aadLength := rfl
@[simp] theorem record_msgLength (s : State) (e : PortEvent) : (s.record e).msgLength = s.msgLength := rfl
@[simp] theorem record_tagLength (s : State) (e : PortEvent) : (s.record e).tagLength = s.tagLength := rfl
@[simp] theorem record_cbcBlocks (s : State) (e : PortEvent) : (s.record e).cbcBlocks = s.cbcBlocks := rfl
@[simp] theorem record_ctrBlocks (s : State) (e : PortEvent) : (s.record e).ctrBlocks = s.ctrBlocks := rfl
@[simp] theorem record_keyOperand (P : Params) (s : State) (e : PortEvent) : keyOperand P (s.record e) = keyOperand P s := rfl
@[simp] theorem record_nonceOperand (P : Params) (s : State) (e : PortEvent) : nonceOperand P (s.record e) = nonceOperand P s := rfl
@[simp] theorem record_aadOperand (P : Params) (s : State) (e : PortEvent) : aadOperand P (s.record e) = aadOperand P s := rfl
@[simp] theorem record_msgOperand (P : Params) (s : State) (e : PortEvent) : msgOperand P (s.record e) = msgOperand P s := rfl
@[simp] theorem record_tagOperand (P : Params) (s : State) (e : PortEvent) : tagOperand P (s.record e) = tagOperand P s := rfl
@[simp] theorem record_operand (s : State) (e : PortEvent) (q : OperandReg) : (s.record e).operand q = s.operand q := by cases q <;> rfl
@[simp] theorem record_buffer (s : State) (e : PortEvent) (sp : Space) : (s.record e).buffer sp = s.buffer sp := by cases sp <;> rfl
@[simp] theorem record_work (s : State) (e : PortEvent) (b : WorkBuffer) : (s.record e).work b = s.work b := by cases b <;> rfl
@[simp] theorem record_workBytes (s : State) (e : PortEvent) (b : WorkBuffer) : (s.record e).workBytes b = s.workBytes b := by cases b <;> rfl
@[simp] theorem record_workSize (s : State) (e : PortEvent) (b : WorkBuffer) : (s.record e).workSize b = s.workSize b := by cases b <;> rfl
@[simp] theorem record_fits (P : Params) (s : State) (e : PortEvent) : fits P (s.record e) = fits P s := rfl

/-! ## reply -/

@[simp] theorem reply_keyBits (s : State) (r : Reply) : (s.reply r).keyBits = s.keyBits := rfl
@[simp] theorem reply_nonceLen (s : State) (r : Reply) : (s.reply r).nonceLen = s.nonceLen := rfl
@[simp] theorem reply_aadLen (s : State) (r : Reply) : (s.reply r).aadLen = s.aadLen := rfl
@[simp] theorem reply_msgLen (s : State) (r : Reply) : (s.reply r).msgLen = s.msgLen := rfl
@[simp] theorem reply_tagLen (s : State) (r : Reply) : (s.reply r).tagLen = s.tagLen := rfl
@[simp] theorem reply_status (s : State) (r : Reply) : (s.reply r).status = s.status := rfl
@[simp] theorem reply_blocks (s : State) (r : Reply) : (s.reply r).blocks = s.blocks := rfl
@[simp] theorem reply_key (s : State) (r : Reply) : (s.reply r).key = s.key := rfl
@[simp] theorem reply_nonce (s : State) (r : Reply) : (s.reply r).nonce = s.nonce := rfl
@[simp] theorem reply_aad (s : State) (r : Reply) : (s.reply r).aad = s.aad := rfl
@[simp] theorem reply_msgIn (s : State) (r : Reply) : (s.reply r).msgIn = s.msgIn := rfl
@[simp] theorem reply_tagIn (s : State) (r : Reply) : (s.reply r).tagIn = s.tagIn := rfl
@[simp] theorem reply_msgOut (s : State) (r : Reply) : (s.reply r).msgOut = s.msgOut := rfl
@[simp] theorem reply_tagOut (s : State) (r : Reply) : (s.reply r).tagOut = s.tagOut := rfl
@[simp] theorem reply_phase (s : State) (r : Reply) : (s.reply r).phase = s.phase := rfl
@[simp] theorem reply_bInput (s : State) (r : Reply) : (s.reply r).bInput = s.bInput := rfl
@[simp] theorem reply_cbcOut (s : State) (r : Reply) : (s.reply r).cbcOut = s.cbcOut := rfl
@[simp] theorem reply_ctrIv (s : State) (r : Reply) : (s.reply r).ctrIv = s.ctrIv := rfl
@[simp] theorem reply_ctrIn (s : State) (r : Reply) : (s.reply r).ctrIn = s.ctrIn := rfl
@[simp] theorem reply_ctrOut (s : State) (r : Reply) : (s.reply r).ctrOut = s.ctrOut := rfl
@[simp] theorem reply_context (s : State) (r : Reply) : (s.reply r).context = s.context := rfl
@[simp] theorem reply_command (s : State) (r : Reply) : (s.reply r).command = s.command := rfl
@[simp] theorem reply_port (s : State) (r : Reply) : (s.reply r).port = s.port := rfl
@[simp] theorem reply_inputs (s : State) (r : Reply) : (s.reply r).inputs = s.inputs := rfl
@[simp] theorem reply_replies (s : State) (r : Reply) : (s.reply r).replies = s.replies ++ [r] := rfl
@[simp] theorem reply_answers (s : State) (r : Reply) : (s.reply r).answers = s.answers := rfl
@[simp] theorem reply_issued (s : State) (r : Reply) : (s.reply r).issued = s.issued := rfl
@[simp] theorem reply_trace (s : State) (r : Reply) : (s.reply r).trace = s.trace := rfl
@[simp] theorem reply_epoch (s : State) (r : Reply) : (s.reply r).epoch = s.epoch := rfl
@[simp] theorem reply_keyLength (s : State) (r : Reply) : (s.reply r).keyLength = s.keyLength := rfl
@[simp] theorem reply_nonceLength (s : State) (r : Reply) : (s.reply r).nonceLength = s.nonceLength := rfl
@[simp] theorem reply_aadLength (s : State) (r : Reply) : (s.reply r).aadLength = s.aadLength := rfl
@[simp] theorem reply_msgLength (s : State) (r : Reply) : (s.reply r).msgLength = s.msgLength := rfl
@[simp] theorem reply_tagLength (s : State) (r : Reply) : (s.reply r).tagLength = s.tagLength := rfl
@[simp] theorem reply_cbcBlocks (s : State) (r : Reply) : (s.reply r).cbcBlocks = s.cbcBlocks := rfl
@[simp] theorem reply_ctrBlocks (s : State) (r : Reply) : (s.reply r).ctrBlocks = s.ctrBlocks := rfl
@[simp] theorem reply_keyOperand (P : Params) (s : State) (r : Reply) : keyOperand P (s.reply r) = keyOperand P s := rfl
@[simp] theorem reply_nonceOperand (P : Params) (s : State) (r : Reply) : nonceOperand P (s.reply r) = nonceOperand P s := rfl
@[simp] theorem reply_aadOperand (P : Params) (s : State) (r : Reply) : aadOperand P (s.reply r) = aadOperand P s := rfl
@[simp] theorem reply_msgOperand (P : Params) (s : State) (r : Reply) : msgOperand P (s.reply r) = msgOperand P s := rfl
@[simp] theorem reply_tagOperand (P : Params) (s : State) (r : Reply) : tagOperand P (s.reply r) = tagOperand P s := rfl
@[simp] theorem reply_operand (s : State) (r : Reply) (q : OperandReg) : (s.reply r).operand q = s.operand q := by cases q <;> rfl
@[simp] theorem reply_buffer (s : State) (r : Reply) (sp : Space) : (s.reply r).buffer sp = s.buffer sp := by cases sp <;> rfl
@[simp] theorem reply_work (s : State) (r : Reply) (b : WorkBuffer) : (s.reply r).work b = s.work b := by cases b <;> rfl
@[simp] theorem reply_workBytes (s : State) (r : Reply) (b : WorkBuffer) : (s.reply r).workBytes b = s.workBytes b := by cases b <;> rfl
@[simp] theorem reply_workSize (s : State) (r : Reply) (b : WorkBuffer) : (s.reply r).workSize b = s.workSize b := by cases b <;> rfl
@[simp] theorem reply_fits (P : Params) (s : State) (r : Reply) : fits P (s.reply r) = fits P s := rfl

/-! ## setWork -/

@[simp] theorem setWork_keyBits (s : State) (b : WorkBuffer) (bytes : Bytes) : (s.setWork b bytes).keyBits = s.keyBits := by cases b <;> rfl
@[simp] theorem setWork_nonceLen (s : State) (b : WorkBuffer) (bytes : Bytes) : (s.setWork b bytes).nonceLen = s.nonceLen := by cases b <;> rfl
@[simp] theorem setWork_aadLen (s : State) (b : WorkBuffer) (bytes : Bytes) : (s.setWork b bytes).aadLen = s.aadLen := by cases b <;> rfl
@[simp] theorem setWork_msgLen (s : State) (b : WorkBuffer) (bytes : Bytes) : (s.setWork b bytes).msgLen = s.msgLen := by cases b <;> rfl
@[simp] theorem setWork_tagLen (s : State) (b : WorkBuffer) (bytes : Bytes) : (s.setWork b bytes).tagLen = s.tagLen := by cases b <;> rfl
@[simp] theorem setWork_status (s : State) (b : WorkBuffer) (bytes : Bytes) : (s.setWork b bytes).status = s.status := by cases b <;> rfl
@[simp] theorem setWork_blocks (s : State) (b : WorkBuffer) (bytes : Bytes) : (s.setWork b bytes).blocks = s.blocks := by cases b <;> rfl
@[simp] theorem setWork_key (s : State) (b : WorkBuffer) (bytes : Bytes) : (s.setWork b bytes).key = s.key := by cases b <;> rfl
@[simp] theorem setWork_nonce (s : State) (b : WorkBuffer) (bytes : Bytes) : (s.setWork b bytes).nonce = s.nonce := by cases b <;> rfl
@[simp] theorem setWork_aad (s : State) (b : WorkBuffer) (bytes : Bytes) : (s.setWork b bytes).aad = s.aad := by cases b <;> rfl
@[simp] theorem setWork_msgIn (s : State) (b : WorkBuffer) (bytes : Bytes) : (s.setWork b bytes).msgIn = s.msgIn := by cases b <;> rfl
@[simp] theorem setWork_tagIn (s : State) (b : WorkBuffer) (bytes : Bytes) : (s.setWork b bytes).tagIn = s.tagIn := by cases b <;> rfl
@[simp] theorem setWork_msgOut (s : State) (b : WorkBuffer) (bytes : Bytes) : (s.setWork b bytes).msgOut = s.msgOut := by cases b <;> rfl
@[simp] theorem setWork_tagOut (s : State) (b : WorkBuffer) (bytes : Bytes) : (s.setWork b bytes).tagOut = s.tagOut := by cases b <;> rfl
@[simp] theorem setWork_phase (s : State) (b : WorkBuffer) (bytes : Bytes) : (s.setWork b bytes).phase = s.phase := by cases b <;> rfl
@[simp] theorem setWork_context (s : State) (b : WorkBuffer) (bytes : Bytes) : (s.setWork b bytes).context = s.context := by cases b <;> rfl
@[simp] theorem setWork_command (s : State) (b : WorkBuffer) (bytes : Bytes) : (s.setWork b bytes).command = s.command := by cases b <;> rfl
@[simp] theorem setWork_port (s : State) (b : WorkBuffer) (bytes : Bytes) : (s.setWork b bytes).port = s.port := by cases b <;> rfl
@[simp] theorem setWork_inputs (s : State) (b : WorkBuffer) (bytes : Bytes) : (s.setWork b bytes).inputs = s.inputs := by cases b <;> rfl
@[simp] theorem setWork_replies (s : State) (b : WorkBuffer) (bytes : Bytes) : (s.setWork b bytes).replies = s.replies := by cases b <;> rfl
@[simp] theorem setWork_answers (s : State) (b : WorkBuffer) (bytes : Bytes) : (s.setWork b bytes).answers = s.answers := by cases b <;> rfl
@[simp] theorem setWork_issued (s : State) (b : WorkBuffer) (bytes : Bytes) : (s.setWork b bytes).issued = s.issued := by cases b <;> rfl
@[simp] theorem setWork_trace (s : State) (b : WorkBuffer) (bytes : Bytes) : (s.setWork b bytes).trace = s.trace := by cases b <;> rfl
@[simp] theorem setWork_epoch (s : State) (b : WorkBuffer) (bytes : Bytes) : (s.setWork b bytes).epoch = s.epoch := by cases b <;> rfl
@[simp] theorem setWork_keyLength (s : State) (b : WorkBuffer) (bytes : Bytes) : (s.setWork b bytes).keyLength = s.keyLength := by cases b <;> rfl
@[simp] theorem setWork_nonceLength (s : State) (b : WorkBuffer) (bytes : Bytes) : (s.setWork b bytes).nonceLength = s.nonceLength := by cases b <;> rfl
@[simp] theorem setWork_aadLength (s : State) (b : WorkBuffer) (bytes : Bytes) : (s.setWork b bytes).aadLength = s.aadLength := by cases b <;> rfl
@[simp] theorem setWork_msgLength (s : State) (b : WorkBuffer) (bytes : Bytes) : (s.setWork b bytes).msgLength = s.msgLength := by cases b <;> rfl
@[simp] theorem setWork_tagLength (s : State) (b : WorkBuffer) (bytes : Bytes) : (s.setWork b bytes).tagLength = s.tagLength := by cases b <;> rfl
@[simp] theorem setWork_cbcBlocks (s : State) (b : WorkBuffer) (bytes : Bytes) : (s.setWork b bytes).cbcBlocks = s.cbcBlocks := by cases b <;> rfl
@[simp] theorem setWork_ctrBlocks (s : State) (b : WorkBuffer) (bytes : Bytes) : (s.setWork b bytes).ctrBlocks = s.ctrBlocks := by cases b <;> rfl
@[simp] theorem setWork_keyOperand (P : Params) (s : State) (b : WorkBuffer) (bytes : Bytes) : keyOperand P (s.setWork b bytes) = keyOperand P s := by cases b <;> rfl
@[simp] theorem setWork_nonceOperand (P : Params) (s : State) (b : WorkBuffer) (bytes : Bytes) : nonceOperand P (s.setWork b bytes) = nonceOperand P s := by cases b <;> rfl
@[simp] theorem setWork_aadOperand (P : Params) (s : State) (b : WorkBuffer) (bytes : Bytes) : aadOperand P (s.setWork b bytes) = aadOperand P s := by cases b <;> rfl
@[simp] theorem setWork_msgOperand (P : Params) (s : State) (b : WorkBuffer) (bytes : Bytes) : msgOperand P (s.setWork b bytes) = msgOperand P s := by cases b <;> rfl
@[simp] theorem setWork_tagOperand (P : Params) (s : State) (b : WorkBuffer) (bytes : Bytes) : tagOperand P (s.setWork b bytes) = tagOperand P s := by cases b <;> rfl
@[simp] theorem setWork_operand (s : State) (b : WorkBuffer) (bytes : Bytes) (r : OperandReg) : (s.setWork b bytes).operand r = s.operand r := by cases b <;> cases r <;> rfl
@[simp] theorem setWork_buffer (s : State) (b : WorkBuffer) (bytes : Bytes) (sp : Space) : (s.setWork b bytes).buffer sp = s.buffer sp := by cases b <;> cases sp <;> rfl
@[simp] theorem setWork_work (s : State) (b : WorkBuffer) (bytes : Bytes) (c : WorkBuffer) :
    (s.setWork b bytes).work c = if c = b then some bytes else s.work c := by cases b <;> cases c <;> rfl
@[simp] theorem setWork_workBytes (s : State) (b : WorkBuffer) (bytes : Bytes) (c : WorkBuffer) :
    (s.setWork b bytes).workBytes c = if c = b then bytes else s.workBytes c := by cases b <;> cases c <;> rfl
@[simp] theorem setWork_workSize (s : State) (b : WorkBuffer) (bytes : Bytes) (c : WorkBuffer) : (s.setWork b bytes).workSize c = s.workSize c := by cases b <;> cases c <;> rfl
@[simp] theorem setWork_fits (P : Params) (s : State) (b : WorkBuffer) (bytes : Bytes) : fits P (s.setWork b bytes) = fits P s := by cases b <;> rfl

/-! ## setBuffer -/

@[simp] theorem setBuffer_keyBits (s : State) (sp : Space) (m : List Host.Cell) : (s.setBuffer sp m).keyBits = s.keyBits := by cases sp <;> rfl
@[simp] theorem setBuffer_nonceLen (s : State) (sp : Space) (m : List Host.Cell) : (s.setBuffer sp m).nonceLen = s.nonceLen := by cases sp <;> rfl
@[simp] theorem setBuffer_aadLen (s : State) (sp : Space) (m : List Host.Cell) : (s.setBuffer sp m).aadLen = s.aadLen := by cases sp <;> rfl
@[simp] theorem setBuffer_msgLen (s : State) (sp : Space) (m : List Host.Cell) : (s.setBuffer sp m).msgLen = s.msgLen := by cases sp <;> rfl
@[simp] theorem setBuffer_tagLen (s : State) (sp : Space) (m : List Host.Cell) : (s.setBuffer sp m).tagLen = s.tagLen := by cases sp <;> rfl
@[simp] theorem setBuffer_status (s : State) (sp : Space) (m : List Host.Cell) : (s.setBuffer sp m).status = s.status := by cases sp <;> rfl
@[simp] theorem setBuffer_blocks (s : State) (sp : Space) (m : List Host.Cell) : (s.setBuffer sp m).blocks = s.blocks := by cases sp <;> rfl
@[simp] theorem setBuffer_phase (s : State) (sp : Space) (m : List Host.Cell) : (s.setBuffer sp m).phase = s.phase := by cases sp <;> rfl
@[simp] theorem setBuffer_bInput (s : State) (sp : Space) (m : List Host.Cell) : (s.setBuffer sp m).bInput = s.bInput := by cases sp <;> rfl
@[simp] theorem setBuffer_cbcOut (s : State) (sp : Space) (m : List Host.Cell) : (s.setBuffer sp m).cbcOut = s.cbcOut := by cases sp <;> rfl
@[simp] theorem setBuffer_ctrIv (s : State) (sp : Space) (m : List Host.Cell) : (s.setBuffer sp m).ctrIv = s.ctrIv := by cases sp <;> rfl
@[simp] theorem setBuffer_ctrIn (s : State) (sp : Space) (m : List Host.Cell) : (s.setBuffer sp m).ctrIn = s.ctrIn := by cases sp <;> rfl
@[simp] theorem setBuffer_ctrOut (s : State) (sp : Space) (m : List Host.Cell) : (s.setBuffer sp m).ctrOut = s.ctrOut := by cases sp <;> rfl
@[simp] theorem setBuffer_context (s : State) (sp : Space) (m : List Host.Cell) : (s.setBuffer sp m).context = s.context := by cases sp <;> rfl
@[simp] theorem setBuffer_command (s : State) (sp : Space) (m : List Host.Cell) : (s.setBuffer sp m).command = s.command := by cases sp <;> rfl
@[simp] theorem setBuffer_port (s : State) (sp : Space) (m : List Host.Cell) : (s.setBuffer sp m).port = s.port := by cases sp <;> rfl
@[simp] theorem setBuffer_inputs (s : State) (sp : Space) (m : List Host.Cell) : (s.setBuffer sp m).inputs = s.inputs := by cases sp <;> rfl
@[simp] theorem setBuffer_replies (s : State) (sp : Space) (m : List Host.Cell) : (s.setBuffer sp m).replies = s.replies := by cases sp <;> rfl
@[simp] theorem setBuffer_answers (s : State) (sp : Space) (m : List Host.Cell) : (s.setBuffer sp m).answers = s.answers := by cases sp <;> rfl
@[simp] theorem setBuffer_issued (s : State) (sp : Space) (m : List Host.Cell) : (s.setBuffer sp m).issued = s.issued := by cases sp <;> rfl
@[simp] theorem setBuffer_trace (s : State) (sp : Space) (m : List Host.Cell) : (s.setBuffer sp m).trace = s.trace := by cases sp <;> rfl
@[simp] theorem setBuffer_epoch (s : State) (sp : Space) (m : List Host.Cell) : (s.setBuffer sp m).epoch = s.epoch := by cases sp <;> rfl
@[simp] theorem setBuffer_keyLength (s : State) (sp : Space) (m : List Host.Cell) : (s.setBuffer sp m).keyLength = s.keyLength := by cases sp <;> rfl
@[simp] theorem setBuffer_nonceLength (s : State) (sp : Space) (m : List Host.Cell) : (s.setBuffer sp m).nonceLength = s.nonceLength := by cases sp <;> rfl
@[simp] theorem setBuffer_aadLength (s : State) (sp : Space) (m : List Host.Cell) : (s.setBuffer sp m).aadLength = s.aadLength := by cases sp <;> rfl
@[simp] theorem setBuffer_msgLength (s : State) (sp : Space) (m : List Host.Cell) : (s.setBuffer sp m).msgLength = s.msgLength := by cases sp <;> rfl
@[simp] theorem setBuffer_tagLength (s : State) (sp : Space) (m : List Host.Cell) : (s.setBuffer sp m).tagLength = s.tagLength := by cases sp <;> rfl
@[simp] theorem setBuffer_cbcBlocks (s : State) (sp : Space) (m : List Host.Cell) : (s.setBuffer sp m).cbcBlocks = s.cbcBlocks := by cases sp <;> rfl
@[simp] theorem setBuffer_ctrBlocks (s : State) (sp : Space) (m : List Host.Cell) : (s.setBuffer sp m).ctrBlocks = s.ctrBlocks := by cases sp <;> rfl
@[simp] theorem setBuffer_operand (s : State) (sp : Space) (m : List Host.Cell) (r : OperandReg) : (s.setBuffer sp m).operand r = s.operand r := by cases sp <;> cases r <;> rfl
@[simp] theorem setBuffer_buffer (s : State) (sp : Space) (m : List Host.Cell) (sq : Space) :
    (s.setBuffer sp m).buffer sq = if sq = sp then m else s.buffer sq := by cases sp <;> cases sq <;> rfl
@[simp] theorem setBuffer_work (s : State) (sp : Space) (m : List Host.Cell) (b : WorkBuffer) : (s.setBuffer sp m).work b = s.work b := by cases sp <;> cases b <;> rfl
@[simp] theorem setBuffer_workBytes (s : State) (sp : Space) (m : List Host.Cell) (b : WorkBuffer) : (s.setBuffer sp m).workBytes b = s.workBytes b := by cases sp <;> cases b <;> rfl
@[simp] theorem setBuffer_fits (P : Params) (s : State) (sp : Space) (m : List Host.Cell) : fits P (s.setBuffer sp m) = fits P s := by cases sp <;> rfl

/-! ## setOperand -/

@[simp] theorem setOperand_status (s : State) (r : OperandReg) (w : Word) : (s.setOperand r w).status = s.status := by cases r <;> rfl
@[simp] theorem setOperand_blocks (s : State) (r : OperandReg) (w : Word) : (s.setOperand r w).blocks = s.blocks := by cases r <;> rfl
@[simp] theorem setOperand_key (s : State) (r : OperandReg) (w : Word) : (s.setOperand r w).key = s.key := by cases r <;> rfl
@[simp] theorem setOperand_nonce (s : State) (r : OperandReg) (w : Word) : (s.setOperand r w).nonce = s.nonce := by cases r <;> rfl
@[simp] theorem setOperand_aad (s : State) (r : OperandReg) (w : Word) : (s.setOperand r w).aad = s.aad := by cases r <;> rfl
@[simp] theorem setOperand_msgIn (s : State) (r : OperandReg) (w : Word) : (s.setOperand r w).msgIn = s.msgIn := by cases r <;> rfl
@[simp] theorem setOperand_tagIn (s : State) (r : OperandReg) (w : Word) : (s.setOperand r w).tagIn = s.tagIn := by cases r <;> rfl
@[simp] theorem setOperand_msgOut (s : State) (r : OperandReg) (w : Word) : (s.setOperand r w).msgOut = s.msgOut := by cases r <;> rfl
@[simp] theorem setOperand_tagOut (s : State) (r : OperandReg) (w : Word) : (s.setOperand r w).tagOut = s.tagOut := by cases r <;> rfl
@[simp] theorem setOperand_phase (s : State) (r : OperandReg) (w : Word) : (s.setOperand r w).phase = s.phase := by cases r <;> rfl
@[simp] theorem setOperand_bInput (s : State) (r : OperandReg) (w : Word) : (s.setOperand r w).bInput = s.bInput := by cases r <;> rfl
@[simp] theorem setOperand_cbcOut (s : State) (r : OperandReg) (w : Word) : (s.setOperand r w).cbcOut = s.cbcOut := by cases r <;> rfl
@[simp] theorem setOperand_ctrIv (s : State) (r : OperandReg) (w : Word) : (s.setOperand r w).ctrIv = s.ctrIv := by cases r <;> rfl
@[simp] theorem setOperand_ctrIn (s : State) (r : OperandReg) (w : Word) : (s.setOperand r w).ctrIn = s.ctrIn := by cases r <;> rfl
@[simp] theorem setOperand_ctrOut (s : State) (r : OperandReg) (w : Word) : (s.setOperand r w).ctrOut = s.ctrOut := by cases r <;> rfl
@[simp] theorem setOperand_context (s : State) (r : OperandReg) (w : Word) : (s.setOperand r w).context = s.context := by cases r <;> rfl
@[simp] theorem setOperand_command (s : State) (r : OperandReg) (w : Word) : (s.setOperand r w).command = s.command := by cases r <;> rfl
@[simp] theorem setOperand_port (s : State) (r : OperandReg) (w : Word) : (s.setOperand r w).port = s.port := by cases r <;> rfl
@[simp] theorem setOperand_inputs (s : State) (r : OperandReg) (w : Word) : (s.setOperand r w).inputs = s.inputs := by cases r <;> rfl
@[simp] theorem setOperand_replies (s : State) (r : OperandReg) (w : Word) : (s.setOperand r w).replies = s.replies := by cases r <;> rfl
@[simp] theorem setOperand_answers (s : State) (r : OperandReg) (w : Word) : (s.setOperand r w).answers = s.answers := by cases r <;> rfl
@[simp] theorem setOperand_issued (s : State) (r : OperandReg) (w : Word) : (s.setOperand r w).issued = s.issued := by cases r <;> rfl
@[simp] theorem setOperand_trace (s : State) (r : OperandReg) (w : Word) : (s.setOperand r w).trace = s.trace := by cases r <;> rfl
@[simp] theorem setOperand_epoch (s : State) (r : OperandReg) (w : Word) : (s.setOperand r w).epoch = s.epoch := by cases r <;> rfl
@[simp] theorem setOperand_operand (s : State) (r : OperandReg) (w : Word) (q : OperandReg) :
    (s.setOperand r w).operand q = if q = r then w else s.operand q := by cases r <;> cases q <;> rfl
@[simp] theorem setOperand_buffer (s : State) (r : OperandReg) (w : Word) (sp : Space) : (s.setOperand r w).buffer sp = s.buffer sp := by cases r <;> cases sp <;> rfl
@[simp] theorem setOperand_work (s : State) (r : OperandReg) (w : Word) (b : WorkBuffer) : (s.setOperand r w).work b = s.work b := by cases r <;> cases b <;> rfl

/-! ## Derived views -/

@[simp] theorem clearOutputs_buffer (s : State) (sp : Space) :
    s.clearOutputs.buffer sp = if hostWritable sp then s.buffer sp else [] := by cases sp <;> rfl

@[simp] theorem discardWork_work (s : State) (b : WorkBuffer) : s.discardWork.work b = none := by cases b <;> rfl

end Sys2Proof.Machine
end

