-- ==== Sys2Proof/Laws/Ops.lean ====
section
/-! SUPPORT. What each shared operation can do, once: the STATUS writes, the failure exit, VALIDATE, the
allocation, and a request on the cipher port. -/

namespace Sys2Proof.Machine

/-! ## STATUS (R13) -/

@[simp] theorem statusResult_withResult (w : Word) (r : Result) : statusResult (withResult w r) = r.code := by
  unfold statusResult withResult
  ext i hi
  have h : i = 0 ∨ i = 1 ∨ i = 2 ∨ i = 3 := by omega
  rcases h with rfl | rfl | rfl | rfl <;> simp

@[simp] theorem statusResult_withDone (w : Word) : statusResult (withDone w) = statusResult w := by
  unfold statusResult withDone
  ext i hi
  have h : i = 0 ∨ i = 1 ∨ i = 2 ∨ i = 3 := by omega
  rcases h with rfl | rfl | rfl | rfl <;> simp

@[simp] theorem statusDone_withDone (w : Word) : statusDone (withDone w) = true := by
  simp [statusDone, withDone]

/-- Bits [31:5] survive both STATUS writes. -/
theorem status_high (w : Word) (r : Result) (i : Nat) (h : 5 ≤ i) :
    (withDone (withResult w r)).getLsbD i = w.getLsbD i := by
  by_cases h32 : i < 32
  · unfold withDone withResult
    have h1 : (0xFFFFFFF0#32).getLsbD i = true := by
      have : i = 5 ∨ i = 6 ∨ i = 7 ∨ i = 8 ∨ i = 9 ∨ i = 10 ∨ i = 11 ∨ i = 12 ∨ i = 13 ∨ i = 14 ∨ i = 15 ∨ i = 16
        ∨ i = 17 ∨ i = 18 ∨ i = 19 ∨ i = 20 ∨ i = 21 ∨ i = 22 ∨ i = 23 ∨ i = 24 ∨ i = 25 ∨ i = 26 ∨ i = 27 ∨ i = 28
        ∨ i = 29 ∨ i = 30 ∨ i = 31 := by omega
      rcases this with rfl | rfl | rfl | rfl | rfl | rfl | rfl | rfl | rfl | rfl | rfl | rfl | rfl | rfl | rfl | rfl
        | rfl | rfl | rfl | rfl | rfl | rfl | rfl | rfl | rfl | rfl | rfl <;> rfl
    have h2 : (0x00000010#32).getLsbD i = false := by
      rw [BitVec.getLsbD, Nat.testBit_eq_false_of_lt]
      exact Nat.lt_of_lt_of_le (show 16 < 2 ^ 5 by decide) (Nat.pow_le_pow_right (by decide) h)
    have h3 : (r.code.setWidth 32).getLsbD i = false := by
      rw [BitVec.getLsbD_setWidth, BitVec.getLsbD_of_ge _ _ (by omega)]
      simp
    rw [BitVec.getLsbD_or, BitVec.getLsbD_or, BitVec.getLsbD_and, h1, h2, h3]
    simp
  · rw [BitVec.getLsbD_of_ge _ _ (by omega), BitVec.getLsbD_of_ge _ _ (by omega)]

/-! ## The failure exit (R146) -/

@[simp] theorem failureExit_keyBits (r : Result) (s : State) : (failureExit r s).keyBits = s.keyBits := by simp [failureExit]
@[simp] theorem failureExit_nonceLen (r : Result) (s : State) : (failureExit r s).nonceLen = s.nonceLen := by simp [failureExit]
@[simp] theorem failureExit_aadLen (r : Result) (s : State) : (failureExit r s).aadLen = s.aadLen := by simp [failureExit]
@[simp] theorem failureExit_msgLen (r : Result) (s : State) : (failureExit r s).msgLen = s.msgLen := by simp [failureExit]
@[simp] theorem failureExit_tagLen (r : Result) (s : State) : (failureExit r s).tagLen = s.tagLen := by simp [failureExit]
@[simp] theorem failureExit_status (r : Result) (s : State) : (failureExit r s).status = withDone (withResult s.status r) := by simp [failureExit]
@[simp] theorem failureExit_blocks (r : Result) (s : State) : (failureExit r s).blocks = s.blocks := by simp [failureExit]
@[simp] theorem failureExit_key (r : Result) (s : State) : (failureExit r s).key = s.key := by simp [failureExit]
@[simp] theorem failureExit_nonce (r : Result) (s : State) : (failureExit r s).nonce = s.nonce := by simp [failureExit]
@[simp] theorem failureExit_aad (r : Result) (s : State) : (failureExit r s).aad = s.aad := by simp [failureExit]
@[simp] theorem failureExit_msgIn (r : Result) (s : State) : (failureExit r s).msgIn = s.msgIn := by simp [failureExit]
@[simp] theorem failureExit_tagIn (r : Result) (s : State) : (failureExit r s).tagIn = s.tagIn := by simp [failureExit]
@[simp] theorem failureExit_msgOut (r : Result) (s : State) : (failureExit r s).msgOut = [] := by simp [failureExit]
@[simp] theorem failureExit_tagOut (r : Result) (s : State) : (failureExit r s).tagOut = [] := by simp [failureExit]
@[simp] theorem failureExit_phase (r : Result) (s : State) : (failureExit r s).phase = .idle := by simp [failureExit]
@[simp] theorem failureExit_bInput (r : Result) (s : State) : (failureExit r s).bInput = none := by simp [failureExit]
@[simp] theorem failureExit_cbcOut (r : Result) (s : State) : (failureExit r s).cbcOut = none := by simp [failureExit]
@[simp] theorem failureExit_ctrIv (r : Result) (s : State) : (failureExit r s).ctrIv = none := by simp [failureExit]
@[simp] theorem failureExit_ctrIn (r : Result) (s : State) : (failureExit r s).ctrIn = none := by simp [failureExit]
@[simp] theorem failureExit_ctrOut (r : Result) (s : State) : (failureExit r s).ctrOut = none := by simp [failureExit]
@[simp] theorem failureExit_context (r : Result) (s : State) : (failureExit r s).context = s.context := by simp [failureExit]
@[simp] theorem failureExit_command (r : Result) (s : State) : (failureExit r s).command = none := by simp [failureExit]
@[simp] theorem failureExit_port (r : Result) (s : State) : (failureExit r s).port = s.port := by simp [failureExit]
@[simp] theorem failureExit_inputs (r : Result) (s : State) : (failureExit r s).inputs = s.inputs := by simp [failureExit]
@[simp] theorem failureExit_replies (r : Result) (s : State) : (failureExit r s).replies = s.replies := by simp [failureExit]
@[simp] theorem failureExit_answers (r : Result) (s : State) : (failureExit r s).answers = s.answers := by simp [failureExit]
@[simp] theorem failureExit_issued (r : Result) (s : State) : (failureExit r s).issued = s.issued := by simp [failureExit]
@[simp] theorem failureExit_trace (r : Result) (s : State) : (failureExit r s).trace = s.trace := by simp [failureExit]
@[simp] theorem failureExit_epoch (r : Result) (s : State) : (failureExit r s).epoch = s.epoch := by simp [failureExit]

@[simp] theorem failureExit_operand (r : Result) (s : State) (q : OperandReg) :
    (failureExit r s).operand q = s.operand q := by simp [failureExit]

@[simp] theorem failureExit_work (r : Result) (s : State) (b : WorkBuffer) : (failureExit r s).work b = none := by
  simp [failureExit]

@[simp] theorem failureExit_buffer (r : Result) (s : State) (sp : Space) :
    (failureExit r s).buffer sp = if hostWritable sp then s.buffer sp else [] := by
  simp [failureExit]

/-! ## VALIDATE, ALLOC (R80, R35) -/

/-- VALIDATE goes on exactly when every operand is legal. -/
theorem validateCause_none (s : State) : validateCause s = none ↔ operandsLegal s := by
  unfold validateCause operandsLegal
  split
  · rename_i h; simp [h]
  · split
    · rename_i h; simp [h]
    · split
      · rename_i h; simp [h]
      · split
        · rename_i h; simp [h]
        · split
          · rename_i h; simp [h]
          · rename_i h1 h2 h3 h4 h5
            exact ⟨fun _ => ⟨not_not.mp h1, not_not.mp h2, not_not.mp h3, not_not.mp h4, not_not.mp h5⟩,
              fun _ => rfl⟩

/-- VALIDATE: on, with the phase alone changed, or the failure exit with its cause. -/
theorem validateOp_cases (s : State) :
    (operandsLegal s ∧ validateOp s = .ok (s.setPhase .validate))
      ∨ ∃ r, validateCause s = some r ∧ ¬ operandsLegal s ∧ validateOp s = .raise r (s.setPhase .validate) := by
  unfold validateOp
  cases h : validateCause s with
  | none => exact .inl ⟨(validateCause_none s).mp h, rfl⟩
  | some r =>
    refine .inr ⟨r, rfl, fun hl => ?_, rfl⟩
    rw [(validateCause_none s).mpr hl] at h
    cases h

/-! ## The cipher port (R121 to R123, R129) -/

theorem nextStatus_eq (P : Params) (s : State) : nextStatus P s = statusAt P s 0 := by
  simp [nextStatus, statusAt]

/-- The statuses move up by one when a request is recorded. -/
@[simp] theorem statusAt_record (P : Params) (s : State) (e : PortEvent) (k : Nat) :
    statusAt P (s.record e) k = statusAt P s (k + 1) := by
  simp only [statusAt, record_answers, record_issued, List.drop_tail]
  rw [Nat.add_assoc, Nat.add_comm 1 k]

/-- A request answered OK. -/
theorem ciph_ok {P : Params} {r : PortRequest} {s : State} (h : statusAt P s 0 = .ok) :
    ciph P r s = .ok ((storeOutput (s.record ⟨r, .ok (requestOutput P s.issued s.context r)⟩) r
      (requestOutput P s.issued s.context r)).setContext (s.context.after r)) := by
  rw [ciph, nextStatus_eq, h]

/-- A request answered Error. -/
theorem ciph_error {P : Params} {r : PortRequest} {s : State} (h : statusAt P s 0 = .error) :
    ciph P r s = .raise .cipherError ((s.record ⟨r, .error⟩).setContext CipherContext.unset) := by
  rw [ciph, nextStatus_eq, h]

/-- CBC output is as long as the whole blocks of its input. -/
theorem cbcChain_length (P : Params) (key : Bytes) (k : Nat) (prev input : Bytes) :
    (cbcChain P key k prev input).length = 16 * k := by
  induction k generalizing prev input with
  | zero => rfl
  | succ k ih => simp [cbcChain, ih, cipherBlock]; omega

/-- CTR output is as long as the whole blocks of its input. -/
theorem ctrChain_length (P : Params) (key iv : Bytes) (k i : Nat) (input : Bytes) (h : 16 * k ≤ input.length) :
    (ctrChain P key iv k i input).length = 16 * k := by
  induction k generalizing i input with
  | zero => rfl
  | succ k ih =>
    rw [ctrChain, List.length_append, ih _ _ (by simp; omega), xorBytes_length]
    simp [cipherBlock]
    omega

@[simp] theorem cipherBlock_length (P : Params) (key block : Bytes) : (cipherBlock P key block).length = 16 := by
  simp [cipherBlock]

theorem cbcMode_length (P : Params) (key iv input : Bytes) (h : input.length % 16 = 0) :
    (cbcMode P key iv input).length = input.length := by
  rw [cbcMode, cbcChain_length]; omega

theorem ctrMode_length (P : Params) (key iv input : Bytes) (h : input.length % 16 = 0) :
    (ctrMode P key iv input).length = input.length := by
  rw [ctrMode, ctrChain_length _ _ _ _ _ _ (by omega)]; omega

end Sys2Proof.Machine
end

