-- ==== Sys2Proof/Laws/PerInstr.lean ====
section
/-! SUPPORT. Statements made per instruction, about its syntax and encoding. -/

namespace Sys2Proof.Laws

/-- How many payload bytes the 32-bit items of a frame announce (R61): LENGTH for CIPH_ENCRYPT, KEYBYTES and
IVBYTES together for CIPH_SET_KEY, none for CIPH_INIT. -/
def announcedBytes (f : PortFrame) : Nat :=
  match f.words with
  | [] => 0
  | [hdr] => if hdrKind hdr = 1 then (hdrKeyBytes hdr).toNat + (hdrIvBytes hdr).toNat else 0
  | _ :: len :: _ => len.toNat

/-- The frame of a well-formed request announces exactly the bytes it carries (R61). -/
def PayloadAnnounced.Statement (i : Instr) : Prop :=
  i.wf = true → ∀ f, encode i = some (.port f) → f.bytes.length = announcedBytes f

theorem PayloadAnnounced.ccmEnc : PayloadAnnounced.Statement .ccmEnc := by
  intro _ f h; cases h

theorem PayloadAnnounced.ccmDec : PayloadAnnounced.Statement .ccmDec := by
  intro _ f h; cases h

theorem PayloadAnnounced.cbcSize : PayloadAnnounced.Statement .cbcSize := by
  intro _ f h; cases h

theorem PayloadAnnounced.ctrSize : PayloadAnnounced.Statement .ctrSize := by
  intro _ f h; cases h

theorem PayloadAnnounced.ciphInit (mode : Mode) : PayloadAnnounced.Statement (.ciphInit mode) := by
  intro _ f h
  cases h
  cases mode <;> rfl

theorem PayloadAnnounced.ciphSetKey (setup : SetKey) : PayloadAnnounced.Statement (.ciphSetKey setup) := by
  intro hw f h
  obtain ⟨c, d, key, iv⟩ := setup
  cases h
  simp only [Instr.wf, SetKey.wf, Bool.and_eq_true, decide_eq_true_eq] at hw
  simp only [setKeyFrame, List.length_append, hw.1, hw.2]
  cases c <;> cases d <;> rfl

theorem PayloadAnnounced.ciphEncrypt (input : Bytes) : PayloadAnnounced.Statement (.ciphEncrypt input) := by
  intro hw f h
  cases h
  simp only [Instr.wf, encryptInputWf, Bool.and_eq_true, decide_eq_true_eq] at hw
  simp only [encryptFrame, announcedBytes, BitVec.toNat_ofNat]
  exact (Nat.mod_eq_of_lt hw.2).symm

theorem PayloadAnnounced.validate : PayloadAnnounced.Statement .validate := by
  intro _ f h; cases h

theorem PayloadAnnounced.asmCbcmac (source : MsgSource) : PayloadAnnounced.Statement (.asmCbcmac source) := by
  intro _ f h; cases h

theorem PayloadAnnounced.asmCtrEnc : PayloadAnnounced.Statement .asmCtrEnc := by
  intro _ f h; cases h

theorem PayloadAnnounced.asmCtrDec : PayloadAnnounced.Statement .asmCtrDec := by
  intro _ f h; cases h

theorem PayloadAnnounced.buildCtrIv : PayloadAnnounced.Statement .buildCtrIv := by
  intro _ f h; cases h

end Sys2Proof.Laws
end

