-- ==== Sys2Proof/Laws/Step.lean ====
section
/-! SUPPORT. What one step can do, by whose turn it is, and what a list of phases does. -/

namespace Sys2Proof.Machine

/-- A run of k + 1 steps whose first step goes on. -/
theorem run_next {s t : State} (h : step s = .next t) (k : Nat) :
    Host.Core.run Sys2Proof.core (k + 1) s = Host.Core.run Sys2Proof.core k t := by
  have h' : Sys2Proof.core.step s = .next t := h
  simp only [Host.Core.run, h']

/-- Reset's turn (R160). -/
theorem step_reset {s : State} {rest : List Input} (h : s.inputs = .reset :: rest) :
    step s = .next (resetFrom { s with inputs := rest }) := by
  rw [step, turn, if_pos (by rw [h]; rfl), h]
  rfl

/-- The primitive's turn (R40). -/
theorem step_port {s : State} {f : PortFrame} (h : s.inputs.head? ≠ some .reset) (hp : s.port = some f) :
    step s = portTurn f s := by
  rw [step, turn, if_neg h, hp]

/-- The host's turn (R10). -/
theorem step_host {s : State} (h : s.inputs.head? ≠ some .reset) (hp : s.port = none) (hi : s.phase = .idle) :
    step s = hostTurn Config.params s := by
  rw [step, turn, if_neg h, hp]
  exact if_pos hi

/-- The sequencer's turn (R18). -/
theorem step_sequencer {s : State} (h : s.inputs.head? ≠ some .reset) (hp : s.port = none)
    (hi : s.phase ≠ .idle) : step s = sequencerTurn Config.params s := by
  rw [step, turn, if_neg h, hp]
  exact if_neg hi

/-- The numbers ENC and DEC can write are those 32 bits say, each as itself (R64, R65). -/
theorem hostNumber_eq_some {n : Nat} {w : Word} : hostNumber n = some w ↔ w.toNat = n := by
  unfold hostNumber
  constructor
  · intro h
    split at h
    · cases h
      exact Nat.mod_eq_of_lt ‹_›
    · cases h
  · rintro rfl
    rw [if_pos w.isLt, BitVec.ofNat_toNat, BitVec.setWidth_eq]

/-- A phase that goes on: the rest of the list runs from where it leads. -/
theorem runPhases_ok {P : Params} {c : Command} {p : Phase} {ps : List Phase} {s s' : State}
    (h : phaseOp P c p (s.enter c p) = .ok s') : runPhases P c (p :: ps) s = runPhases P c ps s' := by
  rw [runPhases, h]

/-- A phase that raises: the failure exit ends the command. -/
theorem runPhases_raise {P : Params} {c : Command} {p : Phase} {ps : List Phase} {s s' : State} {r : Result}
    (h : phaseOp P c p (s.enter c p) = .raise r s') : runPhases P c (p :: ps) s = failureExit r s' := by
  rw [runPhases, h]

/-- ALLOC (R35): all five buffers, zeroed, or AllocationFailure. -/
theorem allocOp_cases (P : Params) (s : State) :
    (fits P s = true ∧ ∃ s', allocOp P s = .ok s' ∧ (∀ b, s'.work b = some (zeros (s.workSize b)))
      ∧ s'.phase = s.phase ∧ s'.command = s.command)
    ∨ (fits P s = false ∧ allocOp P s = .raise .allocationFailure s) := by
  unfold allocOp
  cases h : fits P s with
  | false => exact .inr ⟨rfl, rfl⟩
  | true => exact .inl ⟨rfl, _, rfl, fun b => by cases b <;> simp, by simp, by simp⟩

/-- COMPARE (R112): on if the tags agree, else AuthenticationFailure. -/
theorem compareOp_cases (s : State) :
    (recomputedTag s = recoveredTag s ∧ compareOp s = .ok s)
    ∨ (recomputedTag s ≠ recoveredTag s ∧ compareOp s = .raise .authenticationFailure s) := by
  unfold compareOp
  by_cases h : recomputedTag s = recoveredTag s
  · exact .inl ⟨h, if_pos h⟩
  · exact .inr ⟨h, if_neg h⟩

end Sys2Proof.Machine
end

