-- ==== Sys2Proof/Tests/Slice0.lean ====
section
/-! SUPPORT. The model's own tests: well-formedness, decoding of words written out from the spec, one-step tests
against the vectors of 95_test_vectors.md, and for each statement with hypotheses a witness that meets them. -/

namespace Sys2Proof.Tests

open Sys2Proof Sys2Proof.Machine

/-! ## Well-formedness: each check refuses an ill-formed term -/

/-- KEY_192 with 16 bytes of key (R62). -/
theorem test_wf_refuses_key_length :
    (Instr.ciphSetKey ⟨.key192, .encrypt, List.replicate 16 0, List.replicate 16 0⟩).wf = false := by decide

/-- An IV of 15 bytes (R61). -/
theorem test_wf_refuses_iv_length :
    (Instr.ciphSetKey ⟨.key128, .encrypt, List.replicate 16 0, List.replicate 15 0⟩).wf = false := by decide

/-- An input of 17 bytes (R61). -/
theorem test_wf_refuses_partial_block : (Instr.ciphEncrypt (List.replicate 17 0)).wf = false := by decide

/-! ## Decoding: words written out from R51, R61, R62 and L2.9 -/

theorem test_decode_ccm_enc : decodeTableWord 32 0x00000001 = some .ccmEnc := by decide
theorem test_decode_ccm_dec : decodeTableWord 32 0x00000002 = some .ccmDec := by decide
theorem test_decode_cbc_size : decodeTableWord 32 0x00000010 = some .cbcSize := by decide
theorem test_decode_ctr_size : decodeTableWord 32 0x00000011 = some .ctrSize := by decide
theorem test_decode_init_ecb : decodeTableWord 32 0x00000000 = some (.ciphInit .ecb) := by decide
theorem test_decode_init_cbc : decodeTableWord 32 0x00000004 = some (.ciphInit .cbc) := by decide
theorem test_decode_init_ctr : decodeTableWord 32 0x00000008 = some (.ciphInit .ctr) := by decide

/-- L2.9: KEY_128, 16 key bytes, ENCRYPT. -/
theorem test_decode_set_key_128 :
    decodeTableWord 32 0x00008201 =
      some (.ciphSetKey ⟨.key128, .encrypt, List.replicate 16 0, List.replicate 16 0⟩) := by decide

/-- L2.9: KEY_192, 24 key bytes, with bit 4 set: DECRYPT (R62). -/
theorem test_decode_set_key_192_decrypt :
    decodeTableWord 32 0x00008315 =
      some (.ciphSetKey ⟨.key192, .decrypt, List.replicate 24 0, List.replicate 16 0⟩) := by decide

/-- KIND 2, LENGTH 32, OFFSET 0, 32 bytes (R61). -/
theorem test_decode_encrypt :
    decode (.port ⟨[0x00000002#32, 0x00000020#32, 0x00000000#32], List.replicate 32 0xA5#8⟩) =
      .ok (.ciphEncrypt (List.replicate 32 0xA5#8)) := by decide

/-- L2.19: a word R51 does not list (R52). -/
theorem test_decode_refuses_reserved_word : decode (.cmd 0x00000003#32) = .error .reservedCommand := by decide

/-- A command's low byte with RSV bits set (R50, R52). -/
theorem test_decode_refuses_rsv : decode (.cmd 0x00000101#32) = .error .reservedCommand := by decide

/-- MODE 3 (R62). -/
theorem test_decode_refuses_mode_3 : decode (.port ⟨[0x0000000C#32], []⟩) = .error .reservedMode := by decide

/-- KCLASS 3 (R62). -/
theorem test_decode_refuses_kclass_3 :
    decode (.port ⟨[0x0000820D#32], List.replicate 32 0⟩) = .error .reservedKeyClass := by decide

/-- KIND 3 (R61). -/
theorem test_decode_refuses_kind_3 : decode (.port ⟨[0x00000003#32], []⟩) = .error .reservedKind := by decide

/-- OFFSET 1 (R61). -/
theorem test_decode_refuses_offset :
    decode (.port ⟨[0x00000002#32, 0x00000000#32, 0x00000001#32], []⟩) = .error .offset := by decide

/-! ## The vectors of 95_test_vectors.md -/

/-- L2.2: the smallest, the largest and the source's FLAGS byte. -/
theorem test_flags_byte : b0Flags 4 13 0 = 0x09 ∧ b0Flags 16 7 1 = 0x7F ∧ b0Flags 10 13 12 = 0x61 := by decide

/-- L2.3: m = 0x12345678 with q = 5. -/
theorem test_length_field :
    (writeLength 5 0 0x12345678 (zeros 16)).drop 11 = [0x00, 0x12, 0x34, 0x56, 0x78] := by decide

/-- L2.5: a = 15. -/
theorem test_aad_region :
    slice (buildBInput 8 (zeros 13) ((List.range 15).map fun i => BitVec.ofNat 8 (0xA0 + i)) []) 16 32 =
      [0x00, 0x0F, 0xA0, 0xA1, 0xA2, 0xA3, 0xA4, 0xA5, 0xA6, 0xA7, 0xA8, 0xA9, 0xAA, 0xAB, 0xAC, 0xAD,
        0xAE, 0, 0, 0, 0, 0, 0, 0, 0, 0, 0, 0, 0, 0, 0, 0] := by decide

/-- L2.6: n = 7. -/
theorem test_ctr_iv :
    buildIv [0x10, 0x11, 0x12, 0x13, 0x14, 0x15, 0x16] =
      [0x07, 0x10, 0x11, 0x12, 0x13, 0x14, 0x15, 0x16, 0, 0, 0, 0, 0, 0, 0, 0] := by decide

/-- R90, R91: a 4-byte tag, then the message, each at its place. -/
theorem test_ctr_input :
    buildCtrIn [1, 2, 3, 4] [9] =
      [1, 2, 3, 4, 0, 0, 0, 0, 0, 0, 0, 0, 0, 0, 0, 0, 9, 0, 0, 0, 0, 0, 0, 0, 0, 0, 0, 0, 0, 0, 0, 0] := by
  decide

/-- L2.8: the counter's carry out of byte 15. -/
theorem test_counter_carry :
    inc128 [0x01, 0x10, 0x11, 0x12, 0x13, 0x14, 0x15, 0x16, 0x17, 0x18, 0x19, 0x20, 0x21, 0x22, 0x00, 0xFF] 1 =
      [0x01, 0x10, 0x11, 0x12, 0x13, 0x14, 0x15, 0x16, 0x17, 0x18, 0x19, 0x20, 0x21, 0x22, 0x01, 0x00] := by
  decide

/-- The five operand registers (KEY_BITS, TAG_LEN, NONCE_LEN, AAD_LEN, MSG_LEN) of a row of L2.4. -/
def operands (keyBits tagLen nonceLen aadLen msgLen : Word) : State :=
  { State.reset with
    keyBits := keyBits, tagLen := tagLen, nonceLen := nonceLen, aadLen := aadLen, msgLen := msgLen }

/-- L2.1: m = a = 2^32 - 1, the largest BLOCKS value. -/
theorem test_cbc_size_largest : (sizeCbc (operands 0 0 0 0xFFFFFFFF 0xFFFFFFFF)).blocks = 0x20000002 := by decide

/-- L2.1: m = 17, a = 14. -/
theorem test_cbc_size : (sizeCbc (operands 0 0 0 14 17)).blocks = 4 := by decide

/-- L2.1: m = 100. -/
theorem test_ctr_size : (sizeCtr (operands 0 0 0 300 100)).blocks = 8 := by decide

/-- L2.4: rows that pass at a boundary. -/
theorem test_validate_passes :
    validateCause (operands 128 16 7 0xFEFF 0xFFFFFFFF) = none
      ∧ validateCause (operands 256 4 13 8 65535) = none := by decide

/-- L2.4, L2.17: the causes, each masking those after it. -/
theorem test_validate_causes :
    validateCause (operands 130 18 14 0xFF00 65536) = some .invalidKeyLength
      ∧ validateCause (operands 128 0x104 14 0xFF00 65536) = some .invalidTagLength
      ∧ validateCause (operands 128 8 14 0xFF00 65536) = some .invalidNonceLength
      ∧ validateCause (operands 128 8 13 0xFF00 65536) = some .aadTooLong
      ∧ validateCause (operands 128 8 13 8 65536) = some .messageTooLong := by decide

/-! ### The block function TOY (L2.7) -/

/-- L2.7, first pass: `t[i]` from byte `i` on. -/
def toyForward : Nat → Byte → Bytes → Bytes → Bytes
  | i, prev, b :: block, k :: key =>
    let t := (b ^^^ k) + prev + BitVec.ofNat 8 i
    t :: toyForward (i + 1) t block key
  | _, _, _, _ => []

/-- L2.7, second pass. -/
def toyBackward : Bytes → Bytes
  | [] => []
  | t :: rest =>
    match toyBackward rest with
    | [] => [t]
    | next :: more => (t + next) :: next :: more

/-- L2.7: `TOY(K, B)` for a key of 16 bytes. -/
def toy (key : Bytes) (block : Block) : Block := blockOf (toyBackward (toyForward 0 0x5A block.toList key))

/-- TOY, every request answered OK, MSG_CAP 64, WORK_CAP 8 (95_test_vectors.md, preamble). -/
def toyParams : Params := ⟨toy, fun _ => .ok, fun _ _ => 0, fun _ _ _ => 0, some 64, some 8⟩

/-- L2.10, the inputs of V1: message and tag bytes are the command's own. -/
def v1 (msg tag : Bytes) : State :=
  { operands 128 8 13 8 23 with
    key := memWriteBytes .key 0 ((List.range 16).map fun i => BitVec.ofNat 8 (0xC0 + i)) []
    nonce := memWriteBytes .nonce 0 [0x00, 0x00, 0x00, 0x03, 0x02, 0x01, 0x00, 0xA0, 0xA1, 0xA2, 0xA3, 0xA4, 0xA5] []
    aad := memWriteBytes .aad 0 ((List.range 8).map (BitVec.ofNat 8)) []
    msgIn := memWriteBytes .msgIn 0 msg []
    tagIn := memWriteBytes .tagIn 0 tag [] }

/-- L2.10: the plaintext of V1. -/
def v1Plain : Bytes := (List.range 23).map fun i => BitVec.ofNat 8 (8 + i)

/-- L2.10: the ciphertext of V1 under TOY. -/
def v1Cipher : Bytes :=
  [0xAA, 0x8E, 0xA0, 0x02, 0xAE, 0x7D, 0x7C, 0xA8, 0x1E, 0x14, 0x99, 0x8C, 0x54, 0x78, 0x33, 0x16,
    0xB9, 0x9F, 0xB3, 0x13, 0xBD, 0x72, 0x6F]

/-- L2.10: the tag of V1 under TOY. -/
def v1Tag : Bytes := [0x09, 0xC2, 0xAB, 0x7C, 0x6D, 0xF5, 0x37, 0x5A]

/-- L2.10: CCM_ENC of V1 under TOY. -/
theorem test_ccm_enc_v1 :
    (runCommand toyParams .ccmEnc (v1 v1Plain [])).status = 0x10
      ∧ (runCommand toyParams .ccmEnc (v1 v1Plain [])).msgOut = memWriteBytes .msgOut 0 v1Cipher []
      ∧ (runCommand toyParams .ccmEnc (v1 v1Plain [])).tagOut = memWriteBytes .tagOut 0 v1Tag [] := by
  decide +kernel

/-- L2.10: CCM_DEC of V1 under TOY. -/
theorem test_ccm_dec_v1 :
    (runCommand toyParams .ccmDec (v1 v1Cipher v1Tag)).status = 0x10
      ∧ (runCommand toyParams .ccmDec (v1 v1Cipher v1Tag)).msgOut = memWriteBytes .msgOut 0 v1Plain [] := by
  decide +kernel

/-- L2.15: the last tag byte changed: AuthenticationFailure, nothing released. -/
theorem test_ccm_dec_wrong_tag :
    (runCommand toyParams .ccmDec (v1 v1Cipher (v1Tag.set 7 0xDA))).status = 0x17
      ∧ (runCommand toyParams .ccmDec (v1 v1Cipher (v1Tag.set 7 0xDA))).msgOut = [] := by
  decide +kernel

/-- L2.18: the fifth request answered Error: CipherError after five requests. -/
theorem test_cipher_error :
    (runCommand toyParams .ccmEnc ({ v1 v1Plain [] with answers := [.ok, .ok, .ok, .ok, .error] } : State)).status = 0x16
      ∧ (runCommand toyParams .ccmEnc
          ({ v1 v1Plain [] with answers := [.ok, .ok, .ok, .ok, .error] } : State)).issued = 5 := by
  decide +kernel

/-- R35, R142 (a), R143: V1's message beyond MSG_CAP, and its four blocks beyond WORK_CAP: AllocationFailure, no
request issued. -/
theorem test_allocation_failure :
    (runCommand { toyParams with msgCap := some 22 } .ccmEnc (v1 v1Plain [])).status = 0x15
      ∧ (runCommand { toyParams with workCap := some 3 } .ccmDec (v1 v1Cipher v1Tag)).status = 0x15
      ∧ (runCommand { toyParams with workCap := some 3 } .ccmDec (v1 v1Cipher v1Tag)).issued = 0 := by
  decide +kernel

/-- R65: the accesses of an ENC, and of a DEC that ends in its tag and command. -/
theorem test_host_enc_dec :
    hostEnc [1] [2] [] [3] 4 = some [.writeByte .key 0 1, .writeReg 2 8, .writeByte .nonce 0 2, .writeReg 3 1,
        .writeReg 4 0, .writeByte .msgIn 0 3, .writeReg 5 1, .writeReg 6 4, .writeReg 0 1]
      ∧ hostDec [] [] [] [] [9] = some [.writeReg 2 0, .writeReg 3 0, .writeReg 4 0, .writeReg 5 0,
        .writeByte .tagIn 0 9, .writeReg 6 1, .writeReg 0 2] := by decide

/-- Log 21: t = 2^32 + 4 is no value of TAG_LEN. -/
theorem test_host_enc_refuses_large_number : hostEnc [] [] [] [] 0x100000004 = none := by decide

/-! ## Witnesses: states and operands that meet the hypotheses of the statements -/

/-- In IDLE, with one input waiting. -/
def waiting (a : Input) : State := { State.reset with inputs := [a] }

/-- Legal operands of an empty message without AAD, and six OK answers to come. -/
def ready : State :=
  { State.reset with keyBits := 128, nonceLen := 13, tagLen := 4, answers := List.replicate 6 .ok }

/-- The same, the next request answered Error. -/
def failing : State := { ready with answers := [.error] }

/-- An empty message without AAD fits every MSG_CAP and every WORK_CAP (R5: at least one block). -/
theorem fits_empty (s : State) (hm : s.msgLength = 0) (ha : s.aadLength = 0) : fits Config.params s = true := by
  have hb : s.cbcBlocks = 1 := by rw [State.cbcBlocks, hm, ha]; decide
  unfold fits
  rw [hm, hb]
  have h1 : withinCap 0 Config.params.msgCap = true := by
    cases Config.params.msgCap with
    | none => rfl
    | some c => exact decide_eq_true (Nat.zero_le c)
  have h2 : withinCap 1 Config.params.workCap = true := by
    show withinCap 1 (Config.workCapLessOne.map (· + 1)) = true
    cases Config.workCapLessOne with
    | none => rfl
    | some c => exact decide_eq_true (Nat.succ_le_succ (Nat.zero_le c))
  rw [h1, h2]
  rfl

theorem witness_ready :
    operandsLegal ready ∧ fits Config.params ready = true ∧ allAnswersOk Config.params ready :=
  ⟨by decide, fits_empty _ rfl rfl, fun k hk => by
    have h : k = 0 ∨ k = 1 ∨ k = 2 ∨ k = 3 ∨ k = 4 ∨ k = 5 := by omega
    rcases h with rfl | rfl | rfl | rfl | rfl | rfl <;> rfl⟩

theorem witness_EncodedOperationsDecode :
    ∃ w, (Instr.ciphSetKey ⟨.key256, .decrypt, List.replicate 32 0xFF, List.replicate 16 0x80⟩).wf = true
      ∧ encode (.ciphSetKey ⟨.key256, .decrypt, List.replicate 32 0xFF, List.replicate 16 0x80⟩) = some w :=
  ⟨_, by decide, rfl⟩

theorem witness_DecodedWiresAreEncodings : decode (.port ⟨[0x00000008#32], []⟩) = .ok (.ciphInit .ctr) := by decide

theorem witness_StepRunsTheDecodedCommand :
    (waiting (.writeReg 0 0x00000010#32)).phase = .idle ∧ (waiting (.writeReg 0 0x00000010#32)).port = none
      ∧ (waiting (.writeReg 0 0x00000010#32)).inputs = .writeReg 0 0x00000010#32 :: []
      ∧ decodeCommand 0x00000010#32 = .ok .cbcSize := by decide

/-- A state with CIPH_INIT(CTR) waiting on the port. -/
def portWaiting : State := { State.reset with port := some ⟨[0x00000008#32], []⟩ }

theorem witness_StepAnswersThePortRequest :
    portWaiting.inputs.head? ≠ some .reset ∧ portWaiting.port = some ⟨[0x00000008#32], []⟩
      ∧ decodePort ⟨[0x00000008#32], []⟩ = .ok (.ciphInit .ctr) := by decide

/-- A state inside a CCM_ENC, in the phase CTR_IV. -/
def inCommand : State := { ready with phase := .ctrIv, command := some .ccmEnc }

theorem witness_StepPerformsTheSequencersPhase :
    inCommand.inputs.head? ≠ some .reset ∧ inCommand.port = none ∧ inCommand.command = some .ccmEnc
      ∧ inCommand.phase ≠ .idle ∧ inCommand.phase ∈ phasesOf .ccmEnc
      ∧ phaseFault Config.params inCommand.phase inCommand = none
      ∧ phaseInstr Config.params .ccmEnc inCommand.phase inCommand = some .buildCtrIv :=
  ⟨by decide, rfl, rfl, by decide, by decide, rfl, rfl⟩

/-- A state at the first phase of CCM_DEC, and one in the phase of a size command: phases without a table row. -/
theorem witness_StepPerformsTheSequencersPhase_without_row :
    (∀ c p, ({ ready with phase := p, command := some c } : State).inputs.head? ≠ some .reset
        ∧ ({ ready with phase := p, command := some c } : State).port = none)
      ∧ Phase.clearOut ∈ phasesOf .ccmDec ∧ Phase.size ∈ phasesOf .ctrSize
      ∧ phaseFault Config.params .clearOut ready = none ∧ phaseFault Config.params .size ready = none
      ∧ phaseInstr Config.params .ccmDec .clearOut ready = none
      ∧ phaseInstr Config.params .ctrSize .size ready = none :=
  ⟨fun _ _ => ⟨nofun, rfl⟩, by decide, by decide, rfl, rfl, rfl, rfl⟩

/-- The ends of the nonce range, and a whole and an empty first block. -/
theorem witness_SizeFunctionProperties :
    (7 ≤ (zeros 7).length ∧ (zeros 7).length ≤ 13) ∧ (7 ≤ (zeros 13).length ∧ (zeros 13).length ≤ 13)
      ∧ (zeros 16).length ≤ 16 ∧ (zeros 0).length ≤ 16 := by decide

theorem witness_IdleEngineWaits :
    State.reset.phase = .idle ∧ State.reset.port = none ∧ State.reset.inputs = [] := by decide

theorem witness_ResetAtAnyMoment :
    ({ inCommand with inputs := [.reset] } : State).inputs = .reset :: [] := rfl

theorem witness_OperandRegistersReadBack :
    (waiting (.writeReg (operandIndex .tagLen) 0xFFFFFFFF#32)).phase = .idle
      ∧ (waiting (.writeReg (operandIndex .tagLen) 0xFFFFFFFF#32)).port = none
      ∧ (waiting (.writeReg (operandIndex .tagLen) 0xFFFFFFFF#32)).inputs =
          .writeReg (operandIndex .tagLen) 0xFFFFFFFF#32 :: [] := by decide

/-- One witness for each of the three ignored writes; the byte write is to TAG_OUT's last byte. -/
theorem witness_ReadOnlyWritesIgnored :
    (∀ a, (waiting a).phase = .idle ∧ (waiting a).port = none ∧ (waiting a).inputs = a :: [])
      ∧ hostWritable .tagOut = false ∧ inSpace Config.params .tagOut 15 = true :=
  ⟨fun _ => ⟨rfl, rfl, rfl⟩, rfl, rfl⟩

/-- REG index 6 and the last byte of AAD can be read. -/
theorem witness_HostReadsHaveNoSideEffect :
    (waiting (.readReg 6)).inputs = .readReg 6 :: [] ∧ regRead 6 (waiting (.readReg 6)) = some 0
      ∧ (waiting (.readByte .aad 65278)).inputs = .readByte .aad 65278 :: []
      ∧ inSpace Config.params .aad 65278 = true :=
  ⟨rfl, rfl, rfl, rfl⟩

/-- REG index 8 and the byte after each of the last bytes of NONCE and TAG_IN are outside. -/
theorem witness_OutOfRangeAccessRefused :
    7 < 8 ∧ (waiting (.writeReg 8 0)).inputs = .writeReg 8 0 :: []
      ∧ (waiting (.readReg 8)).inputs = .readReg 8 :: []
      ∧ inSpace Config.params .nonce 13 = false ∧ (waiting (.writeByte .nonce 13 0)).inputs = .writeByte .nonce 13 0 :: []
      ∧ inSpace Config.params .tagIn 16 = false ∧ (waiting (.readByte .tagIn 16)).inputs = .readByte .tagIn 16 :: [] :=
  ⟨by decide, rfl, rfl, rfl, rfl, rfl, rfl⟩

theorem witness_ByteWriteThenReadBack :
    (waiting (.writeByte .key 31 0xAB)).phase = .idle ∧ (waiting (.writeByte .key 31 0xAB)).port = none
      ∧ (waiting (.writeByte .key 31 0xAB)).inputs = .writeByte .key 31 0xAB :: [] ∧ hostWritable .key = true
      ∧ inSpace Config.params .key 31 = true
      ∧ Memory.wf .key ((waiting (.writeByte .key 31 0xAB)).buffer .key) :=
  ⟨rfl, rfl, rfl, rfl, rfl, wf_nil _⟩

theorem witness_LoadStatementLoads :
    ({ State.reset with inputs := hostLd .nonce [1, 2, 3] } : State).inputs = hostLd .nonce [1, 2, 3]
      ∧ hostWritable .nonce = true ∧ (∀ i < 3, inSpace Config.params .nonce i = true)
      ∧ Memory.wf .nonce (({ State.reset with inputs := hostLd .nonce [1, 2, 3] } : State).buffer .nonce) :=
  ⟨rfl, rfl, fun i hi => decide_eq_true (show i + 1 ≤ 13 by omega), wf_nil _⟩

/-- CMD writes of each kind: CommandResultByPriority. -/
theorem witness_CommandResultByPriority (w : Word) :
    (waiting (.writeReg 0 w)).phase = .idle ∧ (waiting (.writeReg 0 w)).port = none
      ∧ (waiting (.writeReg 0 w)).inputs = .writeReg 0 w :: [] := ⟨rfl, rfl, rfl⟩

theorem witness_ReservedWordOnlySetsStatus :
    (waiting (.writeReg 0 0xFFFFFFFF#32)).inputs = .writeReg 0 0xFFFFFFFF#32 :: []
      ∧ 0xFFFFFFFF#32 ≠ 0x00000001#32 ∧ 0xFFFFFFFF#32 ≠ 0x00000002#32 ∧ 0xFFFFFFFF#32 ≠ 0x00000010#32
      ∧ 0xFFFFFFFF#32 ≠ 0x00000011#32 := by decide

/-- A phase that raises: VALIDATE with the reset registers (R21: KEY_BITS = 0 is InvalidKeyLength). -/
theorem witness_FailureExitEffect :
    phaseOp Config.params .ccmEnc .validate (State.reset.enter .ccmEnc .validate) =
      .raise .invalidKeyLength (State.reset.enter .ccmEnc .validate) := by decide

/-- The two ends of the legal ranges of t and n. -/
theorem witness_FlagsByteFields :
    (4 ≤ 4 ∧ 4 ≤ 16 ∧ 4 % 2 = 0 ∧ 7 ≤ 7 ∧ 7 ≤ 13) ∧ 4 ≤ 16 ∧ 16 ≤ 16 ∧ 16 % 2 = 0 ∧ 7 ≤ 13 ∧ 13 ≤ 13 := by decide

theorem witness_LengthFieldIsBigEndian :
    (2 ≤ 2 ∧ 2 ≤ 8 ∧ 16 ≤ (zeros 16).length) ∧ 2 ≤ 8 ∧ 8 ≤ 8 ∧ 16 ≤ (zeros 32).length := by decide

/-- After a CCM_DEC's CTR pass: `ctr_out` has its 16 bytes. -/
def recovered : State := { ready with ctrOut := some (zeros 16) }

theorem witness_AsmCbcmacBuildsItsInput :
    recovered.legalTag ∧ recovered.legalNonce ∧ recovered.legalAad ∧ recovered.legalMsg
      ∧ fits Config.params recovered = true ∧ sourceExists .msgIn recovered = true
      ∧ sourceExists .recovered recovered = true :=
  ⟨by decide, by decide, by decide, by decide, fits_empty _ rfl rfl, rfl, by decide⟩

theorem witness_AadAndMessagePositions :
    (7 ≤ (zeros 7).length ∧ (zeros 7).length ≤ 13) ∧ 7 ≤ (zeros 13).length ∧ (zeros 13).length ≤ 13
      ∧ (zeros 15).length > 0 ∧ 18 + (zeros 15).length ≤ 33 ∧ 33 < 16 * (1 + aadBlocks (zeros 15).length)
      ∧ 16 * (1 + aadBlocks 0) + 1 ≤ 17 ∧ 17 < 16 * cbcBlocks 1 0 := by decide

/-- After a CCM_ENC's CBC pass: `cbc_out` has its one block. -/
def chained : State := { ready with cbcOut := some (zeros 16) }

theorem witness_AsmCtrEncBuildsItsInput :
    fits Config.params chained = true ∧ chained.cbcOut = some (zeros 16)
      ∧ (zeros 16).length = 16 * chained.cbcBlocks :=
  ⟨fits_empty _ rfl rfl, rfl, by decide⟩

theorem witness_AsmCtrDecBuildsItsInput : ready.legalTag ∧ fits Config.params ready = true :=
  ⟨by decide, fits_empty _ rfl rfl⟩

theorem witness_BuildCtrIvBuildsTheIv : ready.legalNonce := by decide

/-- One state for each stop: after reset nothing is legal; `ready` has no working buffer. -/
theorem witness_InternalOperationsStopWithoutOperands :
    ¬ State.reset.legalNonce
      ∧ ¬ (State.reset.legalTag ∧ State.reset.legalNonce ∧ State.reset.legalAad ∧ State.reset.legalMsg)
      ∧ (ready.legalTag ∧ ready.legalNonce ∧ ready.legalAad ∧ ready.legalMsg ∧ fits Config.params ready = true
          ∧ ready.hasWork .ctrOut = false)
      ∧ (fits Config.params ready = true ∧ ready.hasWork .cbcOut = false) ∧ ¬ State.reset.legalTag :=
  ⟨by decide, by decide, ⟨by decide, by decide, by decide, by decide, fits_empty _ rfl rfl, rfl⟩,
    ⟨fits_empty _ rfl rfl, rfl⟩, by decide⟩

/-- The next request is answered OK: CIPH_INIT and CIPH_SET_KEY. -/
theorem witness_request_answered : statusAt Config.params ready 0 = .ok := rfl

/-- A key set up in CBC or CTR mode. -/
def keyed (m : Mode) : State :=
  { ready with context := ⟨some m, some ⟨.key128, .encrypt, zeros 16, zeros 16⟩, true⟩ }

theorem witness_CiphEncryptUnderContract :
    (∀ m, statusAt Config.params (keyed m) 0 = .ok
        ∧ (keyed m).context = ⟨some m, some ⟨.key128, .encrypt, zeros 16, zeros 16⟩, true⟩)
      ∧ (⟨.key128, .encrypt, zeros 16, zeros 16⟩ : SetKey).wf = true ∧ (zeros 32).length % 16 = 0 :=
  ⟨fun _ => ⟨rfl, rfl⟩, by decide, by decide⟩

/-- The same, after a first CIPH_ENCRYPT used the key. -/
def used (m : Mode) : State :=
  { ready with context := ⟨some m, some ⟨.key128, .encrypt, zeros 16, zeros 16⟩, false⟩ }

/-- Outside the contract: no key, no mode, ECB, and in every mode a second CIPH_ENCRYPT or a partial block. -/
theorem witness_CiphEncryptOutsideContract :
    (statusAt Config.params ready 0 = .ok ∧ ready.context.contract (zeros 16) = none ∧ ready.context.mode = none)
      ∧ (statusAt Config.params (keyed .ecb) 0 = .ok ∧ (keyed .ecb).context.mode = some .ecb)
      ∧ (∀ m, statusAt Config.params (used m) 0 = .ok ∧ (used m).context.contract (zeros 16) = none
          ∧ (used m).context.mode = some m)
      ∧ ∀ m, statusAt Config.params (keyed m) 0 = .ok ∧ (keyed m).context.contract (zeros 17) = none :=
  ⟨⟨rfl, rfl, rfl⟩, ⟨rfl, rfl⟩, fun _ => ⟨rfl, rfl, rfl⟩, fun _ => ⟨rfl, rfl⟩⟩

/-- One request of each kind, answered Error. -/
theorem witness_PortErrorEndsTheCommand :
    statusAt Config.params failing 0 = .error
      ∧ (∃ m, Instr.ciphInit .cbc = .ciphInit m ∧ PortRequest.init .cbc = .init m)
      ∧ (∃ k, Instr.ciphSetKey ⟨.key128, .encrypt, zeros 16, zeros 16⟩ = .ciphSetKey k
          ∧ PortRequest.setKey ⟨.key128, .encrypt, zeros 16, zeros 16⟩ = .setKey k)
      ∧ ∃ input, Instr.ciphEncrypt (zeros 16) = .ciphEncrypt input ∧ PortRequest.encrypt (zeros 16) = .encrypt input :=
  ⟨rfl, ⟨_, rfl, rfl⟩, ⟨_, rfl, rfl⟩, ⟨_, rfl, rfl⟩⟩

/-- An IV of 16 bytes and two blocks: CBC and CTR. -/
theorem witness_modes : (zeros 16).length = 16 ∧ (zeros 32).length % 16 = 0 := by decide

/-- The largest message of q = 2 at its last block, and an empty one of q = 8. -/
theorem witness_CounterStaysInItsField :
    (7 ≤ (zeros 13).length ∧ (zeros 13).length ≤ 13 ∧ 65535 < 2 ^ (8 * (15 - (zeros 13).length))
        ∧ 4096 < ctrBlocks 65535)
      ∧ 7 ≤ (zeros 7).length ∧ (zeros 7).length ≤ 13 ∧ 0 < 2 ^ (8 * (15 - (zeros 7).length))
      ∧ 0 < ctrBlocks 0 := by decide

/-- E(key, block) = block: injective for every key (L2.16's kind of E). -/
def identityParams : Params := ⟨fun _ b => b, fun _ => .ok, fun _ _ => 0, fun _ _ _ => 0, none, none⟩

/-- Lengths of a message of `m` bytes with a tag of `t` bytes, with the bytes of message and tag. -/
def message (m t : Word) (msg tag : Bytes) : State :=
  { operands 128 t 13 0 m with msgIn := memWriteBytes .msgIn 0 msg [], tagIn := memWriteBytes .tagIn 0 tag [] }

/-- Every request is answered OK in a state without scripted answers. -/
theorem answers_identity (s : State) (h : s.answers = []) : allAnswersOk identityParams s := by
  intro k _
  rw [statusAt, h]
  simp [identityParams]

/-- Under E = identity, the message byte 05 with t = 4: CCM_ENC gives ciphertext 04 and tag 0D 00 00 00. -/
theorem witness_DecryptRecoversThePlaintext :
    (runCommand identityParams .ccmEnc (message 1 4 [5] [])).failed = false
      ∧ sameRegisters (message 1 4 [5] []) (message 1 4 [4] [0x0D])
      ∧ keyOperand identityParams (message 1 4 [4] [0x0D]) = keyOperand identityParams (message 1 4 [5] [])
      ∧ nonceOperand identityParams (message 1 4 [4] [0x0D]) = nonceOperand identityParams (message 1 4 [5] [])
      ∧ aadOperand identityParams (message 1 4 [4] [0x0D]) = aadOperand identityParams (message 1 4 [5] [])
      ∧ (∀ i < (message 1 4 [5] []).msgLength, outByte (runCommand identityParams .ccmEnc (message 1 4 [5] [])) .msgOut i
          = some (byteAt identityParams (message 1 4 [4] [0x0D]) .msgIn i))
      ∧ (∀ i < (message 1 4 [5] []).tagLength, outByte (runCommand identityParams .ccmEnc (message 1 4 [5] [])) .tagOut i
          = some (byteAt identityParams (message 1 4 [4] [0x0D]) .tagIn i))
      ∧ allAnswersOk identityParams (message 1 4 [4] [0x0D]) :=
  ⟨by decide +kernel, fun r => by cases r <;> rfl, rfl, rfl, rfl, by decide +kernel, by decide +kernel,
    answers_identity _ rfl⟩

theorem witness_TagTamperingDetected :
    (runCommand identityParams .ccmDec (message 1 4 [4] [0x0D])).failed = false
      ∧ agreeOnOperands identityParams (message 1 4 [4] [0x0D]) (message 1 4 [4] [0x0C])
      ∧ tagOperand identityParams (message 1 4 [4] [0x0C]) ≠ tagOperand identityParams (message 1 4 [4] [0x0D])
      ∧ allAnswersOk identityParams (message 1 4 [4] [0x0C]) :=
  ⟨by decide +kernel, ⟨fun r => by cases r <;> rfl, rfl, rfl, rfl, rfl⟩, by decide +kernel, answers_identity _ rfl⟩

/-- The tag that verifies 32 bytes of 0 as ciphertext under E = identity and t = 16. -/
def identityTag : Bytes := [0x38, 0, 0, 0, 0, 0, 0, 0, 0, 0, 0, 0, 0, 0, 0, 0x23]

/-- Byte 0, in block 0, changed: meets the premises of OneBlockTamperingDetected and AnyMessageTamperingDetected. -/
theorem witness_MessageTampering :
    (∀ key, Function.Injective (identityParams.blockCipher key)) ∧ (message 32 16 [] identityTag).tagLength = 16
      ∧ agreeOnOperands identityParams (message 32 16 [] identityTag) (message 32 16 [] identityTag)
      ∧ sameRegisters (message 32 16 [] identityTag) (message 32 16 [1] identityTag)
      ∧ keyOperand identityParams (message 32 16 [1] identityTag) = keyOperand identityParams (message 32 16 [] identityTag)
      ∧ nonceOperand identityParams (message 32 16 [1] identityTag) = nonceOperand identityParams (message 32 16 [] identityTag)
      ∧ aadOperand identityParams (message 32 16 [1] identityTag) = aadOperand identityParams (message 32 16 [] identityTag)
      ∧ tagOperand identityParams (message 32 16 [1] identityTag) = tagOperand identityParams (message 32 16 [] identityTag)
      ∧ (∀ i < (message 32 16 [] identityTag).msgLength, i / 16 ≠ 0 →
          byteAt identityParams (message 32 16 [1] identityTag) .msgIn i
            = byteAt identityParams (message 32 16 [] identityTag) .msgIn i)
      ∧ msgOperand identityParams (message 32 16 [1] identityTag) ≠ msgOperand identityParams (message 32 16 [] identityTag)
      ∧ allAnswersOk identityParams (message 32 16 [1] identityTag)
      ∧ (runCommand identityParams .ccmDec (message 32 16 [] identityTag)).failed = false :=
  ⟨fun _ _ _ h => h, rfl, ⟨fun _ => rfl, rfl, rfl, rfl, rfl⟩, fun r => by cases r <;> rfl, rfl, rfl, rfl, rfl,
    by decide +kernel, by decide +kernel, answers_identity _ rfl, by decide +kernel⟩

/-- Two states that differ in BLOCKS, STATUS and a working buffer agree on the operands and the answers. -/
theorem witness_CommandDependsOnlyOnOperands :
    agreeOnOperands Config.params ready { ready with blocks := 7, status := 0x17, bInput := some [1] }
      ∧ tagOperand Config.params { ready with blocks := 7, status := 0x17, bInput := some [1] } = tagOperand Config.params ready
      ∧ ∀ k < 6, statusAt Config.params { ready with blocks := 7, status := 0x17, bInput := some [1] } k
          = statusAt Config.params ready k :=
  ⟨⟨fun r => by cases r <;> rfl, rfl, rfl, rfl, rfl⟩, rfl, fun _ _ => rfl⟩

theorem witness_PhaseByPhaseRunIsTheCommand : ready.inputs = [] ∧ ready.port = none := by decide

/-- An operation that answers a next state: the frame statements. -/
theorem witness_frames : ∃ t, exec .cbcSize ready = .next t := ⟨_, rfl⟩

theorem witness_internal_frames :
    (∃ t, exec .buildCtrIv ready = .next t) ∧ (∃ t, exec .asmCtrDec ready = .next t) := by
  refine ⟨⟨_, rfl⟩, asmCtrDecOp Config.params ready, ?_⟩
  show execAsmCtrDec ready = _
  rw [execAsmCtrDec, if_neg (by decide), if_neg (by rw [fits_empty ready rfl rfl]; decide)]

/-- The invariant is met, and a step answers, in the idle engine with a CMD write waiting. -/
theorem witness_StepKeepsTheInvariant :
    Inv (waiting (.writeReg 0 0x00000010#32))
      ∧ step (waiting (.writeReg 0 0x00000010#32)) = .next (sizeCbc State.reset).endCommand := by
  refine ⟨⟨fun sp => ?_, ⟨by decide, by decide, fun _ => rfl⟩, ⟨by decide, fun _ b => by cases b <;> rfl⟩, rfl⟩, ?_⟩
  · have h : (waiting (.writeReg 0 0x00000010#32)).buffer sp = [] := by cases sp <;> rfl
    rw [h]
    exact ⟨wf_nil _, fun c hc => absurd hc (List.not_mem_nil)⟩
  · rw [step_host (by decide) rfl rfl]
    rfl

end Sys2Proof.Tests
end

section
/-! # What the engine never changes

The frame of the engine's operations: operands, BLOCKS and surroundings. One rule per update of State, one lemma
per shared operation, one induction over a list of phases; the statements about single operations follow. -/

namespace Sys2Proof.Machine

/-- The state an operation inside a command leads to, whether it goes on or raises. -/
def Flow.state : Flow → State
  | .ok s => s
  | .raise _ s => s

@[simp] theorem Flow.state_ok (s : State) : (Flow.ok s).state = s := rfl
@[simp] theorem Flow.state_raise (r : Result) (s : State) : (Flow.raise r s).state = s := rfl

/-- What no operation of a CCM command changes: operand registers and operand buffers, BLOCKS, the surroundings and
STATUS[31:5] (R11, R13 to R15). -/
structure EngineFrame (s t : State) : Prop where
  registers : sameRegisters s t
  operandBuffer : ∀ sp, hostWritable sp = true → t.buffer sp = s.buffer sp
  epoch : t.epoch = s.epoch
  blocks : t.blocks = s.blocks
  inputs : t.inputs = s.inputs
  replies : t.replies = s.replies
  port : t.port = s.port
  statusHigh : ∀ i, 5 ≤ i → t.status.getLsbD i = s.status.getLsbD i

/-! ## The STATUS writes, one at a time -/

theorem getLsbD_withDone (w : Word) {i : Nat} (h : 5 ≤ i) : (withDone w).getLsbD i = w.getLsbD i := by
  have hmask : (0x00000010#32).getLsbD i = false := by
    rw [BitVec.getLsbD, Nat.testBit_eq_false_of_lt]
    exact Nat.lt_of_lt_of_le (show 16 < 2 ^ 5 by decide) (Nat.pow_le_pow_right (by decide) h)
  rw [withDone, BitVec.getLsbD_or, hmask, Bool.or_false]

theorem getLsbD_withResult (w : Word) (r : Result) {i : Nat} (h : 5 ≤ i) :
    (withResult w r).getLsbD i = w.getLsbD i :=
  (getLsbD_withDone (withResult w r) h).symm.trans (status_high w r i h)

/-! ## The rule of each update -/

theorem EngineFrame.refl (s : State) : EngineFrame s s := by constructor <;> simp [sameRegisters]

theorem EngineFrame.trans {s t u : State} (h : EngineFrame s t) (k : EngineFrame t u) : EngineFrame s u where
  registers r := (k.registers r).trans (h.registers r)
  operandBuffer sp hsp := (k.operandBuffer sp hsp).trans (h.operandBuffer sp hsp)
  epoch := k.epoch.trans h.epoch
  blocks := k.blocks.trans h.blocks
  inputs := k.inputs.trans h.inputs
  replies := k.replies.trans h.replies
  port := k.port.trans h.port
  statusHigh i hi := (k.statusHigh i hi).trans (h.statusHigh i hi)

theorem setPhase_frame (s : State) (p : Phase) : EngineFrame s (s.setPhase p) := by
  constructor <;> simp [sameRegisters]

theorem endCommand_frame (s : State) : EngineFrame s s.endCommand := by constructor <;> simp [sameRegisters]

theorem enter_frame (s : State) (c : Command) (p : Phase) : EngineFrame s (s.enter c p) := by
  constructor <;> simp [sameRegisters]

theorem setWork_frame (s : State) (b : WorkBuffer) (bytes : Bytes) : EngineFrame s (s.setWork b bytes) := by
  constructor <;> simp [sameRegisters]

theorem setContext_frame (s : State) (ctx : CipherContext) : EngineFrame s (s.setContext ctx) := by
  constructor <;> simp [sameRegisters]

theorem record_frame (s : State) (e : PortEvent) : EngineFrame s (s.record e) := by
  constructor <;> simp [sameRegisters]

theorem discardWork_frame (s : State) : EngineFrame s s.discardWork := by constructor <;> simp [sameRegisters]

theorem clearOutputs_frame (s : State) : EngineFrame s s.clearOutputs := by
  constructor <;> simp +contextual [sameRegisters]

theorem setDone_frame (s : State) : EngineFrame s s.setDone := by
  constructor <;> simp +contextual [sameRegisters, getLsbD_withDone]

theorem setResult_frame (s : State) (r : Result) : EngineFrame s (s.setResult r) := by
  constructor <;> simp +contextual [sameRegisters, getLsbD_withResult]

theorem failureExit_frame (r : Result) (s : State) : EngineFrame s (failureExit r s) := by
  constructor <;> simp +contextual [sameRegisters, status_high]

/-- A write into an output buffer. -/
theorem setBuffer_frame (s : State) {sp : Space} (m : List Host.Cell) (h : hostWritable sp = false) :
    EngineFrame s (s.setBuffer sp m) where
  registers := by simp [sameRegisters]
  operandBuffer sq hsq := by
    have hne : sq ≠ sp := by rintro rfl; simp [h] at hsq
    simp [hne]
  epoch := by simp
  blocks := by simp
  inputs := by simp
  replies := by simp
  port := by simp
  statusHigh := by simp

/-! ## The shared operations -/

theorem storeOutput_frame (s : State) (r : PortRequest) (out : Bytes) : EngineFrame s (storeOutput s r out) := by
  unfold storeOutput
  split
  · exact setWork_frame ..
  · exact .refl s

theorem ciph_frame (P : Params) (r : PortRequest) (s : State) : EngineFrame s (ciph P r s).state := by
  cases h : statusAt P s 0 with
  | ok =>
    rw [ciph_ok h]
    exact ((record_frame ..).trans (storeOutput_frame ..)).trans (setContext_frame ..)
  | error =>
    rw [ciph_error h]
    exact (record_frame ..).trans (setContext_frame ..)

theorem validateOp_state (s : State) : (validateOp s).state = s.setPhase .validate := by
  unfold validateOp
  split <;> rfl

theorem compareOp_state (s : State) : (compareOp s).state = s := by
  unfold compareOp
  split <;> rfl

theorem allocOp_frame (P : Params) (s : State) : EngineFrame s (allocOp P s).state := by
  unfold allocOp
  split
  · constructor <;> simp [sameRegisters]
  · exact .refl s

theorem asmCbcmacOp_frame (P : Params) (source : MsgSource) (s : State) : EngineFrame s (asmCbcmacOp P source s) :=
  (setPhase_frame ..).trans (setWork_frame ..)

theorem asmCtrEncOp_frame (P : Params) (s : State) : EngineFrame s (asmCtrEncOp P s) :=
  (setPhase_frame ..).trans (setWork_frame ..)

theorem asmCtrDecOp_frame (P : Params) (s : State) : EngineFrame s (asmCtrDecOp P s) :=
  (setPhase_frame ..).trans (setWork_frame ..)

theorem buildCtrIvOp_frame (P : Params) (s : State) : EngineFrame s (buildCtrIvOp P s) :=
  (setPhase_frame ..).trans (setWork_frame ..)

theorem asmCtrOp_frame (P : Params) (c : Command) (s : State) : EngineFrame s (asmCtrOp P c s) := by
  cases c with
  | ccmEnc => exact asmCtrEncOp_frame P s
  | ccmDec => exact asmCtrDecOp_frame P s
  | cbcSize | ctrSize => exact .refl s

theorem releaseMessage_frame (s : State) : EngineFrame s (releaseMessage s) := setBuffer_frame s _ rfl

theorem releaseTag_frame (s : State) : EngineFrame s (releaseTag s) := setBuffer_frame s _ rfl

theorem outputOp_frame (c : Command) (s : State) : EngineFrame s (outputOp c s) := by
  cases c with
  | ccmEnc => exact ((releaseTag_frame s).trans (releaseMessage_frame _)).trans (setResult_frame ..)
  | ccmDec => exact (releaseMessage_frame s).trans (setResult_frame ..)
  | cbcSize | ctrSize => exact .refl s

theorem freeOp_frame (s : State) : EngineFrame s (freeOp s) := (discardWork_frame s).trans (setDone_frame _)

theorem settle_frame {s : State} {fl : Flow} (h : EngineFrame s fl.state) : EngineFrame s (settle fl) := by
  cases fl with
  | ok t => exact h
  | raise r t => exact h.trans (failureExit_frame r t)

/-! ## The phases and the commands -/

/-- Every phase but SIZE keeps the frame. -/
theorem phaseOp_frame (P : Params) (c : Command) {p : Phase} (s : State) (hp : p ≠ .size) :
    EngineFrame s (phaseOp P c p s).state := by
  cases p with
  | idle | recover => exact .refl s
  | clearOut => exact clearOutputs_frame s
  | validate => exact validateOp_state s ▸ setPhase_frame ..
  | alloc => exact allocOp_frame P s
  | asmCbc => exact asmCbcmacOp_frame ..
  | cbcInit | cbcKey | cbcRun | ctrInit | ctrKey | ctrRun => exact ciph_frame ..
  | ctrIv => exact buildCtrIvOp_frame P s
  | asmCtr => exact asmCtrOp_frame P c s
  | compare => exact (compareOp_state s).symm ▸ .refl s
  | output => exact outputOp_frame c s
  | free => exact freeOp_frame s
  | size => exact absurd rfl hp

/-- What holds before a list of phases and is kept by each of them, by the failure exit and by the end of the
command, holds after it. -/
theorem runPhases_keeps {P : Params} {c : Command} {Q : State → Prop} {ps : List Phase}
    (hphase : ∀ p ∈ ps, ∀ s, Q s → Q (phaseOp P c p (s.enter c p)).state)
    (hfail : ∀ r s, Q s → Q (failureExit r s)) (hend : ∀ s, Q s → Q s.endCommand) {s : State} (hs : Q s) :
    Q (runPhases P c ps s) := by
  induction ps generalizing s with
  | nil => exact hend s hs
  | cons p ps ih =>
    have hstep := hphase p (by simp) s hs
    cases h : phaseOp P c p (s.enter c p) with
    | ok t =>
      rw [h] at hstep
      rw [runPhases_ok h]
      exact ih (fun q hq => hphase q (by simp [hq])) hstep
    | raise r t =>
      rw [h] at hstep
      rw [runPhases_raise h]
      exact hfail r t hstep

theorem runPhases_frame (P : Params) (c : Command) {ps : List Phase} (s : State) (hps : .size ∉ ps) :
    EngineFrame s (runPhases P c ps s) := by
  apply runPhases_keeps (Q := EngineFrame s) _ (fun r t h => h.trans (failureExit_frame r t))
    (fun t h => h.trans (endCommand_frame t)) (.refl s)
  intro p hp t h
  have hne : p ≠ .size := by rintro rfl; exact hps hp
  exact (h.trans (enter_frame t c p)).trans (phaseOp_frame P c _ hne)

/-- The two commands that run the primitive. -/
def Command.isCcm : Command → Bool
  | .ccmEnc => true
  | .ccmDec => true
  | .cbcSize => false
  | .ctrSize => false

theorem size_notMem_phasesOf {c : Command} (hc : c.isCcm = true) : .size ∉ phasesOf c := by
  cases c with
  | ccmEnc | ccmDec => decide
  | cbcSize | ctrSize => cases hc

theorem runCommand_frame (P : Params) {c : Command} (s : State) (hc : c.isCcm = true) :
    EngineFrame s (runCommand P c s) :=
  runPhases_frame P c s (size_notMem_phasesOf hc)

/-! ## Where the internal operations run, and what they lead to -/

/-- A stop in front of an operation: it goes on where the stop's condition fails. -/
theorem stop_eq_next {p : Prop} [Decidable p] {f : Fault} {o : Host.Outcome State Fault Refusal} {t : State} :
    (if p then .fault f else o) = .next t ↔ ¬ p ∧ o = .next t := by
  by_cases h : p <;> simp [h]

theorem execAsmCbcmac_eq_next {source : MsgSource} {s t : State} :
    execAsmCbcmac source s = .next t ↔
      assemblyLegal s ∧ fits Config.params s = true ∧ sourceExists source s = true
        ∧ asmCbcmacOp Config.params source s = t := by
  rw [execAsmCbcmac, stop_eq_next, stop_eq_next, stop_eq_next, not_not, Bool.not_eq_false, Bool.not_eq_false,
    Host.Outcome.next.injEq]

theorem execAsmCtrEnc_eq_next {s t : State} :
    execAsmCtrEnc s = .next t ↔
      fits Config.params s = true ∧ s.hasWork .cbcOut = true ∧ asmCtrEncOp Config.params s = t := by
  rw [execAsmCtrEnc, stop_eq_next, stop_eq_next, Bool.not_eq_false, Bool.not_eq_false, Host.Outcome.next.injEq]

theorem execAsmCtrDec_eq_next {s t : State} :
    execAsmCtrDec s = .next t ↔
      s.legalTag ∧ fits Config.params s = true ∧ asmCtrDecOp Config.params s = t := by
  rw [execAsmCtrDec, stop_eq_next, stop_eq_next, not_not, Bool.not_eq_false, Host.Outcome.next.injEq]

theorem execBuildCtrIv_eq_next {s t : State} :
    execBuildCtrIv s = .next t ↔ s.legalNonce ∧ buildCtrIvOp Config.params s = t := by
  rw [execBuildCtrIv, stop_eq_next, not_not, Host.Outcome.next.injEq]

/-- Where the internal operations go on, they lead to their phase's state. -/
theorem asmCbcmac_of_exec {source : MsgSource} {s t : State} (h : exec (.asmCbcmac source) s = .next t) :
    asmCbcmacOp Config.params source s = t := by
  obtain ⟨-, -, -, ht⟩ := execAsmCbcmac_eq_next.mp h
  exact ht

theorem asmCtrEnc_of_exec {s t : State} (h : exec .asmCtrEnc s = .next t) : asmCtrEncOp Config.params s = t := by
  obtain ⟨-, -, ht⟩ := execAsmCtrEnc_eq_next.mp h
  exact ht

theorem asmCtrDec_of_exec {s t : State} (h : exec .asmCtrDec s = .next t) : asmCtrDecOp Config.params s = t := by
  obtain ⟨-, -, ht⟩ := execAsmCtrDec_eq_next.mp h
  exact ht

theorem buildCtrIv_of_exec {s t : State} (h : exec .buildCtrIv s = .next t) : buildCtrIvOp Config.params s = t := by
  obtain ⟨-, ht⟩ := execBuildCtrIv_eq_next.mp h
  exact ht

/-- Every operation but the size commands keeps the frame. -/
theorem exec_frame {i : Instr} {s t : State} (h : exec i s = .next t) (hcbc : i ≠ .cbcSize) (hctr : i ≠ .ctrSize) :
    EngineFrame s t := by
  cases i with
  | ccmEnc => cases h; exact runCommand_frame _ s rfl
  | ccmDec => cases h; exact runCommand_frame _ s rfl
  | cbcSize => exact absurd rfl hcbc
  | ctrSize => exact absurd rfl hctr
  | ciphInit mode => cases h; exact settle_frame (ciph_frame ..)
  | ciphSetKey setup => cases h; exact settle_frame (ciph_frame ..)
  | ciphEncrypt input => cases h; exact settle_frame (ciph_frame ..)
  | validate => cases h; exact settle_frame (validateOp_state s ▸ setPhase_frame ..)
  | asmCbcmac source => exact asmCbcmac_of_exec h ▸ asmCbcmacOp_frame ..
  | asmCtrEnc => exact asmCtrEnc_of_exec h ▸ asmCtrEncOp_frame ..
  | asmCtrDec => exact asmCtrDec_of_exec h ▸ asmCtrDecOp_frame ..
  | buildCtrIv => exact buildCtrIv_of_exec h ▸ buildCtrIvOp_frame ..

/-- The size commands keep the frame, BLOCKS aside. -/
theorem sizeCbc_frame (s : State) : EngineFrame (s.setBlocks s.cbcBlocks) (sizeCbc s).endCommand := by
  constructor <;> simp +contextual [sizeCbc, sameRegisters, status_high]

theorem sizeCtr_frame (s : State) : EngineFrame (s.setBlocks s.ctrBlocks) (sizeCtr s).endCommand := by
  constructor <;> simp +contextual [sizeCtr, sameRegisters, status_high]

/-! ## The operands and BLOCKS (O50, O51) -/

theorem EngineFrame.sameOperands {s t : State} (h : EngineFrame s t) : sameOperands s t :=
  ⟨h.registers, h.epoch, fun i => congrArg (memRead .key i) (h.operandBuffer .key rfl),
    fun i => congrArg (memRead .nonce i) (h.operandBuffer .nonce rfl),
    fun i => congrArg (memRead .aad i) (h.operandBuffer .aad rfl),
    fun i => congrArg (memRead .msgIn i) (h.operandBuffer .msgIn rfl),
    fun i => congrArg (memRead .tagIn i) (h.operandBuffer .tagIn rfl)⟩

theorem sameOperands_setBlocks {s t : State} {n : Nat} (h : sameOperands (s.setBlocks n) t) : sameOperands s t := by
  simpa [sameOperands, sameRegisters, sameBytes] using h

/-- Settles O50: the size commands keep the frame but for BLOCKS, every other operation keeps all of it. -/
theorem engineNeverWritesOperands : Obligations.EngineNeverWritesOperands := by
  intro i s t h
  by_cases hcbc : i = .cbcSize
  · subst hcbc; cases h
    exact sameOperands_setBlocks (sizeCbc_frame s).sameOperands
  by_cases hctr : i = .ctrSize
  · subst hctr; cases h
    exact sameOperands_setBlocks (sizeCtr_frame s).sameOperands
  exact (exec_frame h hcbc hctr).sameOperands

theorem sameBytes_of_buffer_eq {sp : Space} {s t : State} (h : t.buffer sp = s.buffer sp) : sameBytes sp s t :=
  fun i => congrArg (memRead sp i) h

/-- The size commands, the assemblers and the IV builder keep every buffer. -/
theorem exec_buffer {i : Instr} {s t : State} (h : exec i s = .next t)
    (hi : i = .cbcSize ∨ i = .ctrSize ∨ (∃ source, i = .asmCbcmac source) ∨ i = .asmCtrEnc ∨ i = .asmCtrDec
      ∨ i = .buildCtrIv) (sp : Space) : t.buffer sp = s.buffer sp := by
  rcases hi with rfl | rfl | ⟨source, rfl⟩ | rfl | rfl | rfl
  · cases h; simp [sizeCbc]
  · cases h; simp [sizeCtr]
  · rw [← asmCbcmac_of_exec h]; simp [asmCbcmacOp]
  · rw [← asmCtrEnc_of_exec h]; simp [asmCtrEncOp]
  · rw [← asmCtrDec_of_exec h]; simp [asmCtrDecOp]
  · rw [← buildCtrIv_of_exec h]; simp [buildCtrIvOp]

/-- Settles O51: BLOCKS is in the frame of every other operation; what runs no cipher request keeps the outputs. -/
theorem onlySizeCommandsWriteBlocks : Obligations.OnlySizeCommandsWriteBlocks := fun _ _ _ h =>
  ⟨fun hcbc hctr => (exec_frame h hcbc hctr).blocks,
    fun hi => ⟨sameBytes_of_buffer_eq (exec_buffer h hi .msgOut), sameBytes_of_buffer_eq (exec_buffer h hi .tagOut)⟩⟩

end Sys2Proof.Machine
end

section
/-! # Whose turn it is, and what a phase does there

The host's accesses, the reset state, and the sequencer's turn: the operation of the opcode table that a phase
names is the phase itself, so one lemma says what a step inside a command leads to. -/

namespace Sys2Proof.Machine

/-! ## The host's turn -/

/-- The next access is performed, and consumed. -/
theorem step_access {s : State} {a : Input} {rest : List Input} (hi : s.phase = .idle) (hp : s.port = none)
    (hin : s.inputs = a :: rest) (ha : a ≠ .reset) :
    step s = access Config.params a { s with inputs := rest } := by
  rw [step_host (by simpa [hin] using ha) hp hi, hostTurn, hin]

/-- Settles O5. -/
theorem stepRunsTheDecodedCommand : Obligations.StepRunsTheDecodedCommand := by
  intro s w rest i hi hp hin hw
  calc step s = regWrite 0 w { s with inputs := rest } := step_access hi hp hin nofun
    _ = exec i { s with inputs := rest } := by rw [regWrite, if_pos rfl, commandWrite, hw]

theorem regWrite_operand (r : OperandReg) (w : Word) (s : State) :
    regWrite (operandIndex r) w s = .next (s.setOperand r w) := by
  cases r <;> rfl

theorem regRead_operandIndex (r : OperandReg) (s : State) : regRead (operandIndex r) s = some (s.operand r) := by
  cases r <;> rfl

theorem operandIndex_of_operandAt {k : Nat} {r : OperandReg} (h : operandAt k = some r) : operandIndex r = k := by
  cases r <;> grind [operandAt, operandIndex]

/-- A write of an operand register changes what its own index reads, and no other. -/
theorem regRead_setOperand_of_ne {r : OperandReg} {k : Nat} (w : Word) (s : State) (h : k ≠ operandIndex r) :
    regRead k (s.setOperand r w) = regRead k s := by
  unfold regRead
  rw [setOperand_status, setOperand_blocks]
  cases hk : operandAt k with
  | none => rfl
  | some q =>
    have hne : q ≠ r := by
      rintro rfl
      exact h (operandIndex_of_operandAt hk).symm
    simp [hne]

/-- Settles O11. -/
theorem operandRegistersReadBack : Obligations.OperandRegistersReadBack := by
  intro s r w rest hi hp hin
  refine ⟨({ s with inputs := rest } : State).setOperand r w, ?_, rfl, ?_, fun k hk => ?_, fun sp => ?_⟩
  · rw [step_access hi hp hin nofun]
    exact regWrite_operand r w _
  · rw [regRead_operandIndex, setOperand_operand, if_pos rfl]
  · exact regRead_setOperand_of_ne w { s with inputs := rest } hk
  · apply sameBytes_of_buffer_eq
    rw [setOperand_buffer]
    cases sp <;> rfl

/-! ## The reset state -/

theorem reset_buffer (sp : Space) : State.reset.buffer sp = [] := by cases sp <;> rfl

/-- Empty output buffers release nothing. -/
theorem nothingReleased_of_empty {s : State} (hmsg : s.msgOut = []) (htag : s.tagOut = []) : nothingReleased s := by
  intro i
  simp [outByte, State.buffer, hmsg, htag, unlisted]

/-- Settles O9. -/
theorem resetValues : Obligations.ResetValues := by
  refine ⟨fun r => ?_, rfl, rfl, nothingReleased_of_empty rfl rfl, rfl, fun b => ?_, fun sp hsp i => ?_⟩
  · cases r <;> rfl
  · cases b <;> rfl
  · rw [byteAt, reset_buffer, memRead_nil]
    cases sp with
    | key | nonce | aad | msgIn | tagIn => rfl
    | msgOut | tagOut => cases hsp

/-- Settles O52. -/
theorem resetMeetsTheInvariant : Obligations.ResetMeetsTheInvariant := by
  refine ⟨fun sp => ⟨reset_wf sp, fun cell hcell => ?_⟩, ⟨by decide, by decide, fun _ => rfl⟩,
    ⟨iff_of_true rfl rfl, fun _ b => ?_⟩, rfl⟩
  · rw [reset_buffer] at hcell
    cases hcell
  · cases b <;> rfl

/-! ## A phase keeps the phase, the command and most buffers -/

@[simp] theorem storeOutput_phase (s : State) (r : PortRequest) (out : Bytes) :
    (storeOutput s r out).phase = s.phase := by
  unfold storeOutput; split <;> simp

@[simp] theorem storeOutput_command (s : State) (r : PortRequest) (out : Bytes) :
    (storeOutput s r out).command = s.command := by
  unfold storeOutput; split <;> simp

@[simp] theorem storeOutput_status (s : State) (r : PortRequest) (out : Bytes) :
    (storeOutput s r out).status = s.status := by
  unfold storeOutput; split <;> simp

@[simp] theorem storeOutput_buffer (s : State) (r : PortRequest) (out : Bytes) (sp : Space) :
    (storeOutput s r out).buffer sp = s.buffer sp := by
  unfold storeOutput; split <;> simp

@[simp] theorem ciph_phase (P : Params) (r : PortRequest) (s : State) : (ciph P r s).state.phase = s.phase := by
  cases h : statusAt P s 0 <;> simp [ciph_ok, ciph_error, h]

@[simp] theorem ciph_command (P : Params) (r : PortRequest) (s : State) :
    (ciph P r s).state.command = s.command := by
  cases h : statusAt P s 0 <;> simp [ciph_ok, ciph_error, h]

@[simp] theorem ciph_status (P : Params) (r : PortRequest) (s : State) : (ciph P r s).state.status = s.status := by
  cases h : statusAt P s 0 <;> simp [ciph_ok, ciph_error, h]

@[simp] theorem ciph_buffer (P : Params) (r : PortRequest) (s : State) (sp : Space) :
    (ciph P r s).state.buffer sp = s.buffer sp := by
  cases h : statusAt P s 0 <;> simp [ciph_ok, ciph_error, h]

@[simp] theorem allocOp_phase (P : Params) (s : State) : (allocOp P s).state.phase = s.phase := by
  unfold allocOp; split <;> simp

@[simp] theorem allocOp_command (P : Params) (s : State) : (allocOp P s).state.command = s.command := by
  unfold allocOp; split <;> simp

@[simp] theorem allocOp_status (P : Params) (s : State) : (allocOp P s).state.status = s.status := by
  unfold allocOp; split <;> simp

@[simp] theorem allocOp_buffer (P : Params) (s : State) (sp : Space) :
    (allocOp P s).state.buffer sp = s.buffer sp := by
  unfold allocOp; split <;> simp

/-- An operation inside a command leaves the sequencer in its phase, and the command in progress. -/
theorem phaseOp_place {P : Params} {c : Command} {p : Phase} {s : State} (h : s.phase = p) :
    (phaseOp P c p s).state.phase = p ∧ (phaseOp P c p s).state.command = s.command := by
  cases p with
  | idle | clearOut | alloc | cbcInit | cbcKey | cbcRun | ctrInit | ctrKey | ctrRun | recover | free =>
    simp [phaseOp, freeOp, h]
  | validate => simp [phaseOp, validateOp_state]
  | compare => simp [phaseOp, compareOp_state, h]
  | asmCbc => simp [phaseOp, asmCbcmacOp]
  | ctrIv => simp [phaseOp, buildCtrIvOp]
  | asmCtr => cases c <;> simp [phaseOp, asmCtrOp, asmCtrEncOp, asmCtrDecOp, h]
  | output => cases c <;> simp [phaseOp, outputOp, releaseMessage, releaseTag, h]
  | size => cases c <;> simp [phaseOp, sizeOp, sizeCbc, sizeCtr, h]

theorem phaseOp_phase {P : Params} {c : Command} {p : Phase} {s : State} (h : s.phase = p) :
    (phaseOp P c p s).state.phase = p := by
  obtain ⟨hphase, -⟩ := phaseOp_place (P := P) (c := c) h
  exact hphase

theorem phaseOp_command {P : Params} {c : Command} {p : Phase} {s : State} (h : s.phase = p) :
    (phaseOp P c p s).state.command = s.command := by
  obtain ⟨-, hcommand⟩ := phaseOp_place (P := P) (c := c) h
  exact hcommand

/-- Only CLEAR_OUT and OUTPUT write a byte of a space. -/
theorem phaseOp_buffer (P : Params) (c : Command) {p : Phase} (s : State) (sp : Space) (hclear : p ≠ .clearOut)
    (hout : p ≠ .output) : (phaseOp P c p s).state.buffer sp = s.buffer sp := by
  cases p with
  | clearOut => exact absurd rfl hclear
  | output => exact absurd rfl hout
  | idle | alloc | cbcInit | cbcKey | cbcRun | ctrInit | ctrKey | ctrRun | recover | free =>
    simp [phaseOp, freeOp]
  | validate => simp [phaseOp, validateOp_state]
  | compare => simp [phaseOp, compareOp_state]
  | asmCbc => simp [phaseOp, asmCbcmacOp]
  | ctrIv => simp [phaseOp, buildCtrIvOp]
  | asmCtr => cases c <;> simp [phaseOp, asmCtrOp, asmCtrEncOp, asmCtrDecOp]
  | size => cases c <;> simp [phaseOp, sizeOp, sizeCbc, sizeCtr]

/-! ## The sequencer's turn -/

/-- Where a phase leads the sequencer (R18): on along the command's list, or through the failure exit. -/
def sequel (c : Command) (p : Phase) : Flow → State
  | .ok t => t.advance c p
  | .raise r t => failureExit r t

/-- No command's list holds IDLE (R18). -/
theorem idle_notMem_phasesOf (c : Command) : .idle ∉ phasesOf c := by cases c <;> decide

/-- Moving on after a phase that does not end in IDLE. -/
theorem afterPhase_settle {c : Command} {p : Phase} {fl : Flow} (h : fl.state.phase ≠ .idle) :
    afterPhase c p (.next (settle fl)) = .next (sequel c p fl) := by
  cases fl with
  | ok t => exact if_neg h
  | raise r t => rw [settle, afterPhase, if_pos (failureExit_phase r t), sequel]

theorem afterPhase_phaseOp {P : Params} {c : Command} {s : State} (h : s.phase ≠ .idle) :
    afterPhase c s.phase (.next (settle (phaseOp P c s.phase s))) =
      .next (sequel c s.phase (phaseOp P c s.phase s)) :=
  afterPhase_settle (by rwa [phaseOp_phase rfl])

/-- ASM_CTR stands in the lists of the two CCM commands alone, and its row is the command's variant (R90, R91). -/
theorem asmCtr_of_exec {c : Command} {s t : State} (hc : .asmCtr ∈ phasesOf c)
    (h : exec (if c = .ccmDec then .asmCtrDec else .asmCtrEnc) s = .next t) : asmCtrOp Config.params c s = t := by
  cases c with
  | ccmEnc => exact asmCtrEnc_of_exec h
  | ccmDec => exact asmCtrDec_of_exec h
  | cbcSize | ctrSize => simp [phasesOf] at hc

/-- The operation of the opcode table that a phase names, where it goes on, is the phase. -/
theorem settle_phaseOp_of_exec {c : Command} {p : Phase} {i : Instr} {s t : State} (hp : p ∈ phasesOf c)
    (hi : phaseInstr Config.params c p s = some i) (h : exec i s = .next t) :
    settle (phaseOp Config.params c p s) = t := by
  cases p with
  | idle | clearOut | alloc | recover | compare | output | free | size => cases hi
  | validate | cbcInit | cbcKey | cbcRun | ctrInit | ctrKey | ctrRun => cases hi; cases h; rfl
  | asmCbc => cases hi; exact asmCbcmac_of_exec h
  | ctrIv => cases hi; exact buildCtrIv_of_exec h
  | asmCtr => cases hi; exact asmCtr_of_exec hp h

/-- What the sequencer's turn leads to, where it goes on. -/
theorem sequencerTurn_cases {s t : State} (h : sequencerTurn Config.params s = .next t) :
    ∃ c, s.command = some c ∧ s.phase ∈ phasesOf c ∧ phaseFault Config.params s.phase s = none
      ∧ t = sequel c s.phase (phaseOp Config.params c s.phase s) := by
  unfold sequencerTurn at h
  split at h
  · cases h
  rename_i c hc
  split at h
  · cases h
  rename_i hmem
  rw [not_not] at hmem
  have hidle : s.phase ≠ .idle := fun he => idle_notMem_phasesOf c (he ▸ hmem)
  split at h
  · cases h
  rename_i hfault
  refine ⟨c, hc, hmem, hfault, ?_⟩
  split at h
  · rename_i i hi
    cases he : exec i s with
    | next u =>
      rw [he, ← settle_phaseOp_of_exec hmem hi he, afterPhase_phaseOp hidle] at h
      cases h; rfl
    | fault f => rw [he] at h; cases h
    | refused r => rw [he] at h; cases h
  · rw [afterPhase_phaseOp hidle] at h
    cases h; rfl

/-- The phases without a row of the opcode table. -/
theorem phaseInstr_eq_none {P : Params} {c : Command} {p : Phase} {s : State} (hp : p ≠ .idle) :
    phaseInstr P c p s = none ↔ p ∈ [.clearOut, .alloc, .recover, .compare, .output, .free, .size] := by
  cases p <;> simp [phaseInstr] at hp ⊢

/-- Settles O7: the sequencer's turn, unfolded once for a phase with a table row and once for one without. -/
theorem stepPerformsTheSequencersPhase : Obligations.StepPerformsTheSequencersPhase := by
  intro s c hin hport hc hidle hmem hfault
  have hturn := step_sequencer hin hport hidle
  refine ⟨fun i hi => ?_, fun hi => ?_, phaseInstr_eq_none hidle⟩
  · simp only [hturn, sequencerTurn, hc, not_not.mpr hmem, if_false, hfault, hi]
    cases exec i s <;> rfl
  · simp only [hturn, sequencerTurn, hc, not_not.mpr hmem, if_false, hfault, hi, afterPhase_phaseOp hidle]
    cases phaseOp Config.params c s.phase s <;> rfl

end Sys2Proof.Machine
end

section
/-! # The invariant

STATUS and the buffers under each update, under each phase and along a command; then one case per turn of the
step. -/

namespace Sys2Proof.Machine

/-! ## STATUS (R13, R140) -/

theorem code_le_nine (r : Result) : r.code.toNat ≤ 9 := by cases r <;> decide

/-- STATUS[31:5] = 0 is kept by what keeps these bits. -/
theorem EngineFrame.status_lt {s t : State} (h : EngineFrame s t) (hs : s.status.toNat < 32) :
    t.status.toNat < 32 := by
  apply Nat.lt_pow_two_of_testBit (n := 5)
  intro i hi
  have hzero : s.status.toNat.testBit i = false :=
    Nat.testBit_eq_false_of_lt (Nat.lt_of_lt_of_le hs (Nat.pow_le_pow_right (show 2 > 0 by decide) hi))
  exact (h.statusHigh i hi).trans hzero

theorem statusOk_congr {s t : State} (h : t.status = s.status) (hs : statusOk s) : statusOk t := by
  rwa [statusOk, h]

theorem statusOk_setDone {s : State} (hs : statusOk s) : statusOk s.setDone := by
  obtain ⟨hlow, hcode, -⟩ := hs
  exact ⟨(setDone_frame s).status_lt hlow, by simpa using hcode, by simp⟩

theorem statusOk_setResult_ok {s : State} (hs : statusOk s) : statusOk (s.setResult .ok) := by
  obtain ⟨hlow, -, -⟩ := hs
  exact ⟨(setResult_frame s .ok).status_lt hlow, by simp [Result.code], fun _ => by simp [Result.code]⟩

/-- A command that ends with a result leaves a legal STATUS, whatever RESULT was before. -/
theorem statusOk_of_result {s t : State} {r : Result} (h : t.status = withDone (withResult s.status r))
    (hs : statusOk s) : statusOk t := by
  obtain ⟨hlow, -, -⟩ := hs
  have hframe : EngineFrame s ((s.setResult r).setDone) := (setResult_frame s r).trans (setDone_frame _)
  exact statusOk_congr (s := (s.setResult r).setDone) h
    ⟨hframe.status_lt hlow, by simpa using code_le_nine r, by simp⟩

theorem statusOk_outputOp (c : Command) {s : State} (hs : statusOk s) : statusOk (outputOp c s) := by
  cases c with
  | ccmEnc | ccmDec => exact statusOk_setResult_ok (statusOk_congr (by simp [releaseMessage, releaseTag]) hs)
  | cbcSize | ctrSize => exact hs

theorem statusOk_sizeOp (c : Command) {s : State} (hs : statusOk s) : statusOk (sizeOp c s) := by
  cases c with
  | ccmEnc | ccmDec => exact hs
  | cbcSize => exact statusOk_of_result (r := .ok) (by simp [sizeOp, sizeCbc]) hs
  | ctrSize => exact statusOk_of_result (r := .ok) (by simp [sizeOp, sizeCtr]) hs

theorem phaseOp_statusOk (P : Params) (c : Command) (p : Phase) {s : State} (hs : statusOk s) :
    statusOk (phaseOp P c p s).state := by
  cases p with
  | idle | clearOut | recover => exact hs
  | alloc | cbcInit | cbcKey | cbcRun | ctrInit | ctrKey | ctrRun => exact statusOk_congr (by simp [phaseOp]) hs
  | validate => exact statusOk_congr (by simp [phaseOp, validateOp_state]) hs
  | compare => exact statusOk_congr (by simp [phaseOp, compareOp_state]) hs
  | asmCbc => exact statusOk_congr (by simp [phaseOp, asmCbcmacOp]) hs
  | ctrIv => exact statusOk_congr (by simp [phaseOp, buildCtrIvOp]) hs
  | asmCtr => cases c <;> exact statusOk_congr (by simp [phaseOp, asmCtrOp, asmCtrEncOp, asmCtrDecOp]) hs
  | output => exact statusOk_outputOp c hs
  | free => exact statusOk_setDone (s := s.discardWork) hs
  | size => exact statusOk_sizeOp c hs

/-! ## The buffers (R30) -/

theorem memoryOk_congr {P : Params} {s t : State} (h : ∀ sp, t.buffer sp = s.buffer sp) (hs : memoryOk P s) :
    memoryOk P t := fun sp => by
  rw [h sp]
  exact hs sp

/-- Emptying the output buffers keeps the canonical form. -/
theorem memoryOk_of_cleared {P : Params} {s t : State}
    (h : ∀ sp, t.buffer sp = if hostWritable sp then s.buffer sp else []) (hs : memoryOk P s) : memoryOk P t := by
  intro sp
  rw [h sp]
  split
  · exact hs sp
  · exact ⟨wf_nil sp, nofun⟩

theorem memoryOk_setBuffer {P : Params} {s : State} {sp : Space} {m : List Host.Cell} (hwf : Memory.wf sp m)
    (hin : ∀ cell ∈ m, inSpace P sp cell.1 = true) (hs : memoryOk P s) : memoryOk P (s.setBuffer sp m) := by
  intro sq
  rw [setBuffer_buffer]
  split
  · subst sq; exact ⟨hwf, hin⟩
  · exact hs sq

theorem inSpace_of_le {P : Params} {sp : Space} {i n : Nat} (h : withinCap n (spaceSize P sp) = true)
    (hi : i < n) : inSpace P sp i = true := by
  unfold inSpace
  cases hc : spaceSize P sp with
  | none => rfl
  | some size =>
    rw [hc, withinCap, decide_eq_true_eq] at h
    exact decide_eq_true (Nat.le_trans hi h)

/-- Writing a sequence that fits the space from index 0 keeps the canonical form. -/
theorem memoryOk_writeBytes {P : Params} {s : State} {sp : Space} {bs : Bytes}
    (hfit : withinCap bs.length (spaceSize P sp) = true) (hs : memoryOk P s) :
    memoryOk P (s.setBuffer sp (memWriteBytes sp 0 bs (s.buffer sp))) := by
  obtain ⟨hwf, hin⟩ := hs sp
  refine memoryOk_setBuffer (memWriteBytes_wf hwf) (fun cell hcell => ?_) hs
  rcases mem_memWriteBytes hcell with ⟨-, hlt⟩ | hold
  · exact inSpace_of_le hfit (by omega)
  · exact hin cell hold

theorem withinCap_mono {m n : Nat} {cap : Option Nat} (hmn : m ≤ n) (h : withinCap n cap = true) :
    withinCap m cap = true := by
  cases cap with
  | none => rfl
  | some size =>
    rw [withinCap, decide_eq_true_eq] at h ⊢
    exact Nat.le_trans hmn h

theorem fits_iff {P : Params} {s : State} :
    fits P s = true ↔ withinCap s.msgLength P.msgCap = true ∧ withinCap s.cbcBlocks P.workCap = true := by
  rw [fits, Bool.and_eq_true]

theorem memoryOk_releaseMessage {P : Params} {s : State} (hfit : fits P s = true) (hs : memoryOk P s) :
    memoryOk P (releaseMessage s) := by
  obtain ⟨hcap, -⟩ := fits_iff.mp hfit
  exact memoryOk_writeBytes (sp := .msgOut) (withinCap_mono (by simp) hcap) hs

theorem memoryOk_releaseTag {P : Params} {s : State} (htag : s.legalTag) (hs : memoryOk P s) :
    memoryOk P (releaseTag s) := by
  refine memoryOk_writeBytes (sp := .tagOut) (decide_eq_true ?_) hs
  rw [slice_length]
  omega

theorem memoryOk_outputOp {P : Params} (c : Command) {s : State} (htag : s.legalTag) (hfit : fits P s = true)
    (hs : memoryOk P s) : memoryOk P (outputOp c s) := by
  cases c with
  | ccmEnc =>
    have hmsg : memoryOk P (releaseMessage (releaseTag s)) :=
      memoryOk_releaseMessage (by simpa [releaseTag] using hfit) (memoryOk_releaseTag htag hs)
    exact memoryOk_congr (by simp [outputOp]) hmsg
  | ccmDec => exact memoryOk_congr (by simp [outputOp]) (memoryOk_releaseMessage hfit hs)
  | cbcSize | ctrSize => exact hs

/-- Only OUTPUT lists bytes; it does so where the lengths are those VALIDATE and ALLOC let through (R35, R80). -/
theorem phaseOp_memoryOk {P : Params} (c : Command) {p : Phase} {s : State}
    (hout : p = .output → s.legalTag ∧ fits P s = true) (hs : memoryOk P s) : memoryOk P (phaseOp P c p s).state := by
  by_cases hp : p = .output
  · subst hp
    obtain ⟨htag, hfit⟩ := hout rfl
    exact memoryOk_outputOp c htag hfit hs
  by_cases hclear : p = .clearOut
  · subst hclear
    exact memoryOk_of_cleared (clearOutputs_buffer s) hs
  · exact memoryOk_congr (fun sp => phaseOp_buffer P c s sp hclear hp) hs

theorem failureExit_memoryOk {P : Params} (r : Result) {s : State} (hs : memoryOk P s) :
    memoryOk P (failureExit r s) := memoryOk_of_cleared (failureExit_buffer r s) hs

theorem failureExit_statusOk (r : Result) {s : State} (hs : statusOk s) : statusOk (failureExit r s) :=
  statusOk_of_result (failureExit_status r s) hs

/-! ## What depends on the operand registers alone -/

section Registers

variable {s t : State} (h : sameRegisters s t)

include h

theorem sameRegisters.keyBits : t.keyBits = s.keyBits := h .keyBits
theorem sameRegisters.nonceLength : t.nonceLength = s.nonceLength := congrArg BitVec.toNat (h .nonceLen)
theorem sameRegisters.aadLength : t.aadLength = s.aadLength := congrArg BitVec.toNat (h .aadLen)
theorem sameRegisters.msgLength : t.msgLength = s.msgLength := congrArg BitVec.toNat (h .msgLen)
theorem sameRegisters.tagLength : t.tagLength = s.tagLength := congrArg BitVec.toNat (h .tagLen)
theorem sameRegisters.keyLength : t.keyLength = s.keyLength := by rw [State.keyLength, h.keyBits, State.keyLength]

theorem sameRegisters.cbcBlocks : t.cbcBlocks = s.cbcBlocks := by
  rw [State.cbcBlocks, h.msgLength, h.aadLength, State.cbcBlocks]

theorem sameRegisters.ctrBlocks : t.ctrBlocks = s.ctrBlocks := by
  rw [State.ctrBlocks, h.msgLength, State.ctrBlocks]

theorem sameRegisters.fits (P : Params) : Machine.fits P t = Machine.fits P s := by
  rw [Machine.fits, h.msgLength, h.cbcBlocks, Machine.fits]

theorem sameRegisters.validateCause : Machine.validateCause t = Machine.validateCause s := by
  simp only [Machine.validateCause, State.legalKey, State.legalTag, State.legalNonce, State.legalAad, State.legalMsg,
    h.keyBits, h.tagLength, h.nonceLength, h.aadLength, h.msgLength]

theorem sameRegisters.operandsLegal : Machine.operandsLegal t ↔ Machine.operandsLegal s := by
  rw [← validateCause_none, ← validateCause_none, h.validateCause]

theorem sameRegisters.workSize (b : WorkBuffer) : t.workSize b = s.workSize b := by
  cases b <;> simp only [State.workSize, h.cbcBlocks, h.ctrBlocks]

theorem sameRegisters.legalTag : t.legalTag ↔ s.legalTag := by
  rw [State.legalTag, h.tagLength]

end Registers

/-! ## A CCM command: three phases that decide whether it runs, then the passes -/

/-- The phases of a CCM command between ALLOC and OUTPUT (R101, R111). -/
def passesOf : Command → List Phase
  | .ccmEnc => [.asmCbc, .cbcInit, .cbcKey, .cbcRun, .ctrIv, .asmCtr, .ctrInit, .ctrKey, .ctrRun]
  | .ccmDec => [.ctrIv, .asmCtr, .ctrInit, .ctrKey, .ctrRun, .recover, .asmCbc, .cbcInit, .cbcKey, .cbcRun, .compare]
  | .cbcSize => []
  | .ctrSize => []

theorem phasesOf_ccm {c : Command} (hc : c.isCcm = true) :
    phasesOf c = .clearOut :: .validate :: .alloc :: (passesOf c ++ [.output, .free]) := by
  cases c with
  | ccmEnc | ccmDec => rfl
  | cbcSize | ctrSize => cases hc

/-- The state in which a command begins its passes: outputs cleared, working buffers allocated. -/
def allocated (P : Params) (c : Command) (s : State) : State := (allocOp P (s.clearOutputs.enter c .alloc)).state

theorem allocated_frame (P : Params) (c : Command) (s : State) : EngineFrame s (allocated P c s) :=
  ((clearOutputs_frame s).trans (enter_frame ..)).trans (allocOp_frame ..)

theorem allocOp_allocated {P : Params} {c : Command} {s : State} (hfit : fits P s = true) :
    allocOp P (s.clearOutputs.enter c .alloc) = .ok (allocated P c s) := by
  rw [allocated, allocOp, if_pos (by simp [hfit])]
  rfl

/-- A command that VALIDATE ends (R80, R141). -/
theorem runCommand_illegal (P : Params) {c : Command} {s : State} {r : Result} (hc : c.isCcm = true)
    (h : validateCause s = some r) : runCommand P c s = failureExit r (s.clearOutputs.enter c .validate) := by
  have hraise : phaseOp P c .validate ((s.enter c .clearOut).clearOutputs.enter c .validate) =
      .raise r (s.clearOutputs.enter c .validate) := by
    have hcause : validateCause (s.clearOutputs.enter c .validate) = some r := h
    show validateOp (s.clearOutputs.enter c .validate) = _
    rw [validateOp, hcause]
    rfl
  rw [runCommand, phasesOf_ccm hc, runPhases_ok (s' := (s.enter c .clearOut).clearOutputs) rfl, runPhases_raise hraise]

/-- A command with legal operands reaches ALLOC. -/
theorem runCommand_legal (P : Params) {c : Command} {s : State} (hc : c.isCcm = true) (h : operandsLegal s) :
    runCommand P c s =
      runPhases P c (.alloc :: (passesOf c ++ [.output, .free])) (s.clearOutputs.enter c .validate) := by
  have hok : phaseOp P c .validate ((s.enter c .clearOut).clearOutputs.enter c .validate) =
      .ok (s.clearOutputs.enter c .validate) := by
    have hcause : validateCause (s.clearOutputs.enter c .validate) = none := (validateCause_none _).mpr h
    show validateOp (s.clearOutputs.enter c .validate) = _
    rw [validateOp, hcause]
    rfl
  rw [runCommand, phasesOf_ccm hc, runPhases_ok (s' := (s.enter c .clearOut).clearOutputs) rfl, runPhases_ok hok]

/-- A command that ALLOC ends (R35). -/
theorem runCommand_unfit {P : Params} {c : Command} {s : State} (hc : c.isCcm = true) (h : operandsLegal s)
    (hfit : fits P s = false) :
    runCommand P c s = failureExit .allocationFailure (s.clearOutputs.enter c .alloc) := by
  have hraise : phaseOp P c .alloc ((s.clearOutputs.enter c .validate).enter c .alloc) =
      .raise .allocationFailure (s.clearOutputs.enter c .alloc) := by
    show allocOp P (s.clearOutputs.enter c .alloc) = _
    rw [allocOp, if_neg (by simp [hfit])]
  rw [runCommand_legal P hc h, runPhases_raise hraise]

/-- A command that reaches its passes. -/
theorem runCommand_fit {P : Params} {c : Command} {s : State} (hc : c.isCcm = true) (h : operandsLegal s)
    (hfit : fits P s = true) : runCommand P c s = runPhases P c (passesOf c ++ [.output, .free]) (allocated P c s) := by
  have hok : phaseOp P c .alloc ((s.clearOutputs.enter c .validate).enter c .alloc) = .ok (allocated P c s) :=
    allocOp_allocated hfit
  rw [runCommand_legal P hc h, runPhases_ok hok]

/-- The three ways a CCM command can go. -/
theorem runCommand_cases (P : Params) {c : Command} (s : State) (hc : c.isCcm = true) :
    (∃ r p, runCommand P c s = failureExit r (s.clearOutputs.enter c p))
      ∨ (operandsLegal s ∧ fits P s = true
          ∧ runCommand P c s = runPhases P c (passesOf c ++ [.output, .free]) (allocated P c s)) := by
  cases hcause : validateCause s with
  | some r => exact .inl ⟨r, .validate, runCommand_illegal P hc hcause⟩
  | none =>
    have hlegal := (validateCause_none s).mp hcause
    cases hfit : fits P s with
    | false => exact .inl ⟨_, .alloc, runCommand_unfit hc hlegal hfit⟩
    | true => exact .inr ⟨hlegal, rfl, runCommand_fit hc hlegal hfit⟩

/-! ## The end of a CCM command -/

/-- Where a list of phases that ends with OUTPUT and FREE leads: through the failure exit, or through both. -/
theorem runPhases_ends (P : Params) (c : Command) (ps : List Phase) (s : State) :
    (∃ r t, runPhases P c (ps ++ [.output, .free]) s = failureExit r t)
      ∨ ∃ t : State, runPhases P c (ps ++ [.output, .free]) s =
          (freeOp ((outputOp c (t.enter c .output)).enter c .free)).endCommand := by
  induction ps generalizing s with
  | nil => exact .inr ⟨s, rfl⟩
  | cons p ps ih =>
    cases h : phaseOp P c p (s.enter c p) with
    | ok t => rw [List.cons_append, runPhases_ok h]; exact ih t
    | raise r t => exact .inl ⟨r, t, runPhases_raise h⟩

/-- A CCM command ends through the failure exit, or through OUTPUT and FREE. -/
theorem runCommand_ends (P : Params) {c : Command} (s : State) (hc : c.isCcm = true) :
    (∃ r t, runCommand P c s = failureExit r t)
      ∨ ∃ t : State, runCommand P c s = (freeOp ((outputOp c (t.enter c .output)).enter c .free)).endCommand := by
  rcases runCommand_cases P s hc with ⟨r, p, h⟩ | ⟨-, -, h⟩
  · exact .inl ⟨r, _, h⟩
  · rw [h]; exact runPhases_ends ..

/-- The engine after a command: IDLE, no command, no working buffer (R17, R18). -/
def atRest (s : State) : Prop := s.phase = .idle ∧ s.command = none ∧ noWork s

theorem failureExit_atRest (r : Result) (s : State) : atRest (failureExit r s) :=
  ⟨failureExit_phase r s, failureExit_command r s, failureExit_work r s⟩

theorem freeOp_endCommand_atRest (s : State) : atRest (freeOp s).endCommand :=
  ⟨rfl, rfl, fun b => by rw [endCommand_work]; exact discardWork_work s b⟩

theorem runCommand_atRest (P : Params) {c : Command} (s : State) (hc : c.isCcm = true) :
    atRest (runCommand P c s) := by
  rcases runCommand_ends P s hc with ⟨r, t, h⟩ | ⟨t, h⟩
  · rw [h]; exact failureExit_atRest r t
  · rw [h]; exact freeOp_endCommand_atRest _

theorem runCommand_statusOk (P : Params) (c : Command) {s : State} (hs : statusOk s) :
    statusOk (runCommand P c s) :=
  runPhases_keeps (Q := statusOk) (fun p _ _ h => phaseOp_statusOk P c p h) (fun r _ h => failureExit_statusOk r h)
    (fun _ h => h) hs

/-- The passes, OUTPUT and FREE keep the buffers canonical, on lengths that VALIDATE and ALLOC let through. -/
theorem runPhases_memoryOk {P : Params} {c : Command} {ps : List Phase} {s : State} (hps : .size ∉ ps)
    (htag : s.legalTag) (hfit : fits P s = true) (hs : memoryOk P s) : memoryOk P (runPhases P c ps s) := by
  have hkeeps : EngineFrame s (runPhases P c ps s) ∧ memoryOk P (runPhases P c ps s) := by
    refine runPhases_keeps (Q := fun t => EngineFrame s t ∧ memoryOk P t) ?_
      (fun r t ⟨hf, hm⟩ => ⟨hf.trans (failureExit_frame r t), failureExit_memoryOk r hm⟩)
      (fun t ⟨hf, hm⟩ => ⟨hf.trans (endCommand_frame t), memoryOk_congr (endCommand_buffer t) hm⟩) ⟨.refl s, hs⟩
    intro p hp t ⟨hf, hm⟩
    have hne : p ≠ .size := by rintro rfl; exact hps hp
    have henter : EngineFrame s (t.enter c p) := hf.trans (enter_frame t c p)
    refine ⟨henter.trans (phaseOp_frame P c _ hne),
      phaseOp_memoryOk c (fun _ => ?_) (memoryOk_congr (enter_buffer t c p) hm)⟩
    exact ⟨henter.registers.legalTag.mpr htag, (henter.registers.fits P).trans hfit⟩
  obtain ⟨-, hmem⟩ := hkeeps
  exact hmem

theorem runCommand_memoryOk {P : Params} {c : Command} {s : State} (hc : c.isCcm = true) (hs : memoryOk P s) :
    memoryOk P (runCommand P c s) := by
  have hclear : memoryOk P s.clearOutputs := memoryOk_of_cleared (clearOutputs_buffer s) hs
  rcases runCommand_cases P s hc with ⟨r, p, h⟩ | ⟨⟨-, htag, -⟩, hfit, h⟩
  · rw [h]
    exact failureExit_memoryOk r (memoryOk_congr (enter_buffer _ c p) hclear)
  · have hframe := allocated_frame P c s
    have hsize : .size ∉ passesOf c ++ [.output, .free] := by cases c <;> decide
    rw [h]
    exact runPhases_memoryOk hsize (hframe.registers.legalTag.mpr htag) ((hframe.registers.fits P).trans hfit)
      (memoryOk_congr (by simp [allocated]) hclear)

/-! ## The invariant along a step (O53) -/

/-- In IDLE the sequencer's part of the invariant says that the engine is at rest. -/
theorem atRest_of_sequencerOk {s : State} (h : sequencerOk s) (hi : s.phase = .idle) : atRest s := by
  obtain ⟨hcommand, hwork⟩ := h
  exact ⟨hi, hcommand.mp hi, hwork (.inl hi)⟩

theorem sequencerOk_of_atRest {s : State} (h : atRest s) : sequencerOk s := by
  obtain ⟨hphase, hcommand, hwork⟩ := h
  exact ⟨iff_of_true hphase hcommand, fun _ => hwork⟩

theorem failureExit_inv (r : Result) {s : State} (hm : memoryOk Config.params s) (hst : statusOk s)
    (hp : s.port = none) : Inv (failureExit r s) :=
  ⟨failureExit_memoryOk r hm, failureExit_statusOk r hst, sequencerOk_of_atRest (failureExit_atRest r s), by simpa⟩

/-- A size command from an engine at rest. -/
theorem sizeOp_inv {c : Command} {s t : State} (hm : memoryOk Config.params s) (hst : statusOk s)
    (hwork : noWork s) (hport : s.port = none) (hc : c.isCcm = false) (ht : t = (sizeOp c s).endCommand) : Inv t := by
  subst ht
  have hstatus : statusOk (sizeOp c s).endCommand := statusOk_congr rfl (statusOk_sizeOp c hst)
  cases c with
  | ccmEnc | ccmDec => cases hc
  | cbcSize | ctrSize =>
    refine ⟨memoryOk_congr ?_ hm, hstatus, sequencerOk_of_atRest ⟨rfl, rfl, fun b => ?_⟩, hport⟩
    · simp [sizeOp, sizeCbc, sizeCtr]
    · simpa [sizeOp, sizeCbc, sizeCtr] using hwork b

theorem runCommand_inv {c : Command} {s : State} (hc : c.isCcm = true) (hs : Inv s) :
    Inv (runCommand Config.params c s) := by
  obtain ⟨hm, hst, -, hport⟩ := hs
  exact ⟨runCommand_memoryOk hc hm, runCommand_statusOk _ c hst, sequencerOk_of_atRest (runCommand_atRest _ s hc),
    (runCommand_frame _ s hc).port.trans hport⟩

theorem setResult_setDone_inv (r : Result) {s : State} (hs : Inv s) : Inv ((s.setResult r).setDone) := by
  obtain ⟨hm, hst, hseq, hport⟩ := hs
  refine ⟨memoryOk_congr (by simp) hm, statusOk_of_result rfl hst, ?_, hport⟩
  simpa [sequencerOk, noWork] using hseq

/-- A write of CMD (R12): one of the four commands, or the reserved word's effect. -/
theorem commandWrite_inv {w : Word} {s t : State} (hs : Inv s) (hi : s.phase = .idle)
    (h : commandWrite w s = .next t) : Inv t := by
  obtain ⟨hm, hst, hseq, hport⟩ := id hs
  obtain ⟨-, -, hwork⟩ := atRest_of_sequencerOk hseq hi
  unfold commandWrite decodeCommand at h
  split_ifs at h
  · cases h; exact runCommand_inv rfl hs
  · cases h; exact runCommand_inv rfl hs
  · exact sizeOp_inv (c := .cbcSize) hm hst hwork hport rfl (Host.Outcome.next.inj h).symm
  · exact sizeOp_inv (c := .ctrSize) hm hst hwork hport rfl (Host.Outcome.next.inj h).symm
  · cases h; exact setResult_setDone_inv _ hs

theorem setOperand_inv (r : OperandReg) (w : Word) {s : State} (hs : Inv s) : Inv (s.setOperand r w) := by
  obtain ⟨hm, hst, hseq, hport⟩ := hs
  exact ⟨memoryOk_congr (by simp) hm, statusOk_congr (by simp) hst, by simpa [sequencerOk, noWork] using hseq,
    by simpa using hport⟩

theorem reply_inv (r : Reply) {s : State} (hs : Inv s) : Inv (s.reply r) := by
  obtain ⟨hm, hst, hseq, hport⟩ := hs
  exact ⟨memoryOk_congr (by simp) hm, hst, by simpa [sequencerOk, noWork] using hseq, hport⟩

theorem setBuffer_inv {s : State} {sp : Space} {i : Nat} (b : Byte) (hin : inSpace Config.params sp i = true)
    (hs : Inv s) : Inv (s.setBuffer sp (memWrite sp i b (s.buffer sp))) := by
  obtain ⟨hm, hst, hseq, hport⟩ := hs
  obtain ⟨hwf, hcells⟩ := hm sp
  refine ⟨memoryOk_setBuffer (memWrite_wf hwf) (fun cell hcell => ?_) hm, statusOk_congr (by simp) hst,
    by simpa [sequencerOk, noWork] using hseq, by simpa using hport⟩
  rcases mem_memWrite hcell with rfl | hold
  · exact hin
  · exact hcells cell hold

theorem regWrite_inv {k : Nat} {w : Word} {s t : State} (hs : Inv s) (hi : s.phase = .idle)
    (h : regWrite k w s = .next t) : Inv t := by
  unfold regWrite at h
  split_ifs at h
  · exact commandWrite_inv hs hi h
  · cases h; exact hs
  · cases h; exact hs
  · split at h
    · cases h; exact setOperand_inv _ w hs
    · cases h

theorem byteWrite_inv {sp : Space} {i : Nat} {b : Byte} {s t : State} (hs : Inv s)
    (h : byteWrite Config.params sp i b s = .next t) : Inv t := by
  unfold byteWrite at h
  split_ifs at h with hin hw
  · cases h; exact setBuffer_inv b (Bool.not_eq_false _ ▸ hin) hs
  · cases h; exact hs

theorem resetFrom_inv (s : State) : Inv (resetFrom s) := by
  obtain ⟨hm, hst, hseq, hport⟩ := resetMeetsTheInvariant
  refine ⟨memoryOk_congr (fun sp => ?_) hm, hst, hseq, hport⟩
  cases sp <;> rfl

/-- One host access in IDLE. -/
theorem access_inv {a : Input} {s t : State} (hs : Inv s) (hi : s.phase = .idle)
    (h : access Config.params a s = .next t) : Inv t := by
  cases a with
  | writeReg k w => exact regWrite_inv hs hi h
  | writeByte sp i b => exact byteWrite_inv hs h
  | reset => cases h; exact resetFrom_inv s
  | readReg k =>
    simp only [access, regReadAccess] at h
    split at h
    · cases h; exact reply_inv _ hs
    · cases h
  | readByte sp i =>
    simp only [access, byteRead] at h
    split at h
    · cases h
    · cases h; exact reply_inv _ hs

theorem hostTurn_inv {s t : State} (hs : Inv s) (hi : s.phase = .idle)
    (h : hostTurn Config.params s = .next t) : Inv t := by
  unfold hostTurn at h
  split at h
  · cases h; exact hs
  · rename_i a rest _
    have hrest : Inv { s with inputs := rest } := by
      obtain ⟨hm, hst, hseq, hport⟩ := hs
      exact ⟨memoryOk_congr (fun sp => by cases sp <;> rfl) hm, hst, hseq, hport⟩
    exact access_inv hrest hi h

/-- The phase after another is never IDLE and never SIZE (R18). -/
theorem nextPhase_place {c : Command} {p q : Phase} (h : nextPhase p (phasesOf c) = some q) :
    q ≠ .idle ∧ q ≠ .size := by
  cases c <;> cases p <;> cases h <;> decide

/-- A command's last phase is FREE or SIZE (R18). -/
theorem last_phase {c : Command} : ∀ p ∈ phasesOf c, nextPhase p (phasesOf c) = none → p = .free ∨ p = .size := by
  cases c <;> decide

/-- OUTPUT has operands where VALIDATE and ALLOC let the lengths through. -/
theorem phaseFault_output {P : Params} {s : State} (h : phaseFault P .output s = none) :
    s.legalTag ∧ fits P s = true := by
  dsimp only [phaseFault] at h
  split_ifs at h with htag hfit
  exact ⟨htag, Bool.not_eq_false _ ▸ hfit⟩

theorem sizeOp_work (c : Command) (s : State) (b : WorkBuffer) : (sizeOp c s).work b = s.work b := by
  cases c <;> simp [sizeOp, sizeCbc, sizeCtr]

theorem sizeOp_port (c : Command) (s : State) : (sizeOp c s).port = s.port := by cases c <;> rfl

theorem phaseOp_port (P : Params) (c : Command) (p : Phase) (s : State) :
    (phaseOp P c p s).state.port = s.port := by
  by_cases hp : p = .size
  · subst hp; exact sizeOp_port c s
  · exact (phaseOp_frame P c s hp).port

/-- The last phase of a command leaves no working buffer (R17). -/
theorem phaseOp_last_noWork {P : Params} {c : Command} {p : Phase} {s : State} (hp : p = .free ∨ p = .size)
    (hs : p = .size → noWork s) : noWork (phaseOp P c p s).state := by
  rcases hp with rfl | rfl
  · exact discardWork_work s
  · exact fun b => (sizeOp_work c s b).trans (hs rfl b)

/-- Moving on keeps the sequencer's part of the invariant. -/
theorem advance_sequencerOk {c : Command} {p : Phase} {t : State} (hcommand : t.command = some c)
    (hlast : nextPhase p (phasesOf c) = none → noWork t) : sequencerOk (t.advance c p) := by
  unfold State.advance
  split
  · rename_i q hq
    obtain ⟨hidle, hsize⟩ := nextPhase_place hq
    simp [sequencerOk, hidle, hsize, hcommand]
  · rename_i hnone
    exact sequencerOk_of_atRest ⟨rfl, rfl, hlast hnone⟩

theorem advance_status (t : State) (c : Command) (p : Phase) : (t.advance c p).status = t.status := by
  unfold State.advance; split <;> rfl

theorem advance_port (t : State) (c : Command) (p : Phase) : (t.advance c p).port = t.port := by
  unfold State.advance; split <;> rfl

theorem advance_buffer (t : State) (c : Command) (p : Phase) (sp : Space) :
    (t.advance c p).buffer sp = t.buffer sp := by
  unfold State.advance; split <;> simp

/-- One phase of the command in progress. -/
theorem sequencerTurn_inv {s t : State} (hs : Inv s) (h : sequencerTurn Config.params s = .next t) : Inv t := by
  obtain ⟨hm, hst, ⟨-, hsize⟩, hport⟩ := hs
  obtain ⟨c, hcommand, hmem, hfault, rfl⟩ := sequencerTurn_cases h
  have hm' : memoryOk Config.params (phaseOp Config.params c s.phase s).state :=
    phaseOp_memoryOk c (fun hout => phaseFault_output (hout ▸ hfault)) hm
  have hst' := phaseOp_statusOk Config.params c s.phase hst
  have hport' := (phaseOp_port Config.params c s.phase s).trans hport
  have hcommand' := (phaseOp_command (P := Config.params) (c := c) (s := s) rfl).trans hcommand
  have hwork' : nextPhase s.phase (phasesOf c) = none → noWork (phaseOp Config.params c s.phase s).state :=
    fun hnone => phaseOp_last_noWork (last_phase s.phase hmem hnone) (fun hp => hsize (.inr hp))
  cases hfl : phaseOp Config.params c s.phase s with
  | raise r t => rw [hfl] at hm' hst' hport'; exact failureExit_inv r hm' hst' hport'
  | ok t =>
    rw [hfl] at hm' hst' hport' hcommand' hwork'
    exact ⟨memoryOk_congr (advance_buffer t c _) hm', statusOk_congr (advance_status t c _) hst',
      advance_sequencerOk hcommand' hwork', (advance_port t c _).trans hport'⟩

/-- Settles O53, by whose turn it is: a reset, the host in IDLE, or the sequencer; the port is empty. -/
theorem stepKeepsTheInvariant : Obligations.StepKeepsTheInvariant := by
  intro s t hs h
  obtain ⟨-, -, -, hport⟩ := id hs
  by_cases hreset : s.inputs.head? = some .reset
  · rw [step, turn, if_pos hreset] at h
    cases h; exact resetFrom_inv _
  by_cases hi : s.phase = .idle
  · exact hostTurn_inv hs hi (step_host hreset hport hi ▸ h)
  · exact sequencerTurn_inv hs (step_sequencer hreset hport hi ▸ h)

/-! ## What a CCM command leaves behind (O42) -/

theorem EngineFrame.commandFrame {s t : State} (h : EngineFrame s t) (hdone : statusDone t.status = true)
    (hrest : atRest t) : commandFrame s t :=
  ⟨h.sameOperands, h.blocks, ⟨h.inputs, h.replies, h.port⟩, h.statusHigh, hdone, hrest⟩

theorem failureExit_nothingReleased (r : Result) (s : State) : nothingReleased (failureExit r s) :=
  nothingReleased_of_empty (failureExit_msgOut r s) (failureExit_tagOut r s)

/-- After OUTPUT of a CCM command RESULT is OK (R102, R113). -/
theorem outputOp_result {c : Command} (s : State) (hc : c.isCcm = true) : statusResult (outputOp c s).status = 0 := by
  cases c with
  | ccmEnc | ccmDec => simp [outputOp, Result.code]
  | cbcSize | ctrSize => cases hc

theorem runCommand_done (P : Params) {c : Command} (s : State) (hc : c.isCcm = true) :
    statusDone (runCommand P c s).status = true := by
  rcases runCommand_ends P s hc with ⟨r, t, h⟩ | ⟨t, h⟩ <;> simp [h, freeOp]

/-- A CCM command releases nothing unless it goes through OUTPUT, which makes RESULT OK (R145, R146). -/
theorem runCommand_failed_nothingReleased (P : Params) {c : Command} (s : State) (hc : c.isCcm = true)
    (hfailed : (runCommand P c s).failed = true) : nothingReleased (runCommand P c s) := by
  rcases runCommand_ends P s hc with ⟨r, t, h⟩ | ⟨t, h⟩
  · rw [h]; exact failureExit_nothingReleased r t
  · rw [h] at hfailed
    simp [State.failed, freeOp, outputOp_result _ hc] at hfailed

/-- No phase of CCM_DEC writes TAG_OUT but to clear it (R113). -/
theorem phaseOp_ccmDec_tagOut {P : Params} {p : Phase} {s : State} (h : s.tagOut = []) :
    (phaseOp P .ccmDec p s).state.tagOut = [] := by
  by_cases hclear : p = .clearOut
  · subst hclear; rfl
  by_cases hout : p = .output
  · subst hout; exact h
  · exact (phaseOp_buffer P .ccmDec s .tagOut hclear hout).trans h

theorem runCommand_ccmDec_tagOut (P : Params) (s : State) : (runCommand P .ccmDec s).tagOut = [] := by
  have hclear : phaseOp P .ccmDec .clearOut (s.enter .ccmDec .clearOut) =
      .ok (s.enter .ccmDec .clearOut).clearOutputs := rfl
  rw [runCommand, phasesOf_ccm rfl, runPhases_ok hclear]
  exact runPhases_keeps (Q := fun t => t.tagOut = []) (fun _ _ _ h => phaseOp_ccmDec_tagOut h)
    (fun r t _ => failureExit_tagOut r t) (fun _ h => h) rfl

/-- The command of an operation that is a CCM command. -/
theorem exec_ccm {i : Instr} (hi : i = .ccmEnc ∨ i = .ccmDec) :
    ∃ c : Command, c.isCcm = true ∧ (i = .ccmDec ↔ c = .ccmDec)
      ∧ ∀ s, exec i s = .next (runCommand Config.params c s) := by
  rcases hi with rfl | rfl
  · exact ⟨.ccmEnc, rfl, by simp, fun _ => rfl⟩
  · exact ⟨.ccmDec, rfl, by simp, fun _ => rfl⟩

/-- Settles O42. -/
theorem failedCommandReleasesNothing : Obligations.FailedCommandReleasesNothing := by
  intro s i hi
  obtain ⟨c, hc, hdec, hexec⟩ := exec_ccm hi
  refine ⟨_, hexec s, (runCommand_frame _ s hc).commandFrame (runCommand_done _ s hc) (runCommand_atRest _ s hc),
    runCommand_failed_nothingReleased _ s hc, fun hi k => ?_⟩
  have htag : (runCommand Config.params c s).tagOut = [] := hdec.mp hi ▸ runCommand_ccmDec_tagOut ..
  simp [outByte, State.buffer, htag, unlisted]

end Sys2Proof.Machine
end

section
/-! # The passes of a CCM command

What holds in front of each phase between ALLOC and OUTPUT: legal operands, whole working buffers, and in front of a
key or an encryption the cipher context of that phase. So no phase lacks its operands, and every encryption is
under the primitive's contract (R120). -/

namespace Sys2Proof.Machine

/-! ## The operand bytes under the frame -/

theorem EngineFrame.spaceBytes {s t : State} (h : EngineFrame s t) (P : Params) {sp : Space}
    (hsp : hostWritable sp = true) (n : Nat) : spaceBytes P t sp n = spaceBytes P s sp n := by
  have hbyte : byteAt P t sp = byteAt P s sp := by
    funext i
    rw [byteAt, h.operandBuffer sp hsp, h.epoch, byteAt]
  rw [Machine.spaceBytes, hbyte, Machine.spaceBytes]

theorem EngineFrame.keyOperand {s t : State} (h : EngineFrame s t) (P : Params) :
    keyOperand P t = keyOperand P s := by
  rw [Machine.keyOperand, h.registers.keyLength, h.spaceBytes P rfl, Machine.keyOperand]

theorem EngineFrame.nonceOperand {s t : State} (h : EngineFrame s t) (P : Params) :
    nonceOperand P t = nonceOperand P s := by
  rw [Machine.nonceOperand, h.registers.nonceLength, h.spaceBytes P rfl, Machine.nonceOperand]

theorem EngineFrame.aadOperand {s t : State} (h : EngineFrame s t) (P : Params) :
    aadOperand P t = aadOperand P s := by
  rw [Machine.aadOperand, h.registers.aadLength, h.spaceBytes P rfl, Machine.aadOperand]

theorem EngineFrame.msgOperand {s t : State} (h : EngineFrame s t) (P : Params) :
    msgOperand P t = msgOperand P s := by
  rw [Machine.msgOperand, h.registers.msgLength, h.spaceBytes P rfl, Machine.msgOperand]

theorem EngineFrame.tagOperand {s t : State} (h : EngineFrame s t) (P : Params) :
    tagOperand P t = tagOperand P s := by
  rw [Machine.tagOperand, h.registers.tagLength, h.spaceBytes P rfl, Machine.tagOperand]

theorem EngineFrame.keyRequest {s t : State} (h : EngineFrame s t) (P : Params) (iv : Bytes) :
    keyRequest P t iv = keyRequest P s iv := by
  rw [Machine.keyRequest, h.registers.keyBits, h.keyOperand, Machine.keyRequest]

/-! ## Whole working buffers -/

/-- All five working buffers exist with R17's sizes. -/
def allWork (s : State) : Prop := ∀ b, s.hasWork b = true

theorem hasWork_iff {s : State} {b : WorkBuffer} :
    s.hasWork b = true ↔ ∃ bytes, s.work b = some bytes ∧ bytes.length = s.workSize b := by
  unfold State.hasWork
  split <;> simp [*]

theorem workBytes_length {s : State} {b : WorkBuffer} (h : s.hasWork b = true) :
    (s.workBytes b).length = s.workSize b := by
  obtain ⟨bytes, hwork, hlen⟩ := hasWork_iff.mp h
  rw [State.workBytes, hwork]
  exact hlen

theorem hasWork_congr {s t : State} {b : WorkBuffer} (hwork : t.work b = s.work b)
    (hsize : t.workSize b = s.workSize b) (h : s.hasWork b = true) : t.hasWork b = true := by
  rw [hasWork_iff] at h ⊢
  rwa [hwork, hsize]

theorem allWork_setWork {s : State} {b : WorkBuffer} {bytes : Bytes} (h : allWork s)
    (hlen : bytes.length = s.workSize b) : allWork (s.setWork b bytes) := by
  intro c
  by_cases hc : c = b
  · subst hc
    exact hasWork_iff.mpr ⟨bytes, by simp, by simpa using hlen⟩
  · exact hasWork_congr (by simp [hc]) (by simp) (h c)

theorem allWork_setPhase {s : State} (p : Phase) (h : allWork s) : allWork (s.setPhase p) :=
  fun b => hasWork_congr (by simp) (by simp) (h b)

theorem allWork_setContext {s : State} (ctx : CipherContext) (h : allWork s) : allWork (s.setContext ctx) :=
  fun b => hasWork_congr (by simp) (by simp) (h b)

theorem allWork_record {s : State} (e : PortEvent) (h : allWork s) : allWork (s.record e) :=
  fun b => hasWork_congr (by simp) (by simp) (h b)

/-- The recovered message stands behind the first block of `ctr_out` (R85, R91). -/
theorem sourceMessage_length (P : Params) (source : MsgSource) {s : State} (h : allWork s) :
    (sourceMessage P source s).length = s.msgLength := by
  cases source with
  | msgIn => exact msgOperand_length P s
  | recovered =>
    simp only [sourceMessage, slice_length, workBytes_length (h .ctrOut), State.workSize, State.ctrBlocks, ctrBlocks,
      cdiv16]
    omega

/-! ## The cipher requests of the phases -/

/-- The request a phase issues, where it issues one (R101, R111, R128). -/
def requestOf (P : Params) (p : Phase) (s : State) : Option PortRequest :=
  match p with
  | .cbcInit => some (.init .cbc)
  | .cbcKey => some (.setKey (keyRequest P s (zeros 16)))
  | .cbcRun => some (.encrypt (s.workBytes .bInput))
  | .ctrInit => some (.init .ctr)
  | .ctrKey => some (.setKey (keyRequest P s (s.workBytes .ctrIv)))
  | .ctrRun => some (.encrypt (s.workBytes .ctrIn))
  | _ => none

theorem phaseOp_of_requestOf {P : Params} {c : Command} {p : Phase} {s : State} {r : PortRequest}
    (h : requestOf P p s = some r) : phaseOp P c p s = ciph P r s := by
  cases p <;> cases h <;> rfl

/-- The cipher context in front of a key or an encryption: what the requests before it have set up (R121, R122). -/
def contextFor (P : Params) (p : Phase) (s : State) : Option CipherContext :=
  match p with
  | .cbcKey => some ⟨some .cbc, none, false⟩
  | .cbcRun => some ⟨some .cbc, some (keyRequest P s (zeros 16)), true⟩
  | .ctrKey => some ⟨some .ctr, none, false⟩
  | .ctrRun => some ⟨some .ctr, some (keyRequest P s (s.workBytes .ctrIv)), true⟩
  | _ => none

/-- What a phase's request is answered with when it is answered OK: the pass over its input (R125, R126). -/
def answerOf (P : Params) (p : Phase) (s : State) : Bytes :=
  match p with
  | .cbcRun => cbcMode P (keyOperand P s) (zeros 16) (s.workBytes .bInput)
  | .ctrRun => ctrMode P (keyOperand P s) (s.workBytes .ctrIv) (s.workBytes .ctrIn)
  | _ => []

/-- Where a phase's answer is stored (R123). -/
def storeAnswer (p : Phase) (out : Bytes) (s : State) : State :=
  match p with
  | .cbcRun => s.setWork .cbcOut out
  | .ctrRun => s.setWork .ctrOut out
  | _ => s

/-- What holds in front of a phase between ALLOC and FREE. -/
structure Prepared (P : Params) (p : Phase) (s : State) : Prop where
  legal : operandsLegal s
  fit : fits P s = true
  work : allWork s
  context : ∀ ctx, contextFor P p s = some ctx → s.context = ctx

/-- A key request on a legal KEY_BITS with a whole IV is well-formed (R122, R124). -/
theorem keyRequest_wf (P : Params) {s : State} {iv : Bytes} (hkey : s.legalKey) (hiv : iv.length = 16) :
    (keyRequest P s iv).wf = true := by
  simp only [SetKey.wf, keyRequest, keyOperand_length, hiv, State.keyLength, keyClassOf]
  rcases hkey with h | h | h <;> simp [h, KeyClass.bytes]

/-- Right after its CIPH_SET_KEY a CIPH_ENCRYPT over whole blocks is under the contract (R120). -/
theorem contract_of_fresh {m : Option Mode} {r : SetKey} {input : Bytes} (hdir : r.direction = .encrypt)
    (hwf : r.wf = true) (hlen : input.length % 16 = 0) :
    (⟨m, some r, true⟩ : CipherContext).contract input = some r := by
  simp [CipherContext.contract, hdir, hwf, hlen]

theorem workSize_whole_blocks (s : State) (b : WorkBuffer) : s.workSize b % 16 = 0 := by
  cases b <;> simp [State.workSize]

theorem workBytes_whole_blocks {s : State} {b : WorkBuffer} (h : s.hasWork b = true) :
    (s.workBytes b).length % 16 = 0 := by
  rw [workBytes_length h, workSize_whole_blocks]

/-- In front of its phase, a request answered OK carries the pass over the phase's input. -/
theorem Prepared.requestOutput_eq {P : Params} {p : Phase} {s : State} {r : PortRequest} (h : Prepared P p s)
    (hr : requestOf P p s = some r) : requestOutput P s.issued s.context r = answerOf P p s := by
  obtain ⟨hkey, -⟩ := h.legal
  cases p with
  | cbcInit | cbcKey | ctrInit | ctrKey => cases hr; rfl
  | cbcRun =>
    cases hr
    have hcontract := contract_of_fresh (m := some .cbc) (r := keyRequest P s (zeros 16)) rfl
      (keyRequest_wf P hkey (by simp)) (workBytes_whole_blocks (h.work .bInput))
    rw [requestOutput, encryptOutput, h.context _ rfl, hcontract]
    rfl
  | ctrRun =>
    cases hr
    have hcontract := contract_of_fresh (m := some .ctr) (r := keyRequest P s (s.workBytes .ctrIv)) rfl
      (keyRequest_wf P hkey (workBytes_length (h.work .ctrIv))) (workBytes_whole_blocks (h.work .ctrIn))
    rw [requestOutput, encryptOutput, h.context _ rfl, hcontract]
    rfl
  | _ => cases hr

/-- In front of its phase, a request's answer goes into the phase's own buffer. -/
theorem Prepared.storeOutput_eq {P : Params} {p : Phase} {s : State} {r : PortRequest} (h : Prepared P p s)
    (hr : requestOf P p s = some r) (e : PortEvent) (out : Bytes) :
    storeOutput (s.record e) r out = storeAnswer p out (s.record e) := by
  cases p with
  | cbcInit | cbcKey | ctrInit | ctrKey => cases hr; rfl
  | cbcRun | ctrRun => cases hr; simp only [storeOutput, record_context, h.context _ rfl, outputBuffer, storeAnswer]
  | _ => cases hr

/-- A phase's request answered OK, in front of its phase. -/
theorem Prepared.phaseOp_ok {P : Params} {c : Command} {p : Phase} {s : State} {r : PortRequest}
    (h : Prepared P p s) (hr : requestOf P p s = some r) (hst : statusAt P s 0 = .ok) :
    phaseOp P c p s = .ok ((storeAnswer p (answerOf P p s) (s.record ⟨r, .ok (answerOf P p s)⟩)).setContext
      (s.context.after r)) := by
  rw [phaseOp_of_requestOf hr, ciph_ok hst, h.requestOutput_eq hr, h.storeOutput_eq hr]

/-! ## From one phase to the next -/

theorem answerOf_cbcRun_length (P : Params) {s : State} (h : allWork s) :
    (answerOf P .cbcRun s).length = s.workSize .cbcOut := by
  rw [answerOf, cbcMode_length _ _ _ _ (workBytes_whole_blocks (h .bInput)), workBytes_length (h .bInput)]
  rfl

theorem answerOf_ctrRun_length (P : Params) {s : State} (h : allWork s) :
    (answerOf P .ctrRun s).length = s.workSize .ctrOut := by
  rw [answerOf, ctrMode_length _ _ _ _ (workBytes_whole_blocks (h .ctrIn)), workBytes_length (h .ctrIn)]
  rfl

theorem allWork_asmCbcmacOp (P : Params) (source : MsgSource) {s : State} (h : allWork s) :
    allWork (asmCbcmacOp P source s) := by
  refine allWork_setWork (allWork_setPhase _ h) ?_
  simp [buildBInput, sourceMessage_length P source h, State.workSize, State.cbcBlocks]

theorem allWork_buildCtrIvOp (P : Params) {s : State} (h : allWork s) : allWork (buildCtrIvOp P s) :=
  allWork_setWork (allWork_setPhase _ h) (by simp [State.workSize])

theorem allWork_asmCtrOp (P : Params) (c : Command) {s : State} (h : allWork s) : allWork (asmCtrOp P c s) := by
  cases c with
  | ccmEnc | ccmDec =>
    exact allWork_setWork (allWork_setPhase _ h) (by simp [State.workSize, State.ctrBlocks])
  | cbcSize | ctrSize => exact h

/-- The phases of the passes keep the working buffers whole. -/
theorem Prepared.allWork_phaseOp {P : Params} {c : Command} {p : Phase} {s t : State} (h : Prepared P p s)
    (hp : p ∈ passesOf c) (ht : phaseOp P c p s = .ok t) : allWork t := by
  cases hr : requestOf P p s with
  | some r =>
    cases hst : statusAt P s 0 with
    | error => rw [phaseOp_of_requestOf hr, ciph_error hst] at ht; cases ht
    | ok =>
      rw [h.phaseOp_ok hr hst] at ht
      cases ht
      apply allWork_setContext
      have hrecord := allWork_record ⟨r, .ok (answerOf P p s)⟩ h.work
      cases p with
      | cbcRun => exact allWork_setWork hrecord (by simpa using answerOf_cbcRun_length P h.work)
      | ctrRun => exact allWork_setWork hrecord (by simpa using answerOf_ctrRun_length P h.work)
      | _ => exact hrecord
  | none =>
    cases p with
    | asmCbc => cases ht; exact allWork_asmCbcmacOp P _ h.work
    | ctrIv => cases ht; exact allWork_buildCtrIvOp P h.work
    | asmCtr => cases ht; exact allWork_asmCtrOp P c h.work
    | recover => cases ht; exact h.work
    | compare =>
      have hstate := compareOp_state s
      rw [show compareOp s = .ok t from ht, Flow.state_ok] at hstate
      exact hstate ▸ h.work
    | cbcInit | cbcKey | cbcRun | ctrInit | ctrKey | ctrRun => cases hr
    | idle | clearOut | validate | alloc | output | free | size => cases c <;> simp [passesOf] at hp

/-- The phase whose request a key or an encryption builds on (R121 to R123). -/
def requiredBefore : Phase → Option Phase
  | .cbcKey => some .cbcInit
  | .cbcRun => some .cbcKey
  | .ctrKey => some .ctrInit
  | .ctrRun => some .ctrKey
  | _ => none

/-- `q` can stand right after `p`: it builds on no request, or on that of `p`. -/
abbrev follows (p q : Phase) : Prop := requiredBefore q = none ∨ requiredBefore q = some p

theorem contextFor_of_requiredBefore {P : Params} {q : Phase} {s : State} (h : requiredBefore q = none) :
    contextFor P q s = none := by
  cases q <;> simp [requiredBefore] at h <;> rfl

/-- The context in front of a key or an encryption is what the phase before it leaves. -/
theorem Prepared.context_next {P : Params} {c : Command} {p q : Phase} {s t : State} (h : Prepared P p s)
    (hq : requiredBefore q = some p) (ht : phaseOp P c p s = .ok t) :
    ∀ ctx, contextFor P q t = some ctx → t.context = ctx := by
  have hframe : EngineFrame s t := by
    have hp : p ≠ .size := by rintro rfl; cases q <;> cases hq
    simpa [ht] using phaseOp_frame P c s hp
  obtain ⟨r, hr⟩ : ∃ r, requestOf P p s = some r := by cases q <;> cases hq <;> exact ⟨_, rfl⟩
  cases hst : statusAt P s 0 with
  | error => rw [phaseOp_of_requestOf hr, ciph_error hst] at ht; cases ht
  | ok =>
    rw [h.phaseOp_ok hr hst, Flow.ok.injEq] at ht
    have hcontext : t.context = s.context.after r := by rw [← ht, setContext_context]
    intro ctx hctx
    rw [hcontext, ← Option.some_inj, ← hctx]
    cases q with
    | cbcKey | ctrKey => cases hq; cases hr; rfl
    | cbcRun => cases hq; cases hr; rw [h.context _ rfl, contextFor, hframe.keyRequest]; rfl
    | ctrRun =>
      cases hq; cases hr
      have hiv : t.workBytes .ctrIv = s.workBytes .ctrIv := by rw [← ht]; simp [storeAnswer]
      rw [h.context _ rfl, contextFor, hframe.keyRequest, hiv]
      rfl
    | _ => cases hq

/-- In front of one phase of the passes, and so in front of the next. -/
theorem Prepared.next {P : Params} {c : Command} {p q : Phase} {s t : State} (h : Prepared P p s)
    (hp : p ∈ passesOf c) (hq : follows p q) (ht : phaseOp P c p s = .ok t) : Prepared P q t := by
  have hframe : EngineFrame s t := by
    have hsize : p ≠ .size := by rintro rfl; cases c <;> simp [passesOf] at hp
    simpa [ht] using phaseOp_frame P c s hsize
  refine ⟨hframe.registers.operandsLegal.mpr h.legal, (hframe.registers.fits P).trans h.fit,
    h.allWork_phaseOp hp ht, ?_⟩
  rcases hq with hnone | hsome
  · rw [contextFor_of_requiredBefore hnone]
    nofun
  · exact h.context_next hsome ht

/-- ALLOC leaves a command in front of its first pass. -/
theorem Prepared.of_allocOp {P : Params} {p : Phase} {s t : State} (hp : requiredBefore p = none)
    (ht : allocOp P s = .ok t) (hlegal : operandsLegal s) : Prepared P p t := by
  have hframe : EngineFrame s t := by simpa [ht] using allocOp_frame P s
  rcases allocOp_cases P s with ⟨hfit, u, hu, hwork, -⟩ | ⟨-, hraise⟩
  · rw [hu] at ht
    cases ht
    refine ⟨hframe.registers.operandsLegal.mpr hlegal, (hframe.registers.fits P).trans hfit, fun b => ?_, ?_⟩
    · exact hasWork_iff.mpr ⟨_, hwork b, by rw [hframe.registers.workSize, zeros_length]⟩
    · rw [contextFor_of_requiredBefore hp]
      nofun
  · rw [hraise] at ht
    cases ht

theorem prepared_allocated {P : Params} {c : Command} {s : State} {p : Phase} (hlegal : operandsLegal s)
    (hfit : fits P s = true) (hp : requiredBefore p = none) : Prepared P p (allocated P c s) :=
  .of_allocOp hp (allocOp_allocated hfit) hlegal

/-- Where the sequencer stands does not matter. -/
theorem Prepared.relocate {P : Params} {p : Phase} {s : State} (h : Prepared P p s) (q : Phase)
    (d : Option Command) : Prepared P p { s with phase := q, command := d } := by
  refine ⟨h.legal, h.fit, fun b => hasWork_congr (by cases b <;> rfl) (by cases b <;> rfl) (h.work b), ?_⟩
  have hcontext : contextFor P p { s with phase := q, command := d } = contextFor P p s := by cases p <;> rfl
  rw [hcontext]
  exact h.context

theorem Prepared.setPhase {P : Params} {p : Phase} {s : State} (h : Prepared P p s) (q : Phase) :
    Prepared P p (s.setPhase q) := h.relocate q s.command

theorem Prepared.enter {P : Params} {p : Phase} {s : State} (h : Prepared P p s) (c : Command) (q : Phase) :
    Prepared P p (s.enter c q) := h.relocate q (some c)

/-! ## The sequencer, phase by phase (O49) -/

theorem needWork_eq_none {s : State} {b : WorkBuffer} (h : s.hasWork b = true) : needWork s b = none := if_pos h

/-- A prepared phase has its operands. -/
theorem Prepared.phaseFault_eq {P : Params} {p : Phase} {s : State} (h : Prepared P p s) :
    phaseFault P p s = none := by
  obtain ⟨hkey, htag, -⟩ := h.legal
  cases p with
  | cbcKey => exact if_pos hkey
  | cbcRun => exact needWork_eq_none (h.work .bInput)
  | ctrKey => exact (if_pos hkey).trans (needWork_eq_none (h.work .ctrIv))
  | ctrRun => exact needWork_eq_none (h.work .ctrIn)
  | recover => exact needWork_eq_none (h.work .ctrOut)
  | compare =>
    rw [phaseFault, if_neg (not_not.mpr htag), if_pos (h.work .cbcOut), needWork_eq_none (h.work .ctrOut)]
  | output =>
    rw [phaseFault, if_neg (not_not.mpr htag), if_neg (by rw [h.fit]; decide), needWork_eq_none (h.work .ctrOut)]
  | _ => rfl

/-- A prepared phase's operation of the opcode table goes on. -/
theorem Prepared.exec_next {c : Command} {p : Phase} {i : Instr} {s : State} (h : Prepared Config.params p s)
    (hi : phaseInstr Config.params c p s = some i) : ∃ t, exec i s = .next t := by
  obtain ⟨-, htag, hnonce, haad, hmsg⟩ := h.legal
  cases p with
  | validate | cbcInit | cbcKey | cbcRun | ctrInit | ctrKey | ctrRun => cases hi; exact ⟨_, rfl⟩
  | asmCbc =>
    cases hi
    have hsource : sourceExists (sourceOf c) s = true := by
      cases c with
      | ccmDec => exact h.work .ctrOut
      | ccmEnc | cbcSize | ctrSize => rfl
    exact ⟨_, execAsmCbcmac_eq_next.mpr ⟨⟨htag, hnonce, haad, hmsg⟩, h.fit, hsource, rfl⟩⟩
  | ctrIv => cases hi; exact ⟨_, execBuildCtrIv_eq_next.mpr ⟨hnonce, rfl⟩⟩
  | asmCtr =>
    cases hi
    cases c with
    | ccmDec => exact ⟨_, execAsmCtrDec_eq_next.mpr ⟨htag, h.fit, rfl⟩⟩
    | ccmEnc | cbcSize | ctrSize => exact ⟨_, execAsmCtrEnc_eq_next.mpr ⟨h.fit, h.work .cbcOut, rfl⟩⟩
  | idle | clearOut | alloc | recover | compare | output | free | size => cases hi

/-- A state that stands inside a command, with no input to come and nothing on the port: in phase `p` of the
command's list, `before` done and `rest` to come. -/
structure Inside (c : Command) (before : List Phase) (p : Phase) (rest : List Phase) (s : State) : Prop where
  inputs : s.inputs = []
  port : s.port = none
  command : s.command = some c
  phase : s.phase = p
  list : phasesOf c = before ++ p :: rest

theorem Inside.phase_mem {c : Command} {before rest : List Phase} {p : Phase} {s : State}
    (h : Inside c before p rest s) : p ∈ phasesOf c := by simp [h.list]

theorem Inside.enter_eq {c : Command} {before rest : List Phase} {p : Phase} {s : State}
    (h : Inside c before p rest s) : s.enter c p = s := by
  rw [State.enter, ← h.phase, ← h.command]

/-- One step inside a command performs the phase. -/
theorem Inside.step_eq {c : Command} {before rest : List Phase} {p : Phase} {s : State}
    (h : Inside c before p rest s) (hfault : phaseFault Config.params p s = none)
    (hexec : ∀ i, phaseInstr Config.params c p s = some i → ∃ t, exec i s = .next t) :
    step s = .next (sequel c p (phaseOp Config.params c p s)) := by
  have hmem := h.phase_mem
  have hidle : p ≠ .idle := fun he => idle_notMem_phasesOf c (he ▸ hmem)
  obtain rfl := h.phase
  have hgoes : ∃ t, sequencerTurn Config.params s = .next t := by
    simp only [sequencerTurn, h.command, not_not.mpr hmem, if_false, hfault]
    split
    · rename_i i hi
      obtain ⟨t, ht⟩ := hexec i hi
      rw [ht, ← settle_phaseOp_of_exec hmem hi ht, afterPhase_phaseOp hidle]
      exact ⟨_, rfl⟩
    · exact ⟨_, afterPhase_phaseOp hidle⟩
  obtain ⟨t, ht⟩ := hgoes
  obtain ⟨d, hd, -, -, rfl⟩ := sequencerTurn_cases ht
  rw [h.command] at hd
  cases hd
  rw [step_sequencer (by simp [h.inputs]) h.port hidle, ht]

theorem Inside.step_prepared {c : Command} {before rest : List Phase} {p : Phase} {s : State}
    (h : Inside c before p rest s) (hp : Prepared Config.params p s) :
    step s = .next (sequel c p (phaseOp Config.params c p s)) :=
  h.step_eq hp.phaseFault_eq fun _ hi => hp.exec_next hi

/-- The phase after `p` in a list that holds `p` once. -/
theorem nextPhase_append {before rest : List Phase} {p : Phase} (h : p ∉ before) :
    nextPhase p (before ++ p :: rest) = rest.head? := by
  induction before with
  | nil => cases rest <;> simp [nextPhase]
  | cons q before ih =>
    obtain ⟨hne, hmem⟩ : ¬ p = q ∧ p ∉ before := by simpa using h
    cases before with
    | nil => simp [nextPhase, hne, ← ih hmem]
    | cons q' before => simpa [nextPhase, hne] using ih hmem

theorem phasesOf_nodup (c : Command) : (phasesOf c).Nodup := by cases c <;> decide

theorem Inside.nextPhase_eq {c : Command} {before rest : List Phase} {p : Phase} {s : State}
    (h : Inside c before p rest s) : nextPhase p (phasesOf c) = rest.head? := by
  have hnodup := phasesOf_nodup c
  rw [h.list] at hnodup ⊢
  apply nextPhase_append
  intro hmem
  exact List.disjoint_of_nodup_append hnodup hmem (by simp)

/-- Moving on to the next phase of the list. -/
theorem Inside.advance {c : Command} {before rest : List Phase} {p q : Phase} {s t : State}
    (h : Inside c before p (q :: rest) s) (hc : c.isCcm = true) (ht : phaseOp Config.params c p s = .ok t) :
    t.advance c p = t.setPhase q ∧ Inside c (before ++ [p]) q rest (t.setPhase q) := by
  have hsize : p ≠ .size := fun he => size_notMem_phasesOf hc (he ▸ h.phase_mem)
  have hframe : EngineFrame s t := by simpa [ht] using phaseOp_frame Config.params c s hsize
  have hcommand : t.command = s.command := by
    simpa [ht] using phaseOp_command (P := Config.params) (c := c) h.phase
  constructor
  · rw [State.advance, h.nextPhase_eq]
    rfl
  · exact ⟨hframe.inputs.trans h.inputs, hframe.port.trans h.port, hcommand.trans h.command, rfl, by simp [h.list]⟩

/-- An engine in IDLE with no input and nothing on the port stays as it is. -/
theorem run_idle {s : State} (hi : s.phase = .idle) (hport : s.port = none) (hin : s.inputs = []) (k : Nat) :
    Host.Core.run Sys2Proof.core k s = .next s := by
  have hstep : step s = .next s := by rw [step_host (by simp [hin]) hport hi, hostTurn, hin]
  induction k with
  | zero => rfl
  | succ k ih => rw [run_next hstep, ih]

theorem Inside.run_raise {c : Command} {before rest : List Phase} {p : Phase} {s t : State} {r : Result}
    (h : Inside c before p rest s) (hc : c.isCcm = true) (ht : phaseOp Config.params c p s = .raise r t) (k : Nat) :
    Host.Core.run Sys2Proof.core k (failureExit r t) = .next (failureExit r t) := by
  have hsize : p ≠ .size := fun he => size_notMem_phasesOf hc (he ▸ h.phase_mem)
  have hframe : EngineFrame s t := by simpa [ht] using phaseOp_frame Config.params c s hsize
  have hexit : EngineFrame s (failureExit r t) := hframe.trans (failureExit_frame r t)
  exact run_idle (failureExit_phase r t) (hexit.port.trans h.port) (hexit.inputs.trans h.inputs) k

/-- One phase that is not the last, and then the rest of the list. -/
theorem Inside.run_cons {c : Command} {before rest : List Phase} {p q : Phase} {s : State} {k : Nat}
    (h : Inside c before p (q :: rest) s) (hc : c.isCcm = true)
    (hstep : step s = .next (sequel c p (phaseOp Config.params c p s)))
    (hrest : ∀ t, phaseOp Config.params c p s = .ok t → Inside c (before ++ [p]) q rest (t.setPhase q) →
      Host.Core.run Sys2Proof.core k (t.setPhase q) = .next (runPhases Config.params c (q :: rest) (t.setPhase q))) :
    Host.Core.run Sys2Proof.core (k + 1) s = .next (runPhases Config.params c (p :: q :: rest) s) := by
  rw [run_next hstep]
  cases hfl : phaseOp Config.params c p s with
  | ok t =>
    obtain ⟨hadvance, hinside⟩ := h.advance hc hfl
    rw [runPhases_ok (h.enter_eq.symm ▸ hfl), sequel, hadvance, hrest t hfl hinside]
    rfl
  | raise r t =>
    rw [runPhases_raise (h.enter_eq.symm ▸ hfl), sequel, h.run_raise hc hfl]

/-- FREE ends a command. -/
theorem Inside.run_free {c : Command} {before : List Phase} {s : State} {k : Nat}
    (h : Inside c before .free [] s) :
    Host.Core.run Sys2Proof.core (k + 1) s = .next (runPhases Config.params c [.free] s) := by
  have hstep : step s = .next ((freeOp s).advance c .free) := h.step_eq rfl nofun
  have hadvance : (freeOp s).advance c .free = (freeOp s).endCommand := by
    rw [State.advance, h.nextPhase_eq]
    rfl
  have hend : runPhases Config.params c [.free] s = (freeOp (s.enter c .free)).endCommand := rfl
  rw [run_next hstep, hadvance, hend, h.enter_eq]
  exact run_idle (s := (freeOp s).endCommand) rfl h.port h.inputs k

/-- What follows in the lists of the CCM commands: no key without its CIPH_INIT, no encryption without its key. -/
theorem passes_isChain (c : Command) : List.IsChain follows (passesOf c ++ [.output, .free]) := by
  cases c <;> decide

/-- From the passes to the end of the command. -/
theorem Inside.run_passes {c : Command} (hc : c.isCcm = true) :
    ∀ (ps before rest : List Phase) (p : Phase) (s : State) (k : Nat),
      p :: rest = ps ++ [.output, .free] → (p :: rest).IsChain follows → (∀ q ∈ ps, q ∈ passesOf c) →
        Inside c before p rest s → Prepared Config.params p s → rest.length < k →
          Host.Core.run Sys2Proof.core k s = .next (runPhases Config.params c (p :: rest) s) := by
  intro ps
  induction ps with
  | nil =>
    intro before rest p s k hlist _ _ h hp hk
    cases hlist
    obtain ⟨k, rfl⟩ : ∃ j, k = j + 2 := ⟨k - 2, by simp at hk; omega⟩
    exact h.run_cons hc (h.step_prepared hp) fun t _ hfree => hfree.run_free
  | cons p' ps ih =>
    intro before rest p s k hlist hchain hmem h hp hk
    rw [List.cons_append, List.cons.injEq] at hlist
    obtain ⟨rfl, rfl⟩ := hlist
    obtain ⟨k, rfl⟩ : ∃ j, k = j + 1 := ⟨k - 1, by omega⟩
    obtain ⟨q, rest, hrest⟩ : ∃ q rest, ps ++ [.output, .free] = q :: rest := by cases ps <;> exact ⟨_, _, rfl⟩
    rw [hrest] at h hk hchain ⊢
    obtain ⟨hfollows, hchain'⟩ := List.isChain_cons_cons.mp hchain
    refine h.run_cons hc (h.step_prepared hp) fun t ht hinside => ?_
    have hq : Prepared Config.params q t := hp.next (hmem p (by simp)) hfollows ht
    exact ih _ rest q _ k hrest.symm hchain' (fun x hx => hmem x (by simp [hx])) hinside (hq.setPhase q)
      (by simpa using hk)

/-- The first pass of either command needs no cipher context. -/
theorem passes_head {c : Command} (hc : c.isCcm = true) :
    ∃ p rest, passesOf c ++ [.output, .free] = p :: rest ∧ requiredBefore p = none ∧ rest.length < 13 := by
  cases c with
  | ccmEnc | ccmDec => exact ⟨_, _, rfl, rfl, by decide⟩
  | cbcSize | ctrSize => cases hc

theorem validateOp_ok {s t : State} (h : validateOp s = .ok t) : operandsLegal s ∧ t = s.setPhase .validate := by
  rcases validateOp_cases s with ⟨hlegal, hok⟩ | ⟨r, -, -, hraise⟩
  · rw [hok] at h
    cases h
    exact ⟨hlegal, rfl⟩
  · rw [hraise] at h
    cases h

/-- CLEAR_OUT, VALIDATE and ALLOC one by one, then the passes: sixteen steps are the atomic command. -/
theorem run_command {c : Command} {s : State} (hc : c.isCcm = true) (hin : s.inputs = []) (hport : s.port = none) :
    Host.Core.run Sys2Proof.core 16 (s.enter c .clearOut) = .next (runCommand Config.params c s) := by
  obtain ⟨p, rest, hpasses, hp, hlength⟩ := passes_head hc
  have hlist : phasesOf c = .clearOut :: .validate :: .alloc :: p :: rest := by rw [phasesOf_ccm hc, hpasses]
  have hchain := passes_isChain c
  rw [hpasses] at hchain
  have h : Inside c [] .clearOut (.validate :: .alloc :: p :: rest) (s.enter c .clearOut) :=
    ⟨hin, hport, rfl, rfl, hlist⟩
  have hcommand : runCommand Config.params c s =
      runPhases Config.params c (.clearOut :: .validate :: .alloc :: p :: rest) (s.enter c .clearOut) := by
    rw [runCommand, hlist]
    rfl
  rw [hcommand]
  refine h.run_cons hc (h.step_eq rfl nofun) fun t _ hvalidate => ?_
  refine hvalidate.run_cons hc (hvalidate.step_eq rfl fun i hi => ?_) fun u hu halloc => ?_
  · cases hi
    exact ⟨_, rfl⟩
  obtain ⟨hlegal, rfl⟩ := validateOp_ok hu
  refine halloc.run_cons hc (halloc.step_eq rfl nofun) fun v hv hpass => ?_
  have hprepared : Prepared Config.params p v := .of_allocOp hp hv hlegal
  exact hpass.run_passes hc (passesOf c) _ rest p _ 13 hpasses.symm hchain (fun _ hq => hq) (hprepared.setPhase p)
    hlength

/-- Settles O49. -/
theorem phaseByPhaseRunIsTheCommand : Obligations.PhaseByPhaseRunIsTheCommand := by
  intro s c i hci hin hport
  rcases hci with ⟨rfl, rfl⟩ | ⟨rfl, rfl⟩
  · exact run_command rfl hin hport
  · exact run_command rfl hin hport

end Sys2Proof.Machine
end

section
/-! # A CCM command depends on its operands and on the primitive's answers alone (O48)

Two commands run side by side from states that agree on what R15 and R20 let a command depend on. Each phase keeps
the two runs alike: they go on together, issue the same requests with the same answers, or raise the same result. -/

namespace Sys2Proof.Machine

/-- Both runs have recorded the same requests and answers since they began. -/
def sameEvents (s₀ u₀ s u : State) : Prop := ∃ events, s.trace = s₀.trace ++ events ∧ u.trace = u₀.trace ++ events

/-- Two states inside two runs of a command: alike in operands, outputs and working buffers, in the statuses of the
next `n` requests, and in what was recorded since the runs began. -/
structure Twin (P : Params) (c : Command) (s₀ u₀ : State) (n : Nat) (s u : State) : Prop where
  operands : agreeOnOperands P s u
  tag : c = .ccmDec → tagOperand P u = tagOperand P s
  outputs : ∀ sp, hostWritable sp = false → u.buffer sp = s.buffer sp
  work : ∀ b, u.work b = s.work b
  statuses : ∀ k < n, statusAt P u k = statusAt P s k
  events : sameEvents s₀ u₀ s u

section Rules

variable {P : Params} {c : Command} {s₀ u₀ s u : State} {n : Nat}

theorem Twin.registers (h : Twin P c s₀ u₀ n s u) : sameRegisters s u := by
  obtain ⟨hreg, -⟩ := h.operands
  exact hreg

theorem Twin.workBytes (h : Twin P c s₀ u₀ n s u) (b : WorkBuffer) : u.workBytes b = s.workBytes b := by
  rw [State.workBytes, h.work, State.workBytes]

/-! ## Updates keep two states alike -/

theorem statusAt_congr {s t : State} (hanswers : t.answers = s.answers) (hissued : t.issued = s.issued) (k : Nat) :
    statusAt P t k = statusAt P s k := by
  rw [statusAt, hanswers, hissued, statusAt]

/-- Where the sequencer stands does not matter, nor what the contexts hold: a command sets up its own. -/
theorem Twin.relocate (h : Twin P c s₀ u₀ n s u) (p p' : Phase) (d d' : Option Command) (ctx ctx' : CipherContext) :
    Twin P c s₀ u₀ n { s with phase := p, command := d, context := ctx }
      { u with phase := p', command := d', context := ctx' } :=
  ⟨h.operands, h.tag, h.outputs, h.work, h.statuses, h.events⟩

theorem Twin.setPhase (h : Twin P c s₀ u₀ n s u) (p : Phase) : Twin P c s₀ u₀ n (s.setPhase p) (u.setPhase p) :=
  h.relocate p p s.command u.command s.context u.context

theorem Twin.enter (h : Twin P c s₀ u₀ n s u) (p : Phase) : Twin P c s₀ u₀ n (s.enter c p) (u.enter c p) :=
  h.relocate p p (some c) (some c) s.context u.context

theorem Twin.setContext (h : Twin P c s₀ u₀ n s u) (ctx ctx' : CipherContext) :
    Twin P c s₀ u₀ n (s.setContext ctx) (u.setContext ctx') :=
  h.relocate s.phase u.phase s.command u.command ctx ctx'

theorem Twin.setWork (h : Twin P c s₀ u₀ n s u) (b : WorkBuffer) {bytes bytes' : Bytes} (hbytes : bytes' = bytes) :
    Twin P c s₀ u₀ n (s.setWork b bytes) (u.setWork b bytes') where
  operands := by simpa [agreeOnOperands, sameRegisters] using h.operands
  tag := by simpa using h.tag
  outputs := by simpa using h.outputs
  work := by simp [hbytes, h.work]
  statuses k hk := by
    have hkept (t : State) (x : Bytes) : statusAt P (t.setWork b x) k = statusAt P t k :=
      statusAt_congr (setWork_answers ..) (setWork_issued ..) k
    rw [hkept, hkept, h.statuses k hk]
  events := by simpa [sameEvents] using h.events

theorem sameEvents_record (h : sameEvents s₀ u₀ s u) (e : PortEvent) :
    sameEvents s₀ u₀ (s.record e) (u.record e) := by
  obtain ⟨events, hs, hu⟩ := h
  exact ⟨events ++ [e], by simp [hs], by simp [hu]⟩

theorem Twin.record (h : Twin P c s₀ u₀ (n + 1) s u) (e : PortEvent) :
    Twin P c s₀ u₀ n (s.record e) (u.record e) where
  operands := h.operands
  tag := h.tag
  outputs := by simpa using h.outputs
  work := by simpa using h.work
  statuses k hk := by rw [statusAt_record, statusAt_record, h.statuses (k + 1) (by omega)]
  events := sameEvents_record h.events e

theorem Twin.storeAnswer (h : Twin P c s₀ u₀ n s u) (p : Phase) {out out' : Bytes} (hout : out' = out) :
    Twin P c s₀ u₀ n (storeAnswer p out s) (storeAnswer p out' u) := by
  cases p with
  | cbcRun => exact h.setWork .cbcOut hout
  | ctrRun => exact h.setWork .ctrOut hout
  | _ => exact h

/-! ## What the phases read is alike -/

theorem Twin.keyRequest_eq (h : Twin P c s₀ u₀ n s u) (iv : Bytes) : keyRequest P u iv = keyRequest P s iv := by
  obtain ⟨hreg, hkey, -⟩ := h.operands
  rw [keyRequest, hreg.keyBits, hkey, keyRequest]

theorem Twin.requestOf_eq (h : Twin P c s₀ u₀ n s u) (p : Phase) : requestOf P p u = requestOf P p s := by
  cases p <;> simp only [requestOf, h.keyRequest_eq, h.workBytes]

theorem Twin.answerOf_eq (h : Twin P c s₀ u₀ n s u) (p : Phase) : answerOf P p u = answerOf P p s := by
  obtain ⟨-, hkey, -⟩ := h.operands
  cases p <;> simp only [answerOf, hkey, h.workBytes]

theorem Twin.sourceMessage_eq (h : Twin P c s₀ u₀ n s u) (source : MsgSource) :
    sourceMessage P source u = sourceMessage P source s := by
  obtain ⟨hreg, -, -, -, hmsg⟩ := h.operands
  cases source with
  | msgIn => exact hmsg
  | recovered => rw [sourceMessage, h.workBytes, hreg.msgLength]; rfl

theorem Twin.macOf_eq (h : Twin P c s₀ u₀ n s u) : macOf u = macOf s := by
  rw [macOf, h.workBytes, h.registers.cbcBlocks, macOf]

theorem Twin.recomputedTag_eq (h : Twin P c s₀ u₀ n s u) : recomputedTag u = recomputedTag s := by
  rw [recomputedTag, h.workBytes, h.registers.cbcBlocks, h.registers.tagLength, recomputedTag]

theorem Twin.recoveredTag_eq (h : Twin P c s₀ u₀ n s u) : recoveredTag u = recoveredTag s := by
  rw [recoveredTag, h.workBytes, h.registers.tagLength, recoveredTag]

/-! ## One phase of both runs -/

/-- Both runs go on alike, or both raise the same result with the same requests issued. -/
inductive TwinFlow (P : Params) (c : Command) (s₀ u₀ : State) (n : Nat) : Flow → Flow → Prop where
  | ok {s u : State} (h : Twin P c s₀ u₀ n s u) : TwinFlow P c s₀ u₀ n (.ok s) (.ok u)
  | raise {s u : State} (r : Result) (h : sameEvents s₀ u₀ s u) : TwinFlow P c s₀ u₀ n (.raise r s) (.raise r u)

theorem Twin.asmCbcmacOp (h : Twin P c s₀ u₀ n s u) (source : MsgSource) :
    Twin P c s₀ u₀ n (asmCbcmacOp P source s) (asmCbcmacOp P source u) := by
  obtain ⟨hreg, -, hnonce, haad, -⟩ := h.operands
  refine (h.setPhase _).setWork _ ?_
  rw [hreg.tagLength, hnonce, haad, h.sourceMessage_eq]

theorem Twin.buildCtrIvOp (h : Twin P c s₀ u₀ n s u) :
    Twin P c s₀ u₀ n (buildCtrIvOp P s) (buildCtrIvOp P u) := by
  obtain ⟨-, -, hnonce, -⟩ := h.operands
  refine (h.setPhase _).setWork _ ?_
  rw [hnonce]

theorem Twin.asmCtrOp (h : Twin P c s₀ u₀ n s u) : Twin P c s₀ u₀ n (asmCtrOp P c s) (asmCtrOp P c u) := by
  obtain ⟨-, -, -, -, hmsg⟩ := h.operands
  cases c with
  | ccmEnc => exact (h.setPhase .asmCtr).setWork .ctrIn (by rw [h.macOf_eq, hmsg])
  | ccmDec => exact (h.setPhase .asmCtr).setWork .ctrIn (by rw [h.tag rfl, hmsg])
  | cbcSize | ctrSize => exact h

theorem Twin.compareOp (h : Twin P c s₀ u₀ n s u) : TwinFlow P c s₀ u₀ n (compareOp s) (compareOp u) := by
  rw [Machine.compareOp, Machine.compareOp, h.recomputedTag_eq, h.recoveredTag_eq]
  split
  · exact .ok h
  · exact .raise _ h.events

/-- The phases that issue a request (R130). -/
def asksPort : Phase → Bool
  | .cbcInit | .cbcKey | .cbcRun | .ctrInit | .ctrKey | .ctrRun => true
  | _ => false

theorem requestOf_of_asksPort {p : Phase} (s : State) (hp : asksPort p = true) : ∃ r, requestOf P p s = some r := by
  cases p with
  | cbcInit | cbcKey | cbcRun | ctrInit | ctrKey | ctrRun => exact ⟨_, rfl⟩
  | _ => cases hp

/-- A request in both runs: the same answer, or Error in both. -/
theorem Twin.request (h : Twin P c s₀ u₀ (n + 1) s u) {p : Phase} (hp : asksPort p = true) (hs : Prepared P p s)
    (hu : Prepared P p u) : TwinFlow P c s₀ u₀ n (phaseOp P c p s) (phaseOp P c p u) := by
  obtain ⟨r, hr⟩ := requestOf_of_asksPort (P := P) s hp
  have hr' : requestOf P p u = some r := (h.requestOf_eq p).trans hr
  have hstatus := h.statuses 0 (by omega)
  cases hst : statusAt P s 0 with
  | ok =>
    rw [hs.phaseOp_ok hr hst, hu.phaseOp_ok hr' (hstatus.trans hst), h.answerOf_eq p]
    exact .ok (((h.record _).storeAnswer p rfl).setContext _ _)
  | error =>
    rw [phaseOp_of_requestOf hr, phaseOp_of_requestOf hr', ciph_error hst, ciph_error (hstatus.trans hst)]
    exact .raise _ (sameEvents_record h.events _)

/-- One phase of the passes in both runs. -/
theorem Twin.phaseOp {p : Phase} (hp : p ∈ passesOf c) (hs : Prepared P p s) (hu : Prepared P p u)
    (h : Twin P c s₀ u₀ (n + (asksPort p).toNat) s u) :
    TwinFlow P c s₀ u₀ n (phaseOp P c p s) (phaseOp P c p u) := by
  cases p with
  | cbcInit | cbcKey | cbcRun | ctrInit | ctrKey | ctrRun => exact h.request rfl hs hu
  | asmCbc => exact .ok (h.asmCbcmacOp (sourceOf c))
  | ctrIv => exact .ok h.buildCtrIvOp
  | asmCtr => exact .ok h.asmCtrOp
  | recover => exact .ok h
  | compare => exact h.compareOp
  | idle | clearOut | validate | alloc | output | free | size => cases c <;> simp [passesOf] at hp

/-! ## Both runs to their ends -/

/-- The ends of two runs: the same result, the same outputs, the same requests with the same answers. -/
structure SameEnd (s₀ u₀ t v : State) : Prop where
  result : statusResult v.status = statusResult t.status
  outputs : ∀ sp, hostWritable sp = false → v.buffer sp = t.buffer sp
  events : sameEvents s₀ u₀ t v

theorem SameEnd.of_failureExit {s u : State} (r : Result) (h : sameEvents s₀ u₀ s u) :
    SameEnd s₀ u₀ (failureExit r s) (failureExit r u) where
  result := by simp
  outputs sp hsp := by simp [hsp]
  events := by simpa [sameEvents] using h

theorem Twin.outputOp_buffer (h : Twin P c s₀ u₀ n s u) {sp : Space} (hsp : hostWritable sp = false) :
    (outputOp c u).buffer sp = (outputOp c s).buffer sp := by
  have hmsg : (releaseMessage u).buffer sp = (releaseMessage s).buffer sp := by
    have hout : u.msgOut = s.msgOut := h.outputs .msgOut rfl
    rw [releaseMessage, h.workBytes, h.registers.msgLength, hout, setBuffer_buffer, h.outputs sp hsp,
      ← setBuffer_buffer, releaseMessage]
  have htag : (releaseTag u).buffer sp = (releaseTag s).buffer sp := by
    have hout : u.tagOut = s.tagOut := h.outputs .tagOut rfl
    rw [releaseTag, h.workBytes, h.registers.tagLength, hout, setBuffer_buffer, h.outputs sp hsp, ← setBuffer_buffer,
      releaseTag]
  cases c with
  | ccmEnc =>
    cases sp with
    | msgOut => exact hmsg
    | tagOut => exact htag
    | key | nonce | aad | msgIn | tagIn => cases hsp
  | ccmDec => exact hmsg
  | cbcSize | ctrSize => exact h.outputs sp hsp

theorem outputOp_trace (c : Command) (s : State) : (outputOp c s).trace = s.trace := by
  cases c <;> simp [outputOp, releaseMessage, releaseTag]

/-- OUTPUT and FREE in both runs. -/
theorem Twin.release (h : Twin P c s₀ u₀ n s u) (hc : c.isCcm = true) :
    SameEnd s₀ u₀ (runPhases P c [.output, .free] s) (runPhases P c [.output, .free] u) where
  result := by
    simp [runPhases, Machine.phaseOp, freeOp, outputOp_result _ hc]
  outputs sp hsp := by
    simpa [runPhases, Machine.phaseOp, freeOp] using (h.enter .output).outputOp_buffer hsp
  events := by
    simpa [runPhases, Machine.phaseOp, freeOp, outputOp_trace, sameEvents] using h.events

/-- From the passes to the ends: the two runs stay alike, phase by phase. -/
theorem Twin.runPhases (hc : c.isCcm = true) :
    ∀ (ps : List Phase) (s u : State), List.IsChain follows (ps ++ [.output, .free]) → (∀ p ∈ ps, p ∈ passesOf c) →
      (∀ p, ps.head? = some p → Prepared P p s ∧ Prepared P p u) → Twin P c s₀ u₀ (ps.countP asksPort) s u →
        SameEnd s₀ u₀ (runPhases P c (ps ++ [.output, .free]) s) (runPhases P c (ps ++ [.output, .free]) u) := by
  intro ps
  induction ps with
  | nil => exact fun s u _ _ _ h => h.release hc
  | cons p ps ih =>
    intro s u hchain hmem hprepared h
    obtain ⟨hs, hu⟩ := hprepared p rfl
    have hcount : (p :: ps).countP asksPort = ps.countP asksPort + (asksPort p).toNat := by
      rw [List.countP_cons, Bool.toNat, ← Bool.cond_eq_ite]
    rw [hcount] at h
    have hpass : p ∈ passesOf c := hmem p (by simp)
    have hflow := (h.enter p).phaseOp hpass (hs.enter c p) (hu.enter c p)
    rw [List.cons_append]
    generalize hfs : Machine.phaseOp P c p (s.enter c p) = fs at hflow
    generalize hfu : Machine.phaseOp P c p (u.enter c p) = fu at hflow
    cases hflow with
    | @ok t v htwin =>
      rw [runPhases_ok hfs, runPhases_ok hfu]
      refine ih t v hchain.tail (fun q hq => hmem q (by simp [hq])) (fun q hq => ?_) htwin
      obtain ⟨rest, rfl⟩ : ∃ rest, ps = q :: rest := by cases ps <;> cases hq; exact ⟨_, rfl⟩
      obtain ⟨hfollows, -⟩ := List.isChain_cons_cons.mp hchain
      exact ⟨(hs.enter c p).next hpass hfollows hfs, (hu.enter c p).next hpass hfollows hfu⟩
    | raise r hevents =>
      rw [runPhases_raise hfs, runPhases_raise hfu]
      exact .of_failureExit r hevents

end Rules

/-! ## Both commands -/

section Commands

variable {P : Params} {c : Command} {s u : State}

/-- Operands that agree still agree where nothing of the frame changed. -/
theorem agreeOnOperands_of_frame {t v : State} (h : agreeOnOperands P s u) (hs : EngineFrame s t)
    (hu : EngineFrame u v) : agreeOnOperands P t v := by
  obtain ⟨hreg, hkey, hnonce, haad, hmsg⟩ := h
  refine ⟨fun r => ((hu.registers r).trans (hreg r)).trans (hs.registers r).symm, ?_, ?_, ?_, ?_⟩
  · rw [hu.keyOperand, hs.keyOperand, hkey]
  · rw [hu.nonceOperand, hs.nonceOperand, hnonce]
  · rw [hu.aadOperand, hs.aadOperand, haad]
  · rw [hu.msgOperand, hs.msgOperand, hmsg]

theorem allocOp_records (P : Params) (s : State) :
    (allocOp P s).state.answers = s.answers ∧ (allocOp P s).state.issued = s.issued
      ∧ (allocOp P s).state.trace = s.trace := by
  unfold allocOp; split <;> simp

theorem statusAt_allocated (P : Params) (c : Command) (s : State) (k : Nat) :
    statusAt P (allocated P c s) k = statusAt P s k := by
  obtain ⟨hanswers, hissued, -⟩ := allocOp_records P (s.clearOutputs.enter c .alloc)
  exact statusAt_congr hanswers hissued k

theorem allocated_trace (P : Params) (c : Command) (s : State) : (allocated P c s).trace = s.trace := by
  obtain ⟨-, -, htrace⟩ := allocOp_records P (s.clearOutputs.enter c .alloc)
  exact htrace

theorem allocated_work (hfit : fits P s = true) (b : WorkBuffer) :
    (allocated P c s).work b = some (zeros (s.workSize b)) := by
  have hfit' : fits P (s.clearOutputs.enter c .alloc) = true := by simpa using hfit
  rw [allocated, allocOp, if_pos hfit']
  cases b <;> simp

/-- The commands begin their passes alike, whatever else differed before. -/
theorem twin_allocated (h : agreeOnOperands P s u) (htag : c = .ccmDec → tagOperand P u = tagOperand P s)
    (hstatus : ∀ k < 6, statusAt P u k = statusAt P s k) (hfit : fits P s = true) :
    Twin P c s u 6 (allocated P c s) (allocated P c u) := by
  obtain ⟨hreg, -⟩ := id h
  have hs := allocated_frame P c s
  have hu := allocated_frame P c u
  have hfit' : fits P u = true := (hreg.fits P).trans hfit
  exact {
    operands := agreeOnOperands_of_frame h hs hu
    tag := fun hc => by rw [hu.tagOperand, hs.tagOperand, htag hc]
    outputs := fun sp hsp => by simp [allocated, hsp]
    work := fun b => by rw [allocated_work hfit, allocated_work hfit', hreg.workSize]
    statuses := fun k hk => by rw [statusAt_allocated, statusAt_allocated, hstatus k hk]
    events := ⟨[], by simp [allocated_trace], by simp [allocated_trace]⟩ }

theorem passes_request_six (hc : c.isCcm = true) : (passesOf c).countP asksPort = 6 := by
  cases c with
  | ccmEnc | ccmDec => rfl
  | cbcSize | ctrSize => cases hc

/-- Two runs of a command from states that agree on its operands and answers. -/
theorem runCommand_sameEnd (hc : c.isCcm = true) (h : agreeOnOperands P s u)
    (htag : c = .ccmDec → tagOperand P u = tagOperand P s) (hstatus : ∀ k < 6, statusAt P u k = statusAt P s k) :
    SameEnd s u (runCommand P c s) (runCommand P c u) := by
  obtain ⟨hreg, -⟩ := id h
  have hcleared (p : Phase) : sameEvents s u (s.clearOutputs.enter c p) (u.clearOutputs.enter c p) :=
    ⟨[], by simp, by simp⟩
  cases hcause : validateCause s with
  | some r =>
    rw [runCommand_illegal P hc hcause, runCommand_illegal P hc (hreg.validateCause.trans hcause)]
    exact .of_failureExit r (hcleared _)
  | none =>
    have hlegal := (validateCause_none s).mp hcause
    have hlegal' := hreg.operandsLegal.mpr hlegal
    cases hfit : fits P s with
    | false =>
      rw [runCommand_unfit hc hlegal hfit, runCommand_unfit hc hlegal' ((hreg.fits P).trans hfit)]
      exact .of_failureExit _ (hcleared _)
    | true =>
      have hfit' := (hreg.fits P).trans hfit
      have htwin := twin_allocated h htag hstatus hfit
      rw [← passes_request_six hc] at htwin
      rw [runCommand_fit hc hlegal hfit, runCommand_fit hc hlegal' hfit']
      refine htwin.runPhases hc _ _ _ (passes_isChain c) (fun _ hp => hp) fun p hp => ?_
      have hfirst : requiredBefore p = none := by cases c <;> cases hp <;> rfl
      exact ⟨prepared_allocated hlegal hfit hfirst, prepared_allocated hlegal' hfit' hfirst⟩

end Commands

/-- Settles O48: the two runs are kept alike phase by phase. -/
theorem commandDependsOnlyOnOperands : Obligations.CommandDependsOnlyOnOperands := by
  intro s u i hi h hstatus
  obtain ⟨c, hc, hdec, hexec⟩ := exec_ccm (hi.imp_right fun ⟨hi, _⟩ => hi)
  have htag : c = .ccmDec → tagOperand Config.params u = tagOperand Config.params s := by
    rintro rfl
    rcases hi with rfl | ⟨-, htag⟩
    · exact absurd (hdec.mpr rfl) nofun
    · exact htag
  have hend := runCommand_sameEnd hc h htag hstatus
  obtain ⟨events, hevents⟩ := hend.events
  refine ⟨_, _, events, hexec s, hexec u, hend.result.symm, fun k => ⟨?_, ?_⟩, hevents⟩
  · exact congrArg (memRead .msgOut k) (hend.outputs .msgOut rfl).symm
  · exact congrArg (memRead .tagOut k) (hend.outputs .tagOut rfl).symm

end Sys2Proof.Machine
end

section
/-! # What one host access does

A byte access by the space it falls in, a REG access by its index; a step in IDLE performs the next access and
consumes it. -/

namespace Sys2Proof.Machine

/-! ## Consuming an access -/

@[simp] theorem consumed_buffer (s : State) (rest : List Input) (sp : Space) :
    ({ s with inputs := rest } : State).buffer sp = s.buffer sp := by cases sp <;> rfl

@[simp] theorem consumed_operand (s : State) (rest : List Input) (r : OperandReg) :
    ({ s with inputs := rest } : State).operand r = s.operand r := by cases r <;> rfl

@[simp] theorem consumed_byteAt (P : Params) (s : State) (rest : List Input) (sp : Space) (i : Nat) :
    byteAt P { s with inputs := rest } sp i = byteAt P s sp i := by rw [byteAt, consumed_buffer, byteAt]

/-! ## The register file -/

/-- What REG reads is the operand registers, STATUS and BLOCKS (R11, R13, R14). -/
theorem regRead_congr {s t : State} (hoperands : sameRegisters s t) (hstatus : t.status = s.status)
    (hblocks : t.blocks = s.blocks) (k : Nat) : regRead k t = regRead k s := by
  unfold regRead
  rw [hstatus, hblocks]
  cases operandAt k with
  | none => rfl
  | some r => simp only [hoperands r]

@[simp] theorem consumed_regRead (s : State) (rest : List Input) (k : Nat) :
    regRead k { s with inputs := rest } = regRead k s := regRead_congr (fun r => consumed_operand s rest r) rfl rfl k

@[simp] theorem regRead_setBuffer (s : State) (sp : Space) (m : List Host.Cell) (k : Nat) :
    regRead k (s.setBuffer sp m) = regRead k s :=
  regRead_congr (setBuffer_operand s sp m) (setBuffer_status s sp m) (setBuffer_blocks s sp m) k

theorem regReadAccess_of_regRead {k : Nat} {v : Word} {s : State} (h : regRead k s = some v) :
    regReadAccess k s = .next (s.reply (.reg v)) := by rw [regReadAccess, h]

theorem operandAt_outside {k : Nat} (h : 7 < k) : operandAt k = none := by
  have hne : k ≠ 2 ∧ k ≠ 3 ∧ k ≠ 4 ∧ k ≠ 5 ∧ k ≠ 6 := by omega
  simp [operandAt, hne]

/-- D36 for REG: no value to read. -/
theorem regRead_outside {k : Nat} (h : 7 < k) (s : State) : regRead k s = none := by
  rw [regRead, if_neg (by omega), if_neg (by omega), if_neg (by omega), operandAt_outside h]

theorem regReadAccess_outside {k : Nat} (h : 7 < k) (s : State) :
    regReadAccess k s = .refused .indexOutOfRange := by rw [regReadAccess, regRead_outside h]

theorem regWrite_outside {k : Nat} (h : 7 < k) (w : Word) (s : State) :
    regWrite k w s = .refused .indexOutOfRange := by
  rw [regWrite, if_neg (by omega), if_neg (by omega), if_neg (by omega), operandAt_outside h]

theorem regWrite_status (w : Word) (s : State) : regWrite 1 w s = .next s := rfl

theorem regWrite_blocks (w : Word) (s : State) : regWrite 7 w s = .next s := rfl

/-! ## The bytes of a space -/

section Bytes

variable {P : Params} {sp : Space} {i : Nat}

theorem byteWrite_operandBuffer (hin : inSpace P sp i = true) (hw : hostWritable sp = true) (b : Byte) (s : State) :
    byteWrite P sp i b s = .next (s.setBuffer sp (memWrite sp i b (s.buffer sp))) := by
  rw [byteWrite, if_neg (by simp [hin]), if_pos hw]

theorem byteWrite_outputBuffer (hin : inSpace P sp i = true) (hw : hostWritable sp = false) (b : Byte) (s : State) :
    byteWrite P sp i b s = .next s := by
  rw [byteWrite, if_neg (by simp [hin]), if_neg (by simp [hw])]

theorem byteWrite_outside (hin : inSpace P sp i = false) (b : Byte) (s : State) :
    byteWrite P sp i b s = .refused .indexOutOfRange := if_pos hin

theorem byteRead_inside (hin : inSpace P sp i = true) (s : State) :
    byteRead P sp i s = .next (s.reply (.byte (byteAt P s sp i))) := if_neg (by simp [hin])

theorem byteRead_outside (hin : inSpace P sp i = false) (s : State) :
    byteRead P sp i s = .refused .indexOutOfRange := if_pos hin

/-- One byte written to a space in canonical form: what every byte of every space reads after it. -/
theorem memRead_setBuffer_memWrite {s : State} (hwf : Memory.wf sp (s.buffer sp)) (b : Byte) (sq : Space) (k : Nat) :
    memRead sq k ((s.setBuffer sp (memWrite sp i b (s.buffer sp))).buffer sq) =
      if sq = sp ∧ k = i then some b else memRead sq k (s.buffer sq) := by
  rw [setBuffer_buffer]
  by_cases hsq : sq = sp
  · subst hsq
    rw [if_pos rfl, memRead_memWrite _ _ _ _ _ hwf]
    simp only [true_and]
  · rw [if_neg hsq, if_neg fun h => hsq h.1]

end Bytes

/-! ## The statements about one access -/

/-- Settles O15: the new state is the old one with one `memWrite` on the buffer of the space. -/
theorem byteWriteThenReadBack : Obligations.ByteWriteThenReadBack := by
  intro s sp i b rest hi hp hin hw hspace hwf
  have hwf' : Memory.wf sp (({ s with inputs := rest } : State).buffer sp) := by rwa [consumed_buffer]
  have hread := memRead_setBuffer_memWrite (i := i) hwf' b
  refine ⟨_, (step_access hi hp hin nofun).trans (byteWrite_operandBuffer hspace hw b _), ?_, fun sq k hne => ?_, ?_,
    fun k => ?_, ?_, ?_⟩
  · rw [byteAt, hread, if_pos ⟨rfl, rfl⟩, Option.getD_some]
  · rw [hread, if_neg fun ⟨hsq, hk⟩ => hne.elim (· hsq) (· hk), consumed_buffer]
  · rw [setBuffer_buffer, if_pos rfl]
    exact memWrite_wf hwf'
  · rw [regRead_setBuffer, consumed_regRead]
  · rw [setBuffer_inputs]
  · rw [setBuffer_phase, hi]

/-- Settles O6. -/
theorem stepAnswersThePortRequest : Obligations.StepAnswersThePortRequest := by
  intro s f i hreset hp hf
  rw [step_port hreset hp, portTurn, hf]

/-- Settles O12. -/
theorem readOnlyWritesIgnored : Obligations.ReadOnlyWritesIgnored := by
  intro s a rest hi hp hin ha
  rcases ha with ⟨w, rfl⟩ | ⟨w, rfl⟩ | ⟨sp, i, b, rfl, hw, hspace⟩
  · exact (step_access hi hp hin nofun).trans (regWrite_status w _)
  · exact (step_access hi hp hin nofun).trans (regWrite_blocks w _)
  · exact (step_access hi hp hin nofun).trans (byteWrite_outputBuffer hspace hw b _)

/-- Settles O13. -/
theorem hostReadsHaveNoSideEffect : Obligations.HostReadsHaveNoSideEffect := by
  intro s rest hi hp
  refine ⟨fun k v hin hv => ?_, fun sp i hin hspace => ?_, rfl, rfl, rfl⟩
  · rw [step_access hi hp hin nofun]
    exact regReadAccess_of_regRead ((consumed_regRead s rest k).trans hv)
  · rw [step_access hi hp hin nofun, ← consumed_byteAt Config.params s rest]
    exact byteRead_inside hspace _

/-- Settles O14. -/
theorem outOfRangeAccessRefused : Obligations.OutOfRangeAccessRefused := by
  intro s rest hi hp
  refine ⟨fun k w hk hin => ?_, fun k hk hin => ?_, fun sp i b hspace hin => ?_, fun sp i hspace hin => ?_⟩
  all_goals rw [step_access hi hp hin nofun]
  · exact regWrite_outside hk w _
  · exact regReadAccess_outside hk _
  · exact byteWrite_outside hspace b _
  · exact byteRead_outside hspace _

end Sys2Proof.Machine
end

section
/-! # Decode and encode agree

The fields of the header words, then one direction per decoder: what it answers on the encoder's frame, and that it
answers on no other. -/

namespace Sys2Proof

/-! ## The command word (R51) -/

/-- What `decodeCommand` answers, and on which word (R51). -/
theorem decodeCommand_eq_ok {w : Word} {i : Instr} :
    decodeCommand w = .ok i ↔
      (w = 0x00000001#32 ∧ i = .ccmEnc) ∨ (w = 0x00000002#32 ∧ i = .ccmDec)
        ∨ (w = 0x00000010#32 ∧ i = .cbcSize) ∨ (w = 0x00000011#32 ∧ i = .ctrSize) := by
  unfold decodeCommand
  split_ifs with henc hdec hcbc hctr
  · simp [henc, eq_comm]
  · simp [hdec, eq_comm]
  · simp [hcbc, eq_comm]
  · simp [hctr, eq_comm]
  · simp [henc, hdec, hcbc, hctr]

/-- R52: every other word is reserved. -/
theorem decodeCommand_reserved {w : Word} (henc : w ≠ 0x00000001#32) (hdec : w ≠ 0x00000002#32)
    (hcbc : w ≠ 0x00000010#32) (hctr : w ≠ 0x00000011#32) : decodeCommand w = .error .reservedCommand := by
  rw [decodeCommand, if_neg henc, if_neg hdec, if_neg hcbc, if_neg hctr]

/-! ## The codes of R62 -/

@[simp] theorem modeOfCode_modeCode (m : Mode) : modeOfCode (modeCode m) = some m := by cases m <;> rfl

theorem modeOfCode_eq_some {c : BitVec 2} {m : Mode} (h : modeOfCode c = some m) : c = modeCode m := by
  unfold modeOfCode at h
  split_ifs at h with h0 h1 h2 <;> cases h <;> assumption

@[simp] theorem keyClassOfCode_keyClassCode (c : KeyClass) : keyClassOfCode (keyClassCode c) = some c := by
  cases c <;> rfl

theorem keyClassOfCode_eq_some {c : BitVec 2} {k : KeyClass} (h : keyClassOfCode c = some k) :
    c = keyClassCode k := by
  unfold keyClassOfCode at h
  split_ifs at h with h0 h1 h2 <;> cases h <;> assumption

@[simp] theorem directionOfCode_directionCode (d : Direction) : directionOfCode (directionCode d) = d := by
  cases d <;> rfl

@[simp] theorem directionCode_directionOfCode (c : BitVec 1) : directionCode (directionOfCode c) = c := by
  obtain rfl | rfl := BitVec.eq_zero_or_eq_one c <;> rfl

/-! ## The fields of the headers (R61) -/

@[simp] theorem hdrKind_initHeader (m : Mode) : hdrKind (initHeader m) = 0 := BitVec.extractLsb'_append_eq_right

@[simp] theorem hdrSelect_initHeader (m : Mode) : hdrSelect (initHeader m) = modeCode m := by cases m <;> rfl

theorem initHeader_fixedBits (m : Mode) : (initHeader m).extractLsb' 4 28 = 0 := by cases m <;> rfl

section SetKeyHeader

variable (c : KeyClass) (d : Direction)

@[simp] theorem hdrKind_setKeyHeader : hdrKind (setKeyHeader c d) = 1 := BitVec.extractLsb'_append_eq_right

@[simp] theorem hdrSelect_setKeyHeader : hdrSelect (setKeyHeader c d) = keyClassCode c := by
  cases c <;> cases d <;> rfl

@[simp] theorem hdrDirection_setKeyHeader : hdrDirection (setKeyHeader c d) = directionCode d := by
  cases c <;> cases d <;> rfl

@[simp] theorem hdrKeyBytes_setKeyHeader : (hdrKeyBytes (setKeyHeader c d)).toNat = c.bytes := by
  cases c <;> cases d <;> rfl

@[simp] theorem hdrIvBytes_setKeyHeader : (hdrIvBytes (setKeyHeader c d)).toNat = 16 := by
  cases c <;> cases d <;> rfl

theorem setKeyHeader_fixedBits : (setKeyHeader c d).extractLsb' 16 16 = 0 := by cases c <;> cases d <;> rfl

end SetKeyHeader

/-- A header is its fields side by side, as CIPH_ENCRYPT names them. -/
theorem hdr_eq_encryptFields (hdr : Word) : hdr.extractLsb' 2 30 ++ hdrKind hdr = hdr :=
  (BitVec.extractLsb'_append_extractLsb'_eq_extractLsb' rfl).trans BitVec.extractLsb'_eq_self

/-- A header is its fields side by side, as CIPH_INIT names them. -/
theorem hdr_eq_initFields (hdr : Word) : hdr.extractLsb' 4 28 ++ hdrSelect hdr ++ hdrKind hdr = hdr := by
  have hhigh : hdr.extractLsb' 4 28 ++ hdrSelect hdr = hdr.extractLsb' 2 30 :=
    BitVec.extractLsb'_append_extractLsb'_eq_extractLsb' rfl
  rw [hhigh, hdr_eq_encryptFields]

/-- A header is its fields side by side, as CIPH_SET_KEY names them. -/
theorem hdr_eq_setKeyFields (hdr : Word) :
    hdr.extractLsb' 16 16 ++ hdrIvBytes hdr ++ hdrKeyBytes hdr ++ hdrDirection hdr ++ hdrSelect hdr ++ hdrKind hdr
      = hdr := by
  have hiv : hdr.extractLsb' 16 16 ++ hdrIvBytes hdr = hdr.extractLsb' 11 21 :=
    BitVec.extractLsb'_append_extractLsb'_eq_extractLsb' rfl
  have hkey : hdr.extractLsb' 11 21 ++ hdrKeyBytes hdr = hdr.extractLsb' 5 27 :=
    BitVec.extractLsb'_append_extractLsb'_eq_extractLsb' rfl
  have hdir : hdr.extractLsb' 5 27 ++ hdrDirection hdr = hdr.extractLsb' 4 28 :=
    BitVec.extractLsb'_append_extractLsb'_eq_extractLsb' rfl
  rw [hiv, hkey, hdir, hdr_eq_initFields]

theorem eq_initHeader {hdr : Word} {m : Mode} (hkind : hdrKind hdr = 0) (hfixed : hdr.extractLsb' 4 28 = 0)
    (hmode : hdrSelect hdr = modeCode m) : hdr = initHeader m := by
  rw [← hdr_eq_initFields hdr, hkind, hfixed, hmode]
  rfl

theorem eq_setKeyHeader {hdr : Word} {c : KeyClass} (hkind : hdrKind hdr = 1) (hfixed : hdr.extractLsb' 16 16 = 0)
    (hclass : hdrSelect hdr = keyClassCode c) (hkey : (hdrKeyBytes hdr).toNat = c.bytes)
    (hiv : (hdrIvBytes hdr).toNat = 16) : hdr = setKeyHeader c (directionOfCode (hdrDirection hdr)) := by
  have hkey' : hdrKeyBytes hdr = BitVec.ofNat 6 c.bytes := by rw [← hkey, BitVec.ofNat_toNat, BitVec.setWidth_eq]
  have hiv' : hdrIvBytes hdr = 16#5 := BitVec.eq_of_toNat_eq hiv
  calc hdr = _ := (hdr_eq_setKeyFields hdr).symm
    _ = setKeyHeader c (directionOfCode (hdrDirection hdr)) := by
      rw [hkind, hfixed, hclass, hkey', hiv', setKeyHeader, directionCode_directionOfCode]
      rfl

theorem eq_encryptHeader {hdr : Word} (hkind : hdrKind hdr = 2) (hfixed : hdr.extractLsb' 2 30 = 0) :
    hdr = encryptHeader := by
  rw [← hdr_eq_encryptFields hdr, hkind, hfixed]
  rfl

/-! ## Well-formed operands (R61, R62) -/

theorem SetKey.wf_iff {r : SetKey} : r.wf = true ↔ r.key.length = r.keyClass.bytes ∧ r.iv.length = 16 := by
  simp [SetKey.wf]

theorem encryptInputWf_iff {input : Bytes} :
    encryptInputWf input = true ↔ input.length % 16 = 0 ∧ input.length < 2 ^ 32 := by
  simp [encryptInputWf]

/-! ## What the encoder writes is read back -/

theorem decodeInit_initHeader (m : Mode) : decodeInit (initHeader m) [] [] = .ok (.ciphInit m) := by
  rw [decodeInit, if_neg (by simp [initHeader_fixedBits]), if_neg (by simp), hdrSelect_initHeader, modeOfCode_modeCode]

theorem decodeSetKey_setKeyHeader {r : SetKey} (h : r.wf = true) :
    decodeSetKey (setKeyHeader r.keyClass r.direction) [] (r.key ++ r.iv) = .ok (.ciphSetKey r) := by
  obtain ⟨c, d, key, iv⟩ := r
  obtain ⟨hkey, hiv⟩ := SetKey.wf_iff.mp h
  simp only at hkey hiv
  simp [decodeSetKey, setKeyHeader_fixedBits, hkey, hiv]

theorem decodeEncrypt_encryptHeader {input : Bytes} (h : encryptInputWf input = true) :
    decodeEncrypt encryptHeader [BitVec.ofNat 32 input.length, 0#32] input = .ok (.ciphEncrypt input) := by
  obtain ⟨hblocks, hlt⟩ := encryptInputWf_iff.mp h
  have hlen : (BitVec.ofNat 32 input.length).toNat = input.length := Nat.mod_eq_of_lt hlt
  have hfixed : encryptHeader.extractLsb' 2 30 = 0 := rfl
  simp [decodeEncrypt, hfixed, hlen, hblocks]

/-- Settles O3: each wire's decoder reads its own encoder's words back; the internal operations have no encoding. -/
theorem encodedOperationsDecode : Obligations.EncodedOperationsDecode := by
  intro i w hwf henc
  cases i with
  | ccmEnc | ccmDec | cbcSize | ctrSize =>
    cases henc
    exact decodeCommand_eq_ok.mpr (by decide)
  | ciphInit m =>
    cases henc
    exact (if_pos (hdrKind_initHeader m)).trans (decodeInit_initHeader m)
  | ciphSetKey r =>
    cases henc
    rw [decode, decodePort, setKeyFrame]
    simp only [hdrKind_setKeyHeader]
    exact decodeSetKey_setKeyHeader hwf
  | ciphEncrypt input =>
    cases henc
    exact decodeEncrypt_encryptHeader hwf
  | validate | asmCbcmac source | asmCtrEnc | asmCtrDec | buildCtrIv => cases henc

/-! ## Nothing else is read -/

theorem encode_of_decodeCommand {w : Word} {i : Instr} (h : decodeCommand w = .ok i) :
    i.wf = true ∧ encode i = some (.cmd w) := by
  obtain ⟨rfl, rfl⟩ | ⟨rfl, rfl⟩ | ⟨rfl, rfl⟩ | ⟨rfl, rfl⟩ := decodeCommand_eq_ok.mp h <;> exact ⟨rfl, rfl⟩

theorem encode_of_decodeInit {hdr : Word} {rest : List Word} {bytes : Bytes} {i : Instr} (hkind : hdrKind hdr = 0)
    (h : decodeInit hdr rest bytes = .ok i) : i.wf = true ∧ encode i = some (.port ⟨hdr :: rest, bytes⟩) := by
  unfold decodeInit at h
  split_ifs at h with hfixed hpayload
  obtain ⟨rfl, rfl⟩ : rest = [] ∧ bytes = [] := by simpa using hpayload
  split at h
  · cases h
  case _ m hmode =>
    cases h
    rw [eq_initHeader hkind (not_not.mp hfixed) (modeOfCode_eq_some hmode)]
    exact ⟨rfl, rfl⟩

theorem encode_of_decodeSetKey {hdr : Word} {rest : List Word} {bytes : Bytes} {i : Instr} (hkind : hdrKind hdr = 1)
    (h : decodeSetKey hdr rest bytes = .ok i) : i.wf = true ∧ encode i = some (.port ⟨hdr :: rest, bytes⟩) := by
  unfold decodeSetKey at h
  split at h
  · cases h
  split at h
  · cases h
  case _ hfixed _ c hclass =>
    split_ifs at h with hkey hiv hpayload
    cases h
    obtain ⟨rfl, hlen⟩ : rest = [] ∧ bytes.length = c.bytes + 16 := by simpa using hpayload
    refine ⟨SetKey.wf_iff.mpr ⟨by simp [hlen], by simp [hlen]⟩, ?_⟩
    have hhdr := eq_setKeyHeader hkind (not_not.mp hfixed) (keyClassOfCode_eq_some hclass) (not_not.mp hkey)
      (not_not.mp hiv)
    rw [encode, setKeyFrame, List.take_append_drop, ← hhdr]

theorem encode_of_decodeEncrypt {hdr : Word} {rest : List Word} {bytes : Bytes} {i : Instr} (hkind : hdrKind hdr = 2)
    (h : decodeEncrypt hdr rest bytes = .ok i) : i.wf = true ∧ encode i = some (.port ⟨hdr :: rest, bytes⟩) := by
  unfold decodeEncrypt at h
  split_ifs at h with hfixed
  split at h
  case _ len offset =>
    split_ifs at h with hoffset hblocks hlen
    cases h
    rw [not_not] at hfixed hoffset hblocks hlen
    refine ⟨encryptInputWf_iff.mpr ⟨by rw [hlen, hblocks], by rw [hlen]; exact len.isLt⟩, ?_⟩
    rw [encode, encryptFrame, hlen, BitVec.ofNat_toNat, BitVec.setWidth_eq, hoffset, eq_encryptHeader hkind hfixed]
    rfl
  · cases h

theorem encode_of_decodePort {f : PortFrame} {i : Instr} (h : decodePort f = .ok i) :
    i.wf = true ∧ encode i = some (.port f) := by
  obtain ⟨words, bytes⟩ := f
  unfold decodePort at h
  split at h
  · cases h
  case _ hdr rest hwords =>
    cases hwords
    split_ifs at h with hinit hset hencrypt
    · exact encode_of_decodeInit hinit h
    · exact encode_of_decodeSetKey hset h
    · exact encode_of_decodeEncrypt hencrypt h

/-- Settles O4: a wire that decodes has exactly the fields the encoder writes. -/
theorem decodedWiresAreEncodings : Obligations.DecodedWiresAreEncodings := by
  intro w i h
  cases w with
  | cmd w => exact encode_of_decodeCommand h
  | port f => exact encode_of_decodePort h

/-- Settles O1. -/
theorem commandWordsDecode : Obligations.CommandWordsDecode := by
  intro w
  simp [decodeCommand_eq_ok]

/-- Settles O2: the words are the encodings of these operations. -/
theorem writtenWordsDecode : Obligations.WrittenWordsDecode :=
  ⟨encodedOperationsDecode .ctrSize _ rfl rfl, encodedOperationsDecode (.ciphInit .cbc) _ rfl rfl,
    encodedOperationsDecode (.ciphInit .ctr) _ rfl rfl, encodedOperationsDecode (.ciphSetKey _) _ rfl rfl,
    encodedOperationsDecode (.ciphSetKey _) _ rfl rfl, encodedOperationsDecode (.ciphSetKey _) _ rfl rfl,
    encodedOperationsDecode (.ciphEncrypt _) _ rfl rfl⟩

end Sys2Proof
end

section
/-! # The reserved command word, and a loaded buffer -/

namespace Sys2Proof.Machine

/-! ## A reserved word (R52) -/

theorem commandWrite_reserved {w : Word} {e : DecodeError} (h : decodeCommand w = .error e) (s : State) :
    commandWrite w s = .next (invalidCommand s) := by rw [commandWrite, h]

/-- Settles O17. -/
theorem reservedWordOnlySetsStatus : Obligations.ReservedWordOnlySetsStatus := by
  intro s w rest hi hp hin henc hdec hcbc hctr
  have hstep : step s = .next (invalidCommand { s with inputs := rest }) :=
    calc step s = regWrite 0 w { s with inputs := rest } := step_access hi hp hin nofun
      _ = commandWrite w { s with inputs := rest } := if_pos rfl
      _ = _ := commandWrite_reserved (decodeCommand_reserved henc hdec hcbc hctr) _
  exact ⟨_, hstep, rfl, by simp [invalidCommand, Result.code], by simp [invalidCommand], status_high s.status _⟩

/-! ## LD (R65) -/

/-- The state an LD from index `i` on leads to (R65): its bytes in their space, `rest` the accesses still to come. -/
def State.loaded (s : State) (sp : Space) (i : Nat) (bs : Bytes) (rest : List Input) : State :=
  ({ s with inputs := rest } : State).setBuffer sp (memWriteBytes sp i bs (s.buffer sp))

section Loaded

variable (s : State) (sp : Space) (i : Nat) (bs : Bytes) (rest : List Input)

@[simp] theorem loaded_phase : (s.loaded sp i bs rest).phase = s.phase := by simp [State.loaded]

@[simp] theorem loaded_port : (s.loaded sp i bs rest).port = s.port := by simp [State.loaded]

@[simp] theorem loaded_inputs : (s.loaded sp i bs rest).inputs = rest := by simp [State.loaded]

@[simp] theorem loaded_buffer (sq : Space) :
    (s.loaded sp i bs rest).buffer sq = if sq = sp then memWriteBytes sp i bs (s.buffer sp) else s.buffer sq := by
  simp [State.loaded]

theorem loaded_nil {s : State} (h : s.inputs = rest) : s.loaded sp i [] rest = s := by
  subst h
  cases sp <;> rfl

/-- The first byte of an LD and then the others are the whole LD. -/
theorem loaded_cons (b : Byte) (between : List Input) :
    (s.loaded sp i [b] between).loaded sp (i + 1) bs rest = s.loaded sp i (b :: bs) rest := by
  cases sp <;> rfl

end Loaded

theorem step_hostLdFrom {s : State} {sp : Space} {i : Nat} {b : Byte} {bs : Bytes} (hi : s.phase = .idle)
    (hp : s.port = none) (hin : s.inputs = hostLdFrom sp i (b :: bs)) (hw : hostWritable sp = true)
    (hspace : inSpace Config.params sp i = true) :
    step s = .next (s.loaded sp i [b] (hostLdFrom sp (i + 1) bs)) := by
  rw [step_access hi hp hin nofun, State.loaded, ← consumed_buffer s (hostLdFrom sp (i + 1) bs)]
  exact byteWrite_operandBuffer hspace hw b _

/-- The accesses of an LD from index `i` on, one step each. -/
theorem run_hostLdFrom {sp : Space} (hw : hostWritable sp = true) {bs : Bytes} {i : Nat} {s : State}
    (hi : s.phase = .idle) (hp : s.port = none) (hin : s.inputs = hostLdFrom sp i bs)
    (hspace : ∀ k, i ≤ k → k < i + bs.length → inSpace Config.params sp k = true) :
    Host.Core.run Sys2Proof.core bs.length s = .next (s.loaded sp i bs []) := by
  induction bs generalizing i s with
  | nil => rw [loaded_nil sp i [] hin]; rfl
  | cons b bs ih =>
    rw [List.length_cons] at hspace
    have hstep := step_hostLdFrom hi hp hin hw (hspace i (by omega) (by omega))
    rw [List.length_cons, run_next hstep, ih (i := i + 1) (by simpa using hi) (by simpa using hp) (by simp)
      fun k hge hlt => hspace k (by omega) (by omega), loaded_cons]

/-- Settles O16: the run is one writing of the sequence from index 0 on. -/
theorem loadStatementLoads : Obligations.LoadStatementLoads := by
  intro s sp bs hi hp hin hw hspace hwf
  have hrun := run_hostLdFrom hw hi hp hin fun k _ hlt => hspace k (by omega)
  refine ⟨_, hrun, loaded_inputs .., fun k hlt => ?_, fun sq k hne => ?_⟩
  · rw [byteAt, loaded_buffer, if_pos rfl, memRead_memWriteBytes _ _ _ _ _ hwf, if_pos (by omega)]
    simp [hlt]
  · rw [loaded_buffer]
    split
    · subst sq
      have hbehind : bs.length ≤ k := hne.resolve_left (not_not.mpr rfl)
      rw [memRead_memWriteBytes _ _ _ _ _ hwf, if_neg (by omega)]
    · rfl

end Sys2Proof.Machine
end

section
/-! # Where the bytes of `b_input` stand

FLAGS and LENGTH of B0 field by field; then one lemma that says of every byte behind B0 which region it belongs
to. -/

namespace Sys2Proof.Machine

/-! ## FLAGS (R55) -/

/-- The three fields of FLAGS do not overlap: bit 6, bits [5:3], bits [2:0]. -/
theorem packedFlags_fields (adata : Bool) (t q : Fin 8) {flags : Byte}
    (h : flags = lowByte ((if adata then 0x40 else 0x00) ||| (t.val <<< 3) ||| q.val)) :
    flags.getLsbD 7 = false ∧ flags.getLsbD 6 = adata ∧ (flags.extractLsb' 3 3).toNat = t.val
      ∧ (flags.extractLsb' 0 3).toNat = q.val := by
  subst h
  decide +revert

/-- Settles O23: the tag length's code and `q - 1` have three bits each. -/
theorem flagsByteFields : Obligations.FlagsByteFields := by
  intro t n a _ ht _ hn _
  have hflags : b0Flags t n a =
      lowByte ((if decide (a > 0) then 0x40 else 0x00) ||| (((t - 2) / 2) <<< 3) ||| (14 - n)) := by
    rw [b0Flags, lengthWidth, show 15 - n - 1 = 14 - n by omega]
    simp only [decide_eq_true_eq]
  exact packedFlags_fields (decide (a > 0)) ⟨(t - 2) / 2, by omega⟩ ⟨14 - n, by omega⟩ hflags

/-! ## LENGTH (R56) -/

/-- The low byte of a shifted number sees no bit of the number from `8 * q` on, if it is one of the low `q` bytes. -/
theorem lowByte_shiftRight_mod {m q k : Nat} (h : k < q) :
    ((m % 2 ^ (8 * q)) >>> (8 * k)) &&& 0xFF = (m >>> (8 * k)) &&& 0xFF := by
  apply Nat.eq_of_testBit_eq
  intro i
  have hmask : Nat.testBit 0xFF i = decide (i < 8) := Nat.testBit_two_pow_sub_one 8 i
  simp only [Nat.testBit_and, Nat.testBit_shiftRight, Nat.testBit_mod_two_pow, hmask]
  by_cases hi : i < 8
  · simp [show 8 * k + i < 8 * q by omega]
  · simp [hi]

/-- Settles O24. -/
theorem lengthFieldIsBigEndian : Obligations.LengthFieldIsBigEndian := by
  intro q m buf hq hq' hbuf
  refine ⟨fun j hj => ?_, fun k hk => ?_, ?_⟩
  · rw [writeLength_getElem? _ _ _ _ _ (by omega), if_pos (by omega), be_getElem?, if_pos hj,
      lowByte_shiftRight_mod (by omega), show 15 - (16 - q + j) - 0 = q - 1 - j by omega]
  · rw [writeLength_getElem? _ _ _ _ _ (by omega), if_neg (by omega)]
  · rw [Nat.shiftRight_eq_div_pow, Nat.div_ne_zero_iff]
    simp

/-! ## The regions behind B0 (R57, R58) -/

/-- The AAD after its two length bytes is one run of bytes: the second block goes on where the first one ends. -/
theorem writeAad_eq {aad : Bytes} (h : 0 < aad.length) (buf : Bytes) :
    writeAad aad buf =
      putBytes ((buf.set 16 (lowByte ((aad.length >>> 8) &&& 0xFF))).set 17 (lowByte (aad.length &&& 0xFF))) 18 aad := by
  rw [writeAad, if_pos h]
  generalize (buf.set 16 _).set 17 _ = start
  by_cases hlong : 14 ≤ aad.length
  · have hfirst : (aad.take (min aad.length 14)).length = 14 := by simp [hlong]
    have hjoin := putBytes_putBytes start 18 (aad.take (min aad.length 14)) (aad.drop 14)
    rw [hfirst] at hjoin
    rw [hjoin, Nat.min_eq_right hlong, List.take_append_drop]
  · rw [Nat.min_eq_left (by omega), List.take_length, List.drop_eq_nil_of_le (by omega)]
    rfl

/-- The AAD region changes no byte outside its two length bytes and the AAD's own. -/
theorem writeAad_getElem? (aad buf : Bytes) {k : Nat} (h : aad.length = 0 ∨ 18 ≤ k) (hk : k < buf.length) :
    (writeAad aad buf)[k]? = if 18 ≤ k ∧ k < 18 + aad.length then aad[k - 18]? else buf[k]? := by
  by_cases hempty : aad.length = 0
  · rw [writeAad, if_neg (by omega), if_neg (by omega)]
  · rw [writeAad_eq (by omega), putBytes_getElem?]
    simp only [List.length_set, hk, and_true]
    split
    · rfl
    · rw [List.getElem?_set_ne (by omega), List.getElem?_set_ne (by omega)]

/-- B0 ends at byte 15. -/
theorem writeB0_getElem? {nonce : Bytes} (t a m : Nat) (buf : Bytes) (hnonce : nonce.length ≤ 13) {k : Nat}
    (hk : 16 ≤ k) : (writeLength (lengthWidth nonce.length) 0 m (writeB0Head t a nonce buf))[k]? = buf[k]? := by
  rw [writeLength_getElem? _ _ _ _ _ (by rw [lengthWidth]; omega), if_neg (by omega), writeB0Head, putBytes_getElem?,
    if_neg (by omega), List.getElem?_set_ne (by omega)]

theorem zeros_getElem? {n k : Nat} (h : k < n) : (zeros n)[k]? = some 0 := by simp [zeros, h]

/-- The AAD region has room for its two length bytes and the AAD, if there is one (R53). -/
theorem aadRegion_holds_aad (a : Nat) : a = 0 ∨ 18 + a ≤ 16 * (1 + aadBlocks a) := by
  rw [aadBlocks, cdiv16]
  split <;> omega

theorem cbcBlocks_mul (m a : Nat) : 16 * cbcBlocks m a = 16 * (1 + aadBlocks a) + 16 * cdiv16 m := by
  rw [cbcBlocks, Nat.mul_add]

theorem le_cdiv16 (m : Nat) : m ≤ 16 * cdiv16 m := by
  rw [cdiv16]
  omega

@[simp] theorem buildBInput_length (t : Nat) (nonce aad msg : Bytes) :
    (buildBInput t nonce aad msg).length = 16 * cbcBlocks msg.length aad.length := by simp [buildBInput]

/-- Every byte of `b_input` behind B0 and the AAD's two length bytes: the message's from its block on, the AAD's
from byte 18 on, else 0x00. -/
theorem buildBInput_getElem? (t : Nat) {nonce : Bytes} (aad msg : Bytes) (hnonce : nonce.length ≤ 13) {k : Nat}
    (hk : 16 ≤ k) (hbehind : aad.length = 0 ∨ 18 ≤ k) (hlt : k < 16 * cbcBlocks msg.length aad.length) :
    (buildBInput t nonce aad msg)[k]? =
      if 16 * (1 + aadBlocks aad.length) ≤ k ∧ k < 16 * (1 + aadBlocks aad.length) + msg.length then
        msg[k - 16 * (1 + aadBlocks aad.length)]?
      else if 18 ≤ k ∧ k < 18 + aad.length then aad[k - 18]? else some 0 := by
  rw [buildBInput, writeMessage, putBytes_getElem?, writeAad_getElem? _ _ hbehind (by simpa using hlt),
    writeB0_getElem? _ _ _ _ hnonce hk, zeros_getElem? hlt]
  simp [hlt]

/-- Settles O26: the message begins behind the AAD region, and each region is followed by zeros. -/
theorem aadAndMessagePositions : Obligations.AadAndMessagePositions := by
  intro t nonce aad msg _ hnonce
  have hsize := cbcBlocks_mul msg.length aad.length
  have hmsg := le_cdiv16 msg.length
  have haad := aadRegion_holds_aad aad.length
  have hbyte := fun k => buildBInput_getElem? t aad msg hnonce (k := k)
  refine ⟨buildBInput_length .., fun j hj => ?_, fun j hj => ?_, fun ha k hge hlt => ?_, fun k hge hlt => ?_⟩
  · rw [hbyte _ (by omega) (by omega) (by omega), if_neg (by omega), if_pos (by omega), Nat.add_sub_cancel_left]
  · rw [hbyte _ (by omega) (by omega) (by omega), if_pos (by omega), Nat.add_sub_cancel_left]
  · rw [hbyte k (by omega) (by omega) (by omega), if_neg (by omega), if_neg (by omega)]
  · rw [hbyte k (by omega) (by omega) hlt, if_neg (by omega), if_neg (by omega)]

end Sys2Proof.Machine
end

section
/-! # The sizes, and the buffers they are the sizes of

The two size commands, exactly; then the closed forms of `b_input` and `ctr_in` (R85, R90, R91), written region by
region into a zeroed buffer of the computed size. -/

namespace Sys2Proof.Machine

/-! ## The size commands (R72, R73) -/

/-- The two STATUS writes of a command that succeeds, as a claim reads them (R13). -/
theorem status_ok (w : Word) :
    statusResult (withDone (withResult w .ok)) = 0 ∧ statusDone (withDone (withResult w .ok)) = true
      ∧ ∀ i, 5 ≤ i → (withDone (withResult w .ok)).getLsbD i = w.getLsbD i :=
  ⟨by simp [Result.code], statusDone_withDone _, status_high w .ok⟩

/-- The largest count stays below 2^32: BLOCKS holds it whole. -/
theorem cbcBlocks_lt (s : State) : s.cbcBlocks < 2 ^ 32 := by
  have haad : s.aadLength < 2 ^ 32 := s.aadLen.isLt
  have hmsg : s.msgLength < 2 ^ 32 := s.msgLen.isLt
  rw [State.cbcBlocks, cbcBlocks, aadBlocks, cdiv16, cdiv16]
  split <;> omega

theorem ctrBlocks_lt (s : State) : s.ctrBlocks < 2 ^ 32 := by
  have hmsg : s.msgLength < 2 ^ 32 := s.msgLen.isLt
  rw [State.ctrBlocks, ctrBlocks, cdiv16]
  omega

/-- Settles O18. -/
theorem cbcSizeComputesBlocks : Obligations.CbcSizeComputesBlocks := by
  refine ⟨decodeCommand_eq_ok.mpr (by simp), fun s => ⟨(sizeCbc s).endCommand, rfl, rfl, ?_, status_ok s.status⟩⟩
  calc (sizeCbc s).endCommand.blocks.toNat = s.cbcBlocks := Nat.mod_eq_of_lt (cbcBlocks_lt s)
    _ = _ := by
      simp only [State.cbcBlocks, cbcBlocks, aadBlocks, cdiv16, Nat.zero_max, State.aadLength, State.msgLength]

/-- Settles O19. -/
theorem ctrSizeComputesBlocks : Obligations.CtrSizeComputesBlocks :=
  ⟨decodeCommand_eq_ok.mpr (by simp),
    fun s => ⟨(sizeCtr s).endCommand, rfl, rfl, Nat.mod_eq_of_lt (ctrBlocks_lt s), status_ok s.status⟩⟩

/-! ## The size functions (R74) -/

/-- The AAD region is the two length bytes and the AAD, padded (R53, R74 a). -/
theorem aadBlocks_eq (a : Nat) : aadBlocks a = if a > 0 then cdiv16 (a + 2) else 0 := by
  simp only [aadBlocks, cdiv16]
  split <;> omega

theorem cdiv16_le {m n : Nat} (h : m ≤ n) : cdiv16 m ≤ cdiv16 n := Nat.div_le_div_right (by omega)

theorem aadBlocks_le {a b : Nat} (h : a ≤ b) : aadBlocks a ≤ aadBlocks b := by
  simp only [aadBlocks_eq, cdiv16]
  split <;> split <;> omega

theorem aadBlocks_eq_zero {a : Nat} : aadBlocks a = 0 ↔ a = 0 := by
  rw [aadBlocks]
  split <;> omega

/-- R74 (c): the CBC pass has the blocks of the CTR pass and the AAD's. -/
theorem cbcBlocks_eq_ctrBlocks_add (m a : Nat) : cbcBlocks m a = ctrBlocks m + aadBlocks a := by
  rw [cbcBlocks, ctrBlocks]
  omega

/-! ## Writing a region into the zeros behind what stands -/

theorem pad16_eq (src : Bytes) : pad16 src = src ++ zeros (16 * cdiv16 src.length - src.length) := by
  rw [pad16, cdiv16]
  congr 2
  omega

/-- A sequence written behind what stands is padded by the zeros of its last block. -/
theorem putBytes_pad16 {pre : Bytes} {i : Nat} (h : pre.length = i) (src : Bytes) (n : Nat) :
    putBytes (pre ++ zeros (16 * cdiv16 src.length + n)) i src = pre ++ pad16 src ++ zeros n := by
  subst h
  have hfits := le_cdiv16 src.length
  rw [putBytes_after _ _ _ (by omega), pad16_eq, Nat.sub_add_comm hfits, zeros_add]
  simp only [List.append_assoc]

/-- LENGTH fills the block from where the nonce ends to byte 15 (R56). -/
theorem writeLength_zeros {pre : Bytes} {q : Nat} (h : pre.length + q = 16) (m n : Nat) :
    writeLength q 0 m (pre ++ zeros (q + n)) = pre ++ be m q ++ zeros n := by
  apply List.ext_getElem?
  intro k
  rw [writeLength_getElem? _ _ _ _ _ (by omega), zeros_add, ← List.append_assoc]
  by_cases hlength : pre.length ≤ k ∧ k < 16
  · rw [if_pos (by simp; omega), List.getElem?_append_left (by simp; omega),
      List.getElem?_append_right (by omega), be_getElem?, if_pos (by omega),
      show 15 - k - 0 = q - 1 - (k - pre.length) by omega]
  · rw [if_neg (by omega)]
    by_cases hpre : k < pre.length
    · simp only [List.append_assoc, List.getElem?_append_left hpre]
    · rw [List.getElem?_append_right (by simp; omega), List.getElem?_append_right (by simp; omega)]
      simp

/-! ## `b_input` as one expression (R85) -/

/-- B0: FLAGS, the nonce, LENGTH (R54). -/
def b0Block (t a m : Nat) (nonce : Bytes) : Bytes :=
  [b0Flags t nonce.length a] ++ nonce ++ be m (15 - nonce.length)

/-- The AAD with its length before it, padded; nothing for an empty AAD (R57). -/
def aadRegion (aad : Bytes) : Bytes := if aad.length > 0 then pad16 (be aad.length 2 ++ aad) else []

theorem ccmInput_eq (t : Nat) (nonce aad msg : Bytes) :
    ccmInput t nonce aad msg = b0Block t aad.length msg.length nonce ++ aadRegion aad ++ pad16 msg := rfl

theorem b0Block_length (t a m : Nat) {nonce : Bytes} (h : nonce.length ≤ 15) : (b0Block t a m nonce).length = 16 := by
  simp [b0Block]
  omega

theorem aadRegion_length (aad : Bytes) : (aadRegion aad).length = 16 * aadBlocks aad.length := by
  rw [aadRegion, aadBlocks_eq]
  split
  · rw [pad16_length]
    simp [Nat.add_comm]
  · rfl

/-- R81, R82: what stands after the first two steps. -/
theorem writeB0_zeros (t a m : Nat) {nonce : Bytes} (h : nonce.length ≤ 15) (n : Nat) :
    writeLength (lengthWidth nonce.length) 0 m (writeB0Head t a nonce (zeros (16 + n))) =
      b0Block t a m nonce ++ zeros n := by
  have hhead : writeB0Head t a nonce (zeros (16 + n)) =
      ([b0Flags t nonce.length a] ++ nonce) ++ zeros (15 - nonce.length + n) := by
    calc writeB0Head t a nonce (zeros (16 + n))
        = putBytes ([] ++ zeros (16 + n)) 0 ([b0Flags t nonce.length a] ++ nonce) := rfl
      _ = _ := putBytes_after [] _ _ (by simp; omega)
      _ = _ := by
        rw [List.nil_append]
        congr 2
        simp
        omega
  rw [hhead, lengthWidth, writeLength_zeros (by simp; omega), b0Block]

/-- R83: the AAD's length and the AAD behind the first block. -/
theorem writeAad_zeros {pre : Bytes} (h : pre.length = 16) (aad : Bytes) (n : Nat) :
    writeAad aad (pre ++ zeros (16 * aadBlocks aad.length + n)) = pre ++ aadRegion aad ++ zeros n := by
  by_cases haad : 0 < aad.length
  · have hsize : aadBlocks aad.length = cdiv16 (be aad.length 2 ++ aad).length := by
      rw [aadBlocks_eq, if_pos haad, List.length_append, be_length, Nat.add_comm]
    calc writeAad aad (pre ++ zeros (16 * aadBlocks aad.length + n))
        = putBytes (pre ++ zeros (16 * aadBlocks aad.length + n)) 16 (be aad.length 2 ++ aad) := writeAad_eq haad _
      _ = _ := by rw [hsize, putBytes_pad16 h, aadRegion, if_pos haad]
  · rw [writeAad, if_neg haad, aadRegion, if_neg haad, aadBlocks_eq_zero.mpr (by omega)]
    simp

/-- R84: the message behind the AAD region, to the end of the buffer. -/
theorem writeMessage_zeros {pre : Bytes} {a : Nat} (h : pre.length = 16 * (1 + aadBlocks a)) (msg : Bytes) :
    writeMessage a msg (pre ++ zeros (16 * cdiv16 msg.length)) = pre ++ pad16 msg := by
  simpa [writeMessage] using putBytes_pad16 h msg 0

/-- R85: the four steps write the three regions in turn, and fill the buffer. -/
theorem buildBInput_eq_ccmInput (t : Nat) {nonce : Bytes} (aad msg : Bytes) (h : nonce.length ≤ 15) :
    buildBInput t nonce aad msg = ccmInput t nonce aad msg := by
  have hsize : 16 * cbcBlocks msg.length aad.length = 16 + (16 * aadBlocks aad.length + 16 * cdiv16 msg.length) := by
    rw [cbcBlocks_mul]
    omega
  have hb0 := b0Block_length t aad.length msg.length h
  rw [buildBInput, hsize, writeB0_zeros _ _ _ h, writeAad_zeros hb0, writeMessage_zeros, ccmInput_eq]
  rw [List.length_append, hb0, aadRegion_length, Nat.mul_add]

/-! ## `ctr_in` as one expression (R90, R91) -/

/-- The head in a block of its own, then the padded message. -/
theorem buildCtrIn_eq {head : Bytes} (h : head.length ≤ 16) (msg : Bytes) :
    buildCtrIn head msg = head ++ zeros (16 - head.length) ++ pad16 msg := by
  have hblock : (head ++ zeros (16 - head.length)).length = 16 := by
    simp
    omega
  have hhead : putBytes (zeros (16 * ctrBlocks msg.length)) 0 head =
      (head ++ zeros (16 - head.length)) ++ zeros (16 * cdiv16 msg.length + 0) := by
    calc putBytes (zeros (16 * ctrBlocks msg.length)) 0 head
        = [] ++ head ++ zeros (16 * ctrBlocks msg.length - head.length) :=
          putBytes_after [] head _ (by rw [ctrBlocks]; omega)
      _ = _ := by
        rw [List.nil_append, List.append_assoc, ← zeros_add, ctrBlocks]
        congr 2
        omega
  rw [buildCtrIn, hhead, putBytes_pad16 hblock, zeros_zero, List.append_nil]

/-- Settles O20: each assembler's buffer is its closed form, so the closed form has the buffer's length. -/
theorem sizeFunctionProperties : Obligations.SizeFunctionProperties := by
  refine ⟨fun m a => ?formula, buildBInput_length, fun t nonce aad msg _ hnonce => ?cbcInput, buildCtrIn_length,
    fun head msg hhead => ?ctrInput, fun m a => ?comparison, fun m m' a a' hm ha => ?monotone, fun a ha => ?largestAad,
    fun m => ?zeroAad⟩
  case formula =>
    rw [cbcBlocks, aadBlocks_eq]
    omega
  case cbcInput =>
    have hclosed := buildBInput_eq_ccmInput t aad msg (show nonce.length ≤ 15 by omega)
    exact ⟨hclosed ▸ buildBInput_length .., hclosed⟩
  case ctrInput =>
    have hclosed := buildCtrIn_eq hhead msg
    exact ⟨hclosed ▸ buildCtrIn_length .., hclosed⟩
  case comparison =>
    rw [cbcBlocks_eq_ctrBlocks_add, ← aadBlocks_eq_zero]
    omega
  case monotone =>
    have hmsg := cdiv16_le hm
    have haad := aadBlocks_le ha
    simp only [cbcBlocks, ctrBlocks]
    omega
  case largestAad =>
    calc aadBlocks a ≤ aadBlocks 0xFEFF := aadBlocks_le ha
      _ = 4081 := by decide
  case zeroAad => rw [cbcBlocks, aadBlocks_eq_zero.mpr rfl]

end Sys2Proof.Machine
end

section
/-! # VALIDATE, and where the internal operations run by hand

VALIDATE's tests read on the registers; then what ASM_CBCMAC stores where it runs, and by which name the assemblers
and the IV builder stop. -/

namespace Sys2Proof.Machine

/-! ## The tests of VALIDATE on the registers (R80) -/

section
variable {s : State}

theorem not_legalKey : ¬ s.legalKey ↔ s.keyBits ≠ 128 ∧ s.keyBits ≠ 192 ∧ s.keyBits ≠ 256 := by
  simp [State.legalKey, BitVec.toNat_eq]

theorem not_legalTag :
    ¬ s.legalTag ↔ s.tagLen = 0 ∨ s.tagLen = 2 ∨ s.tagLen.toNat > 16 ∨ s.tagLen.toNat % 2 = 1 := by
  rw [not_not, BitVec.toNat_eq, BitVec.toNat_eq]
  rfl

/-- R80 shifts the length by its field's bits; a rest is left exactly from the field's power on. -/
theorem not_legalMsg : ¬ s.legalMsg ↔ s.msgLen.toNat ≥ 2 ^ (8 * (15 - s.nonceLen.toNat)) := by
  rw [State.legalMsg, Nat.shiftRight_eq_div_pow, ← ne_eq, Nat.div_ne_zero_iff, lengthWidth]
  exact and_iff_right (by positivity)

end

/-- The state VALIDATE leads to by its first cause, or with none (R80, R146). -/
def afterValidate (s : State) : Option Result → State
  | none => s.setPhase .validate
  | some r => failureExit r (s.setPhase .validate)

theorem execValidate_eq (s : State) : execValidate s = .next (afterValidate s (validateCause s)) := by
  rw [execValidate, validateOp]
  cases validateCause s <;> rfl

/-- Settles O21: R80's tests in their order, each read on its register. -/
theorem validateReportsFirstCause : Obligations.ValidateReportsFirstCause := by
  intro s
  refine (execValidate_eq s).trans (congrArg _ ?_)
  simp only [validateCause, apply_ite (afterValidate s)]
  exact if_congr not_legalKey rfl (if_congr not_legalTag rfl (if_congr not_not rfl (if_congr not_not rfl
    (if_congr not_legalMsg rfl rfl))))

/-! ## ASM_CBCMAC (R85) -/

/-- R85: on a legal nonce length the phase stores the one expression, whatever else the lengths are. -/
theorem asmCbcmacOp_eq (P : Params) (source : MsgSource) {s : State} (hnonce : s.legalNonce) :
    asmCbcmacOp P source s =
      { s with
        phase := .asmCbc
        bInput := some (ccmInput s.tagLength (nonceOperand P s) (aadOperand P s) (sourceMessage P source s)) } := by
  have hlength : (nonceOperand P s).length ≤ 15 := by
    rw [nonceOperand_length]
    omega
  rw [asmCbcmacOp, buildBInput_eq_ccmInput _ _ _ hlength]
  rfl

/-- Settles O25. -/
theorem asmCbcmacBuildsItsInput : Obligations.AsmCbcmacBuildsItsInput := by
  intro s source htag hnonce haad hmsg hfits hsource
  exact execAsmCbcmac_eq_next.mpr ⟨⟨htag, hnonce, haad, hmsg⟩, hfits, hsource, asmCbcmacOp_eq _ _ hnonce⟩

/-! ## The stops by name (91 N9) -/

section
variable {s : State} {source : MsgSource}

theorem execAsmCbcmac_notValidated (h : ¬ assemblyLegal s) : execAsmCbcmac source s = .fault .notValidated := if_pos h

theorem execAsmCbcmac_missingBuffer (hlegal : assemblyLegal s) (hfits : fits Config.params s = true)
    (hsource : sourceExists source s = false) : execAsmCbcmac source s = .fault .missingBuffer := by
  rw [execAsmCbcmac, if_neg (not_not.mpr hlegal), if_neg (by simp [hfits]), if_pos hsource]

theorem execAsmCtrEnc_missingBuffer (hfits : fits Config.params s = true) (hmac : s.hasWork .cbcOut = false) :
    execAsmCtrEnc s = .fault .missingBuffer := by
  rw [execAsmCtrEnc, if_neg (by simp [hfits]), if_pos hmac]

theorem execAsmCtrDec_notValidated (h : ¬ s.legalTag) : execAsmCtrDec s = .fault .notValidated := if_pos h

theorem execBuildCtrIv_notValidated (h : ¬ s.legalNonce) : execBuildCtrIv s = .fault .notValidated := if_pos h

end

/-- Settles O30. -/
theorem internalOperationsStopWithoutOperands : Obligations.InternalOperationsStopWithoutOperands := by
  intro s
  exact ⟨execBuildCtrIv_notValidated, fun source => execAsmCbcmac_notValidated,
    fun htag hnonce haad hmsg => execAsmCbcmac_missingBuffer (source := .recovered) ⟨htag, hnonce, haad, hmsg⟩,
    execAsmCtrEnc_missingBuffer, execAsmCtrDec_notValidated⟩

end Sys2Proof.Machine
end

section
/-! # The CTR IV, the counter's field, and `ctr_in` where it is built

`be` and `beNat` are inverse to each other, so counting an IV up writes the count into its last bytes; then the IV as
one expression (R92), its count (R94), and what the two assemblers and the IV builder store where they run. -/

namespace Sys2Proof.Machine

/-! ## Big-endian bytes and numbers (R7, R126) -/

theorem lowByte_toNat (n : Nat) : (lowByte n).toNat = n % 256 := BitVec.toNat_ofNat ..

theorem lowByte_and_mask (n : Nat) : lowByte (n &&& 0xFF) = lowByte n := by
  apply BitVec.eq_of_toNat_eq
  rw [lowByte_toNat, lowByte_toNat, Nat.and_two_pow_sub_one_eq_mod n 8, Nat.mod_mod]

theorem lowByte_mul_add_toNat (n : Nat) (b : Byte) : lowByte (n * 256 + b.toNat) = b := by
  apply BitVec.eq_of_toNat_eq
  rw [lowByte_toNat]
  omega

/-- The last byte of an encoding is the number's low byte; those before it encode the rest. -/
theorem be_succ (n k : Nat) : be n (k + 1) = be (n / 256) k ++ [lowByte n] := by
  have hlast : lowByte ((n >>> (8 * (k + 1 - 1 - k))) &&& 0xFF) = lowByte n := by
    rw [lowByte_and_mask, show 8 * (k + 1 - 1 - k) = 0 by omega, Nat.shiftRight_zero]
  have hbefore : ∀ j ∈ List.range k, n >>> (8 * (k + 1 - 1 - j)) = (n / 256) >>> (8 * (k - 1 - j)) := by
    intro j hj
    have hj := List.mem_range.mp hj
    rw [show 8 * (k + 1 - 1 - j) = 8 + 8 * (k - 1 - j) by omega, Nat.shiftRight_add, Nat.shiftRight_eq_div_pow n]
  rw [be, List.range_succ, List.map_append, List.map_singleton, hlast, be,
    List.map_congr_left fun j hj => by rw [hbefore j hj]]

theorem beNat_concat (s : Bytes) (b : Byte) : beNat (s ++ [b]) = beNat s * 256 + b.toNat := by simp [beNat]

theorem beNat_append (s t : Bytes) : beNat (s ++ t) = beNat s * 2 ^ (8 * t.length) + beNat t := by
  induction t using List.reverseRecOn with
  | nil => simp [beNat]
  | append_singleton t b ih =>
    rw [← List.append_assoc, beNat_concat, beNat_concat, ih, List.length_append, List.length_singleton]
    ring

theorem beNat_lt (s : Bytes) : beNat s < 2 ^ (8 * s.length) := by
  induction s using List.reverseRecOn with
  | nil => simp [beNat]
  | append_singleton s b ih =>
    rw [beNat_concat, List.length_append, List.length_singleton, Nat.mul_add, Nat.pow_add]
    omega

theorem beNat_zeros (n : Nat) : beNat (zeros n) = 0 := by
  induction n with
  | zero => rfl
  | succ n ih => rw [zeros_add, show zeros 1 = [0] from rfl, beNat_concat, ih]; rfl

/-- Encoded in `k` bytes, a number is read back modulo their range. -/
theorem beNat_be (n k : Nat) : beNat (be n k) = n % 2 ^ (8 * k) := by
  induction k generalizing n with
  | zero => rw [Nat.mul_zero, Nat.pow_zero, Nat.mod_one]; rfl
  | succ k ih =>
    calc beNat (be n (k + 1))
        = n / 256 % 2 ^ (8 * k) * 256 + n % 256 := by rw [be_succ, beNat_concat, ih, lowByte_toNat]
      _ = n % (256 * 2 ^ (8 * k)) := by rw [Nat.mod_mul, Nat.mul_comm, Nat.add_comm]
      _ = n % 2 ^ (8 * (k + 1)) := by rw [Nat.mul_add, Nat.add_comm, Nat.pow_add]

/-- Read as a number, bytes are encoded back. -/
theorem be_beNat (s : Bytes) : be (beNat s) s.length = s := by
  induction s using List.reverseRecOn with
  | nil => rfl
  | append_singleton s b ih =>
    have hrest : (beNat s * 256 + b.toNat) / 256 = beNat s := by omega
    rw [List.length_append, List.length_singleton, be_succ, beNat_concat, hrest, ih, lowByte_mul_add_toNat]

/-- A count that stays below the field's range, written over the zeros it counts from. -/
theorem inc128_zeros {pre : Bytes} {q k : Nat} (hlen : pre.length + q = 16) (hk : k < 2 ^ (8 * q)) :
    inc128 (pre ++ zeros q) k = pre ++ be k q := by
  have hblock : (pre ++ be k q).length = 16 := by simpa using hlen
  have hcount : beNat (pre ++ zeros q) + k = beNat (pre ++ be k q) := by
    simp [beNat_append, beNat_be, beNat_zeros, Nat.mod_eq_of_lt hk]
  have hlt : beNat (pre ++ be k q) < 2 ^ 128 := by simpa [hblock] using beNat_lt (pre ++ be k q)
  calc inc128 (pre ++ zeros q) k = be (beNat (pre ++ be k q)) 16 := by rw [inc128, hcount, Nat.mod_eq_of_lt hlt]
    _ = pre ++ be k q := by simpa only [hblock] using be_beNat (pre ++ be k q)

/-! ## The IV (R92) and its count (R94) -/

theorem ivFlags_eq (n : Nat) : ivFlags n = BitVec.ofNat 8 (14 - n) := by
  rw [ivFlags, lengthWidth, lowByte, show 15 - n - 1 = 14 - n by omega]

theorem buildIv_eq_ccmIv {nonce : Bytes} (h : nonce.length ≤ 15) : buildIv nonce = ccmIv nonce := by
  rw [buildIv, zeros_set_zero _ _ (by decide)]
  exact putBytes_after [ivFlags nonce.length] nonce 15 h

/-- The field that holds the message's length counts every block of its CTR pass. -/
theorem ctrBlocks_le_pow {m q : Nat} (hq : 2 ≤ q) (hm : m < 2 ^ (8 * q)) : ctrBlocks m ≤ 2 ^ (8 * q) := by
  have hfield : 2 ^ (8 * 2) ≤ 2 ^ (8 * q) := Nat.pow_le_pow_right (by decide) (by omega)
  rw [ctrBlocks, cdiv16]
  omega

/-- Settles O38: the count starts in zeroed bytes that hold every block's number. -/
theorem counterStaysInItsField : Obligations.CounterStaysInItsField := by
  intro nonce m k _ hnonce hm hk
  have hcount := hk.trans_le (ctrBlocks_le_pow (by omega) hm)
  rw [buildIv_eq_ccmIv (by omega), ccmIv]
  exact inc128_zeros (by simp; omega) hcount

/-! ## What the operations store (R90, R91, R92) -/

/-- A whole `cbc_out` holds its last block. -/
theorem macOf_length {s : State} (h : s.hasWork .cbcOut = true) : (macOf s).length = 16 := by
  have hlen := workBytes_length h
  have : 0 < s.cbcBlocks := by rw [State.cbcBlocks, cbcBlocks]; omega
  rw [macOf, slice_length, hlen, State.workSize]
  omega

/-- Settles O27: the MAC is a whole block, so no zeros stand between it and the message. -/
theorem asmCtrEncBuildsItsInput : Obligations.AsmCtrEncBuildsItsInput := by
  intro s out hfits hout hlen
  have hmac : s.hasWork .cbcOut = true := hasWork_iff.mpr ⟨out, hout, hlen⟩
  have hbytes : macOf s = slice out (16 * (s.cbcBlocks - 1)) 16 := by
    rw [macOf, State.workBytes, State.work, hout, Option.getD_some]
  refine execAsmCtrEnc_eq_next.mpr ⟨hfits, hmac, ?_⟩
  rw [asmCtrEncOp, buildCtrIn_eq (macOf_length hmac).le, macOf_length hmac, Nat.sub_self, zeros_zero, List.append_nil,
    hbytes]
  rfl

/-- Settles O28: a legal tag fits its block, and zeros fill it (R91). -/
theorem asmCtrDecBuildsItsInput : Obligations.AsmCtrDecBuildsItsInput := by
  intro s htag hfits
  have hlen : (tagOperand Config.params s).length ≤ 16 := by
    rw [tagOperand_length]
    omega
  refine execAsmCtrDec_eq_next.mpr ⟨htag, hfits, ?_⟩
  rw [asmCtrDecOp, buildCtrIn_eq hlen, tagOperand_length]
  rfl

/-- Settles O29: FLAGS and a legal nonce leave the block's last q bytes as they were cleared (R92). -/
theorem buildCtrIvBuildsTheIv : Obligations.BuildCtrIvBuildsTheIv := by
  intro s hnonce
  have hlen : (nonceOperand Config.params s).length ≤ 15 := by
    rw [nonceOperand_length]
    omega
  refine execBuildCtrIv_eq_next.mpr ⟨hnonce, ?_⟩
  rw [buildCtrIvOp, buildIv_eq_ccmIv hlen, ccmIv, nonceOperand_length, ivFlags_eq]
  rfl

end Sys2Proof.Machine
end

section
/-! # CCM_ENC, answered OK

What the passes leave in the working buffers while every request is answered OK, as a function of the operands the
command began with; and what OUTPUT makes of `ctr_out`. The passes of either command but COMPARE go on in this way. -/

namespace Sys2Proof.Machine

/-! ## What a pass leaves in the working buffers -/

/-- The message `b_input` is built from (R85): CCM_DEC takes the one its CTR pass recovered. -/
def passMessage (P : Params) (c : Command) (s : State) (W : WorkBuffer → Bytes) : Bytes :=
  match sourceOf c with
  | .msgIn => msgOperand P s
  | .recovered => slice (W .ctrOut) 16 s.msgLength

/-- What the first block of `ctr_in` is built from: the MAC (R90), or the received tag (R91). -/
def passHead (P : Params) (c : Command) (s : State) (W : WorkBuffer → Bytes) : Bytes :=
  match c with
  | .ccmDec => tagOperand P s
  | _ => slice (W .cbcOut) (16 * (s.cbcBlocks - 1)) 16

/-- The bytes of the working buffers after a phase that goes on, from those before it and the operands in `s`: the
closed forms of R85, R90 to R92, R125 and R126. -/
def passWork (P : Params) (c : Command) (s : State) (W : WorkBuffer → Bytes) (p : Phase) : WorkBuffer → Bytes :=
  match p with
  | .asmCbc => Function.update W .bInput
      (ccmInput s.tagLength (nonceOperand P s) (aadOperand P s) (passMessage P c s W))
  | .cbcRun => Function.update W .cbcOut (cbcMode P (keyOperand P s) (zeros 16) (W .bInput))
  | .ctrIv => Function.update W .ctrIv (ccmIv (nonceOperand P s))
  | .asmCtr => Function.update W .ctrIn
      (passHead P c s W ++ zeros (16 - (passHead P c s W).length) ++ pad16 (msgOperand P s))
  | .ctrRun => Function.update W .ctrOut (ctrMode P (keyOperand P s) (W .ctrIv) (W .ctrIn))
  | _ => W

/-- The engine changes no operand, so a pass may read them where the command began. -/
theorem EngineFrame.passWork {s t : State} (h : EngineFrame s t) (P : Params) (c : Command)
    (W : WorkBuffer → Bytes) (p : Phase) : passWork P c t W p = passWork P c s W p := by
  have hmessage : passMessage P c t W = passMessage P c s W := by
    rw [passMessage, h.msgOperand, h.registers.msgLength, passMessage]
  have hhead : passHead P c t W = passHead P c s W := by
    unfold passHead
    rw [h.tagOperand, h.registers.cbcBlocks]
  unfold Machine.passWork
  rw [h.registers.tagLength, h.keyOperand, h.nonceOperand, h.aadOperand, h.msgOperand, hmessage, hhead]

theorem setWork_workBytes_eq (s : State) (b : WorkBuffer) (bytes : Bytes) :
    (s.setWork b bytes).workBytes = Function.update s.workBytes b bytes := by
  funext b'
  rw [setWork_workBytes, Function.update_apply]

/-- ASM_CTR stores the head, a block of its own, and the padded message (R90, R91). -/
theorem Prepared.asmCtrOp_workBytes {P : Params} {c : Command} {s : State} (h : Prepared P .asmCtr s)
    (hc : c.isCcm = true) : (asmCtrOp P c s).workBytes = passWork P c s s.workBytes .asmCtr := by
  have hhead : (passHead P c s s.workBytes).length ≤ 16 := by
    obtain ⟨-, htag, -⟩ := h.legal
    cases c with
    | ccmDec =>
      rw [passHead, tagOperand_length]
      omega
    | ccmEnc | cbcSize | ctrSize => exact (slice_length ..).trans_le (min_le_left ..)
  rw [passWork, ← buildCtrIn_eq hhead]
  cases c with
  | ccmEnc | ccmDec => exact setWork_workBytes_eq ..
  | cbcSize | ctrSize => cases hc

/-- A phase whose request is answered OK goes on: one status is used, and the answer stands in its buffer. -/
theorem Prepared.request_passes {P : Params} {c : Command} {p : Phase} {s : State} (h : Prepared P p s)
    (hp : asksPort p = true) (hst : statusAt P s 0 = .ok) :
    ∃ t, phaseOp P c p s = .ok t ∧ (∀ k, statusAt P t k = statusAt P s (k + 1))
      ∧ t.workBytes = passWork P c s s.workBytes p := by
  obtain ⟨r, hr⟩ := requestOf_of_asksPort (P := P) s hp
  refine ⟨_, h.phaseOp_ok hr hst, fun k => ?_, ?_⟩
  · rw [← statusAt_record P s ⟨r, .ok (answerOf P p s)⟩]
    cases p <;> exact statusAt_congr rfl rfl k
  · cases p with
    | cbcInit | cbcKey | ctrInit | ctrKey => rfl
    | cbcRun | ctrRun => exact setWork_workBytes_eq ..
    | _ => cases hp

/-- A prepared phase of the passes goes on, where its request, if it has one, is answered OK, and where it is not the
comparison of the tags. -/
theorem Prepared.passes {P : Params} {c : Command} {p : Phase} {s : State} (h : Prepared P p s)
    (hp : p ∈ passesOf c) (hcompare : p ≠ .compare) (hst : asksPort p = true → statusAt P s 0 = .ok) :
    ∃ t, phaseOp P c p s = .ok t ∧ (∀ k, statusAt P t k = statusAt P s (k + (asksPort p).toNat))
      ∧ t.workBytes = passWork P c s s.workBytes p := by
  obtain ⟨-, -, hnonce, -⟩ := h.legal
  have hlength : (nonceOperand P s).length ≤ 15 := by
    rw [nonceOperand_length]
    omega
  cases p with
  | cbcInit | cbcKey | cbcRun | ctrInit | ctrKey | ctrRun => exact h.request_passes rfl (hst rfl)
  | asmCbc =>
    refine ⟨_, rfl, fun k => statusAt_congr rfl rfl k, ?_⟩
    rw [passWork, ← buildBInput_eq_ccmInput _ _ _ hlength]
    exact setWork_workBytes_eq ..
  | ctrIv =>
    refine ⟨_, rfl, fun k => statusAt_congr rfl rfl k, ?_⟩
    rw [passWork, ← buildIv_eq_ccmIv hlength]
    exact setWork_workBytes_eq ..
  | asmCtr =>
    have hc : c.isCcm = true := by
      cases c with
      | ccmEnc | ccmDec => rfl
      | cbcSize | ctrSize => cases hp
    refine ⟨_, rfl, fun k => ?_, h.asmCtrOp_workBytes hc⟩
    cases c <;> exact statusAt_congr rfl rfl k
  | recover => exact ⟨s, rfl, fun _ => rfl, rfl⟩
  | compare => exact absurd rfl hcompare
  | idle | clearOut | validate | alloc | output | free | size => cases c <;> simp [passesOf] at hp

/-! ## The passes, one after another -/

/-- A command that began in `s` stands in `t`, between ALLOC and OUTPUT: what the frame holds is as it was, the outputs
are cleared, the next `n` requests will be answered OK, and the working buffers hold `W`. -/
structure Underway (P : Params) (s : State) (n : Nat) (W : WorkBuffer → Bytes) (t : State) : Prop where
  frame : EngineFrame s t
  outputs : ∀ sp, hostWritable sp = false → t.buffer sp = []
  answers : ∀ k < n, statusAt P t k = .ok
  work : t.workBytes = W

section Passes

variable {P : Params} {c : Command} {s t : State} {n : Nat} {W : WorkBuffer → Bytes}

theorem Underway.enter (h : Underway P s n W t) (p : Phase) : Underway P s n W (t.enter c p) where
  frame := h.frame.trans (enter_frame t c p)
  outputs sp hsp := (enter_buffer ..).trans (h.outputs sp hsp)
  answers := h.answers
  work := h.work

theorem ne_of_mem_passesOf : ∀ p ∈ passesOf c, p ≠ .size ∧ p ≠ .clearOut ∧ p ≠ .output := by
  cases c <;> decide

/-- One pass. -/
theorem Underway.pass {p : Phase} (h : Underway P s (n + (asksPort p).toNat) W t) (hp : p ∈ passesOf c)
    (hcompare : p ≠ .compare) (hprepared : Prepared P p t) :
    ∃ u, phaseOp P c p t = .ok u ∧ Underway P s n (passWork P c s W p) u := by
  obtain ⟨u, hu, hstatus, hwork⟩ := hprepared.passes hp hcompare fun hasks => h.answers 0 (by simp [hasks])
  obtain ⟨hsize, hclear, hout⟩ := ne_of_mem_passesOf p hp
  refine ⟨u, hu, ?_, fun sp hsp => ?_, fun k hk => ?_, ?_⟩
  · have hframe := phaseOp_frame P c t hsize
    rw [hu] at hframe
    exact h.frame.trans hframe
  · have hbuffer := phaseOp_buffer P c t sp hclear hout
    rw [hu] at hbuffer
    exact hbuffer.trans (h.outputs sp hsp)
  · rw [hstatus, h.answers _ (by omega)]
  · rw [hwork, h.work, h.frame.passWork]

/-- A stretch of the passes, up to a phase `q`: with its requests answered OK it is walked to its end. -/
theorem Underway.runPhases (ps : List Phase) {q : Phase} (rest : List Phase)
    (hpasses : ∀ p ∈ ps, p ∈ passesOf c ∧ p ≠ .compare) (hchain : (ps ++ [q]).IsChain follows)
    (hprepared : ∀ p ∈ (ps ++ [q]).head?, Prepared P p t) (h : Underway P s (n + ps.countP asksPort) W t) :
    ∃ u, runPhases P c (ps ++ rest) t = runPhases P c rest u ∧ Prepared P q u
      ∧ Underway P s n (ps.foldl (passWork P c s) W) u := by
  induction ps generalizing t W with
  | nil => exact ⟨t, rfl, hprepared q rfl, h⟩
  | cons p ps ih =>
    obtain ⟨⟨hp, hcompare⟩, htail⟩ := List.forall_mem_cons.mp hpasses
    obtain ⟨hfollows, hchain⟩ := List.isChain_cons.mp hchain
    have hfirst := (hprepared p rfl).enter c p
    rw [List.countP_cons, ← Bool.cond_eq_ite, ← Bool.toNat, ← Nat.add_assoc] at h
    obtain ⟨u, hu, hunderway⟩ := (h.enter p).pass hp hcompare hfirst
    rw [List.cons_append, runPhases_ok hu]
    exact ih htail hchain (fun q' hq' => hfirst.next hp (hfollows q' hq') hu) hunderway

/-- Where ALLOC leaves a command, its passes begin. -/
theorem underway_allocated (P : Params) (c : Command) (hanswers : ∀ k < n, statusAt P s k = .ok) :
    Underway P s n (allocated P c s).workBytes (allocated P c s) where
  frame := allocated_frame P c s
  outputs sp hsp := by simp [allocated, hsp]
  answers k hk := (statusAt_allocated P c s k).trans (hanswers k hk)
  work := rfl

end Passes

/-! ## OUTPUT (R102) -/

/-- A part of `ctr_out` written into a cleared output buffer: its bytes, and zeros behind them. -/
theorem memRead_slice_of_cleared {sp : Space} {out : Bytes} {a n : Nat} (hsp : hostWritable sp = false)
    (hlen : a + n ≤ out.length) (i : Nat) :
    memRead sp i (memWriteBytes sp 0 (slice out a n) []) = some (if i < n then out.getD (a + i) 0 else 0) := by
  have hn : (slice out a n).length = n := by
    rw [slice_length]
    omega
  have hzero : unlisted sp = some 0 := by
    cases sp with
    | msgOut | tagOut => rfl
    | key | nonce | aad | msgIn | tagIn => cases hsp
  rw [memRead_memWriteBytes _ _ _ _ _ (wf_nil sp), hn, memRead_nil, hzero]
  by_cases hi : i < n
  · rw [if_pos (by omega), if_pos hi, Nat.sub_zero, slice, List.getElem?_take_of_lt hi, List.getElem?_drop,
      List.getD_eq_getElem?_getD, List.getElem?_eq_getElem (by omega), Option.getD_some]
  · rw [if_neg (by omega), if_neg hi]

/-- OUTPUT of CCM_ENC releases the first t bytes of `ctr_out` and the m bytes behind its first block, no other. -/
theorem outputOp_ccmEnc_outByte {s : State} (hcleared : ∀ sp, hostWritable sp = false → s.buffer sp = [])
    (htag : s.tagLength ≤ (s.workBytes .ctrOut).length)
    (hmsg : 16 + s.msgLength ≤ (s.workBytes .ctrOut).length) (i : Nat) :
    outByte (outputOp .ccmEnc s) .tagOut i =
        some (if i < s.tagLength then (s.workBytes .ctrOut).getD i 0 else 0)
      ∧ outByte (outputOp .ccmEnc s) .msgOut i =
        some (if i < s.msgLength then (s.workBytes .ctrOut).getD (16 + i) 0 else 0) := by
  constructor
  · have hbuffer : (outputOp .ccmEnc s).buffer .tagOut =
        memWriteBytes .tagOut 0 (slice (s.workBytes .ctrOut) 0 s.tagLength) [] :=
      congrArg (memWriteBytes .tagOut 0 _) (hcleared .tagOut rfl)
    rw [outByte, hbuffer, memRead_slice_of_cleared rfl (by omega), Nat.zero_add]
  · have hbuffer : (outputOp .ccmEnc s).buffer .msgOut =
        memWriteBytes .msgOut 0 (slice (s.workBytes .ctrOut) 16 s.msgLength) [] :=
      congrArg (memWriteBytes .msgOut 0 _) (hcleared .msgOut rfl)
    rw [outByte, hbuffer, memRead_slice_of_cleared rfl hmsg]

/-! ## The command (R101, R102) -/

/-- The passes of CCM_ENC leave the CTR pass over the MAC and the padded plaintext in `ctr_out`. -/
theorem passWork_ccmEnc_ctrOut (P : Params) (s : State) (W : WorkBuffer → Bytes) :
    (passesOf .ccmEnc).foldl (passWork P .ccmEnc s) W .ctrOut = encOutput P s := by
  have hblocks : s.cbcBlocks = cbcBlocks (msgOperand P s).length (aadOperand P s).length := by
    rw [msgOperand_length, aadOperand_length, State.cbcBlocks]
  simp [passesOf, passWork, passHead, passMessage, sourceOf, encOutput, ccmCtr, ccmMac, hblocks]

/-- The room that CTR_RUN leaves for OUTPUT: a block for the tag, and the message behind it (R71). -/
theorem tag_and_message_fit {s : State} (htag : s.legalTag) :
    s.tagLength ≤ 16 * s.ctrBlocks ∧ 16 + s.msgLength ≤ 16 * s.ctrBlocks := by
  have hmsg := le_cdiv16 s.msgLength
  rw [State.ctrBlocks, ctrBlocks]
  omega

/-- With legal operands that fit and six OK answers, CCM_ENC ends through OUTPUT, with the whole CTR pass in
`ctr_out` in front of it. -/
theorem runCommand_ccmEnc {P : Params} {s : State} (hlegal : operandsLegal s) (hfit : fits P s = true)
    (hanswers : allAnswersOk P s) :
    ∃ (u : State) (W : WorkBuffer → Bytes), Underway P s 0 W u ∧ Prepared P .output u ∧ W .ctrOut = encOutput P s
      ∧ runCommand P .ccmEnc s = runPhases P .ccmEnc [.output, .free] u := by
  have hstart : Underway P s (0 + (passesOf .ccmEnc).countP asksPort) _ (allocated P .ccmEnc s) :=
    underway_allocated P .ccmEnc hanswers
  obtain ⟨u, hrun, hprepared, hunderway⟩ := hstart.runPhases (c := .ccmEnc) (q := .output)
    (passesOf .ccmEnc) [.output, .free] (by decide) (by decide) fun p hp => by cases hp; exact prepared_allocated hlegal hfit rfl
  exact ⟨u, _, hunderway, hprepared, passWork_ccmEnc_ctrOut P s _, (runCommand_fit rfl hlegal hfit).trans hrun⟩

/-- Settles O39. -/
theorem encryptAndTagSucceeds : Obligations.EncryptAndTagSucceeds := by
  intro s hlegal hfit hanswers
  obtain ⟨u, W, hunderway, hprepared, hW, hrun⟩ := runCommand_ccmEnc hlegal hfit hanswers
  have hregisters := hunderway.frame.registers
  have hout : u.workBytes .ctrOut = encOutput Config.params s := by rw [hunderway.work, hW]
  have hlen : (encOutput Config.params s).length = 16 * s.ctrBlocks := by
    rw [← hout, workBytes_length (hprepared.work .ctrOut), State.workSize, hregisters.ctrBlocks]
  obtain ⟨-, hlegalTag, -⟩ := hlegal
  obtain ⟨htag, hmsg⟩ := tag_and_message_fit hlegalTag
  have hbytes := outputOp_ccmEnc_outByte (s := u.enter .ccmEnc .output) (hunderway.enter .output).outputs
  simp only [enter_workBytes, enter_tagLength, enter_msgLength, hout, hlen, hregisters.tagLength,
    hregisters.msgLength] at hbytes
  refine ⟨_, rfl, ?_, (runCommand_frame _ s rfl).commandFrame (runCommand_done _ s rfl) (runCommand_atRest _ s rfl),
    hlen, fun i => ?_, fun i => ?_⟩
  · rw [hrun]
    simp [runPhases, phaseOp, freeOp, outputOp_result (c := .ccmEnc) _ rfl]
  · obtain ⟨htagOut, -⟩ := hbytes htag hmsg i
    rwa [hrun]
  · obtain ⟨-, hmsgOut⟩ := hbytes htag hmsg i
    rwa [hrun]

end Sys2Proof.Machine
end

section
/-! # The two passes as operations on bytes (R125, R126)

A CTR pass XORs its input with a keystream that does not depend on the input; the last block of a CBC pass is the fold
of its blocks. From these, what CCM_ENC and CCM_DEC compute from their operands. -/

namespace Sys2Proof.Machine

/-! ## XOR and slices -/

theorem slice_xorBytes (a b : Bytes) (i n : Nat) :
    slice (xorBytes a b) i n = xorBytes (slice a i n) (slice b i n) := by
  simp only [slice, xorBytes, List.drop_zipWith, List.take_zipWith]

/-- XORing twice with the same bytes changes nothing. -/
theorem xorBytes_xorBytes {a mask : Bytes} (h : a.length = mask.length) : xorBytes (xorBytes a mask) mask = a := by
  apply List.ext_getElem
  · simp [h]
  · intro i _ _
    simp [xorBytes]

theorem xorBytes_left_inj {a b mask : Bytes} (ha : a.length = mask.length) (hb : b.length = mask.length) :
    xorBytes a mask = xorBytes b mask ↔ a = b := by
  refine ⟨fun h => ?_, congrArg (xorBytes · mask)⟩
  rw [← xorBytes_xorBytes ha, h, xorBytes_xorBytes hb]

theorem xorBytes_comm (a b : Bytes) : xorBytes a b = xorBytes b a := by
  simp only [xorBytes, List.zipWith_comm (as := a), BitVec.xor_comm]

theorem xorBytes_block_length {a b : Bytes} (h : a.length = b.length) (hb : b.length = 16) :
    (xorBytes a b).length = 16 := by
  rw [xorBytes_length, h, min_self, hb]

/-- The first bytes of what begins with them. -/
theorem slice_zero_append {a : Bytes} {t : Nat} (h : t ≤ a.length) (b : Bytes) : slice (a ++ b) 0 t = a.take t := by
  rw [slice, List.drop_zero, List.take_append_of_le_length h]

theorem slice_getD {bytes : Bytes} {a n i : Nat} (h : i < n) : (slice bytes a n).getD i 0 = bytes.getD (a + i) 0 := by
  rw [slice, List.getD_eq_getElem?_getD, List.getElem?_take_of_lt h, List.getElem?_drop, List.getD_eq_getElem?_getD]

/-- The bytes of `b` that begin behind `a`, where something may follow. -/
theorem slice_append_append {a : Bytes} {i : Nat} (h : a.length = i) (b c : Bytes) :
    slice (a ++ (b ++ c)) i b.length = b := by
  subst h
  rw [slice, List.drop_left, List.take_left]

/-! ## The CTR pass (R126) -/

/-- The keystream of `k` blocks, the first with counter `i`. -/
def keystream (P : Params) (key iv : Bytes) : Nat → Nat → Bytes
  | 0, _ => []
  | k + 1, i => cipherBlock P key (inc128 iv i) ++ keystream P key iv k (i + 1)

theorem keystream_length (P : Params) (key iv : Bytes) (k i : Nat) : (keystream P key iv k i).length = 16 * k := by
  induction k generalizing i with
  | zero => rfl
  | succ k ih =>
    rw [keystream, List.length_append, ih, cipherBlock_length]
    omega

theorem ctrChain_eq_xorBytes (P : Params) (key iv : Bytes) {k : Nat} (i : Nat) {input : Bytes}
    (h : input.length = 16 * k) : ctrChain P key iv k i input = xorBytes input (keystream P key iv k i) := by
  induction k generalizing i input with
  | zero => rw [List.length_eq_zero_iff.mp h]; rfl
  | succ k ih =>
    have hblock : (input.take 16).length = (cipherBlock P key (inc128 iv i)).length := by
      rw [List.length_take, cipherBlock_length]
      omega
    have hrest : (input.drop 16).length = 16 * k := by
      rw [List.length_drop]
      omega
    calc ctrChain P key iv (k + 1) i input
        = xorBytes (input.take 16) (cipherBlock P key (inc128 iv i))
            ++ xorBytes (input.drop 16) (keystream P key iv k (i + 1)) := by rw [ctrChain, ih (i + 1) hrest]
      _ = xorBytes (input.take 16 ++ input.drop 16) (keystream P key iv (k + 1) i) := (List.zipWith_append hblock).symm
      _ = _ := by rw [List.take_append_drop]

/-- The keystream of a CCM command over a message of `m` bytes (R92, R126). -/
def ccmKeystream (P : Params) (key nonce : Bytes) (m : Nat) : Bytes := keystream P key (ccmIv nonce) (ctrBlocks m) 0

theorem ccmKeystream_length (P : Params) (key nonce : Bytes) (m : Nat) :
    (ccmKeystream P key nonce m).length = 16 * ctrBlocks m := keystream_length ..

section CcmCtr

variable (P : Params) (key nonce : Bytes) {head : Bytes} (hhead : head.length ≤ 16) (msg : Bytes)

include hhead

theorem ccmCtr_eq_xorBytes :
    ccmCtr P key nonce head msg =
      xorBytes (head ++ zeros (16 - head.length) ++ pad16 msg) (ccmKeystream P key nonce msg.length) := by
  have hlen : (head ++ zeros (16 - head.length) ++ pad16 msg).length = 16 * ctrBlocks msg.length := by
    rw [← buildCtrIn_eq hhead, buildCtrIn_length]
  rw [ccmCtr, ctrMode, hlen, Nat.mul_div_cancel_left _ (by decide), ctrChain_eq_xorBytes P key _ 0 hlen, ccmKeystream]

theorem ccmCtr_length : (ccmCtr P key nonce head msg).length = 16 * ctrBlocks msg.length := by
  rw [ccmCtr_eq_xorBytes P key nonce hhead, xorBytes_length, ccmKeystream_length, ← buildCtrIn_eq hhead,
    buildCtrIn_length, min_self]

/-- The bytes behind the first block are the message's. -/
theorem ccmCtr_message : slice (ccmCtr P key nonce head msg) 16 msg.length =
    xorBytes msg (slice (ccmKeystream P key nonce msg.length) 16 msg.length) := by
  have hblock : (head ++ zeros (16 - head.length)).length = 16 := by
    simp
    omega
  rw [ccmCtr_eq_xorBytes P key nonce hhead, slice_xorBytes, pad16, slice_append_append hblock]

/-- The first block is the head's. -/
theorem ccmCtr_head {t : Nat} (ht : t ≤ head.length) : slice (ccmCtr P key nonce head msg) 0 t =
    xorBytes (head.take t) (slice (ccmKeystream P key nonce msg.length) 0 t) := by
  rw [ccmCtr_eq_xorBytes P key nonce hhead, slice_xorBytes, List.append_assoc, slice_zero_append ht]

end CcmCtr

/-! ## The CBC pass (R125) -/

/-- E on byte sequences is injective on blocks where E is on blocks. -/
theorem cipherBlock_injective {P : Params} {key a b : Bytes} (hE : Function.Injective (P.blockCipher key))
    (ha : a.length = 16) (hb : b.length = 16) (h : cipherBlock P key a = cipherBlock P key b) : a = b := by
  have hblock : blockOf a = blockOf b := hE (Vector.toList_inj.mp h)
  rw [← blockOf_toList a ha, hblock, blockOf_toList b hb]

/-- The last output block of CBC over `k` blocks, from the block before them. -/
def cbcFinal (P : Params) (key : Bytes) : Nat → Bytes → Bytes → Bytes
  | 0, prev, _ => prev
  | k + 1, prev, input => cbcFinal P key k (cipherBlock P key (xorBytes (input.take 16) prev)) (input.drop 16)

theorem cbcFinal_length {P : Params} {key prev : Bytes} (hprev : prev.length = 16) (k : Nat) (input : Bytes) :
    (cbcFinal P key k prev input).length = 16 := by
  induction k generalizing prev input with
  | zero => exact hprev
  | succ k ih => exact ih (cipherBlock_length ..) _

theorem cbcChain_lastBlock (P : Params) (key : Bytes) (k : Nat) (prev input : Bytes) :
    blockAt (cbcChain P key (k + 1) prev input) k = cbcFinal P key (k + 1) prev input := by
  induction k generalizing prev input with
  | zero =>
    rw [cbcChain, cbcChain, List.append_nil, blockAt, slice, Nat.mul_zero, List.drop_zero,
      List.take_of_length_le (cipherBlock_length ..).le]
    rfl
  | succ k ih =>
    rw [cbcFinal, ← ih, cbcChain, blockAt, blockAt, slice, slice,
      show 16 * (k + 1) = (cipherBlock P key (xorBytes (input.take 16) prev)).length + 16 * k by
        rw [cipherBlock_length]; omega,
      List.drop_length_add_append]

/-- What comes first is folded first. -/
theorem cbcFinal_append (P : Params) (key : Bytes) {j : Nat} (k : Nat) (prev : Bytes) {a : Bytes}
    (ha : a.length = 16 * j) (b : Bytes) :
    cbcFinal P key (j + k) prev (a ++ b) = cbcFinal P key k (cbcFinal P key j prev a) b := by
  induction j generalizing prev a with
  | zero => rw [List.length_eq_zero_iff.mp ha, Nat.zero_add]; rfl
  | succ j ih =>
    rw [Nat.add_right_comm, cbcFinal, List.take_append_of_le_length (by omega),
      List.drop_append_of_le_length (by omega), ih _ (by rw [List.length_drop]; omega)]
    rfl

/-- With E injective, different blocks before the same input end in different blocks. -/
theorem cbcFinal_injective {P : Params} {key : Bytes} (hE : Function.Injective (P.blockCipher key)) {k : Nat}
    {prev prev' input : Bytes} (hprev : prev.length = 16) (hprev' : prev'.length = 16) (hinput : 16 * k ≤ input.length)
    (h : cbcFinal P key k prev input = cbcFinal P key k prev' input) : prev = prev' := by
  induction k generalizing prev prev' input with
  | zero => exact h
  | succ k ih =>
    have hlen {c : Bytes} (hc : c.length = 16) : (input.take 16).length = c.length := by
      rw [List.length_take]
      omega
    have hblock := ih (cipherBlock_length ..) (cipherBlock_length ..) (by rw [List.length_drop]; omega) h
    have hxor := cipherBlock_injective hE (xorBytes_block_length (hlen hprev) hprev)
      (xorBytes_block_length (hlen hprev') hprev') hblock
    rw [xorBytes_comm _ prev, xorBytes_comm _ prev'] at hxor
    exact (xorBytes_left_inj (hlen hprev).symm (hlen hprev').symm).mp hxor

/-- With E injective, a change of one block changes the last output block. -/
theorem cbcFinal_injective_block {P : Params} {key : Bytes} (hE : Function.Injective (P.blockCipher key)) {j k : Nat}
    {iv a x y b : Bytes} (hiv : iv.length = 16) (ha : a.length = 16 * j) (hx : x.length = 16) (hy : y.length = 16)
    (hb : b.length = 16 * k)
    (h : cbcFinal P key (j + (k + 1)) iv (a ++ (x ++ b)) = cbcFinal P key (j + (k + 1)) iv (a ++ (y ++ b))) :
    x = y := by
  have hprev := cbcFinal_length (P := P) (key := key) hiv j a
  rw [cbcFinal_append _ _ _ _ ha, cbcFinal_append _ _ _ _ ha, cbcFinal, cbcFinal, List.take_left' hx,
    List.take_left' hy, List.drop_left' hx, List.drop_left' hy] at h
  have hblock := cbcFinal_injective hE (cipherBlock_length ..) (cipherBlock_length ..) hb.ge h
  have hxor := cipherBlock_injective hE (xorBytes_block_length (hx.trans hprev.symm) hprev)
    (xorBytes_block_length (hy.trans hprev.symm) hprev) hblock
  exact (xorBytes_left_inj (hx.trans hprev.symm) (hy.trans hprev.symm)).mp hxor

/-! ## The MAC (R101) -/

theorem ccmInput_length (t : Nat) {nonce : Bytes} (h : nonce.length ≤ 15) (aad msg : Bytes) :
    (ccmInput t nonce aad msg).length = 16 * cbcBlocks msg.length aad.length := by
  rw [← buildBInput_eq_ccmInput t aad msg h, buildBInput_length]

/-- The MAC is the last block of the pass over `b_input`. -/
theorem ccmMac_eq_cbcFinal (P : Params) (key : Bytes) (t : Nat) {nonce : Bytes} (h : nonce.length ≤ 15)
    (aad msg : Bytes) : ccmMac P key t nonce aad msg =
      cbcFinal P key (cbcBlocks msg.length aad.length) (zeros 16) (ccmInput t nonce aad msg) := by
  obtain ⟨k, hk⟩ : ∃ k, cbcBlocks msg.length aad.length = k + 1 := ⟨aadBlocks aad.length + cdiv16 msg.length, by
    rw [cbcBlocks]; omega⟩
  rw [ccmMac, cbcMode, ccmInput_length t h, Nat.mul_div_cancel_left _ (by decide), hk, Nat.add_sub_cancel]
  exact cbcChain_lastBlock P key k _ _

theorem ccmMac_length (P : Params) (key : Bytes) (t : Nat) {nonce : Bytes} (h : nonce.length ≤ 15) (aad msg : Bytes) :
    (ccmMac P key t nonce aad msg).length = 16 := by
  rw [ccmMac_eq_cbcFinal P key t h, cbcFinal_length (zeros_length 16)]

/-! ## A change within one block -/

/-- What stands before a block, the block, and what stands behind it. -/
theorem split_at_block (bytes : Bytes) (k : Nat) :
    bytes.take (16 * k) ++ (blockAt bytes k ++ bytes.drop (16 * k + 16)) = bytes := by
  rw [blockAt, slice, ← List.drop_drop, List.take_append_drop, List.take_append_drop]

theorem eq_outside_block {bytes bytes' : Bytes} {k : Nat} (h : ∀ i, i / 16 ≠ k → bytes'[i]? = bytes[i]?) :
    bytes'.take (16 * k) = bytes.take (16 * k) ∧ bytes'.drop (16 * k + 16) = bytes.drop (16 * k + 16) := by
  constructor
  · apply List.ext_getElem?
    intro i
    rw [List.getElem?_take, List.getElem?_take]
    split
    · exact h i (by omega)
    · rfl
  · apply List.ext_getElem?
    intro i
    rw [List.getElem?_drop, List.getElem?_drop, h _ (by omega)]

theorem pad16_getElem?_congr {msg msg' : Bytes} (hlen : msg'.length = msg.length) {i : Nat}
    (h : i < msg.length → msg'[i]? = msg[i]?) : (pad16 msg')[i]? = (pad16 msg)[i]? := by
  rw [pad16, pad16, List.getElem?_append, List.getElem?_append, hlen]
  split
  · exact h ‹_›
  · rfl

theorem pad16_injective {msg msg' : Bytes} (hlen : msg'.length = msg.length) (h : pad16 msg' = pad16 msg) :
    msg' = msg := List.append_inj_left h hlen

/-- `b_input`, cut at a block of the message. -/
theorem ccmInput_split (t : Nat) (nonce aad msg : Bytes) (k : Nat) :
    ccmInput t nonce aad msg = (b0Block t aad.length msg.length nonce ++ aadRegion aad ++ (pad16 msg).take (16 * k))
      ++ (blockAt (pad16 msg) k ++ (pad16 msg).drop (16 * k + 16)) := by
  rw [List.append_assoc, split_at_block, ccmInput_eq]

/-- With E injective, messages of one length that differ within one block have different MACs (R115 f). -/
theorem ccmMac_injective_block {P : Params} {key : Bytes} (hE : Function.Injective (P.blockCipher key)) (t : Nat)
    {nonce : Bytes} (hnonce : nonce.length ≤ 15) (aad : Bytes) {msg msg' : Bytes} (hlen : msg'.length = msg.length)
    {k : Nat} (hother : ∀ i < msg.length, i / 16 ≠ k → msg'[i]? = msg[i]?)
    (h : ccmMac P key t nonce aad msg' = ccmMac P key t nonce aad msg) : msg' = msg := by
  obtain ⟨hbefore, hbehind⟩ := eq_outside_block fun i hi => pad16_getElem?_congr hlen fun hlt => hother i hlt hi
  have hpadded := pad16_length msg
  have hpadded' := pad16_length msg'
  rw [hlen] at hpadded'
  have hblock : blockAt (pad16 msg') k = blockAt (pad16 msg) k := by
    by_cases hk : k < cdiv16 msg.length
    · obtain ⟨n, hn⟩ := Nat.exists_eq_add_of_lt hk
      rw [ccmMac_eq_cbcFinal P key t hnonce, ccmMac_eq_cbcFinal P key t hnonce, ccmInput_split t nonce aad msg' k,
        ccmInput_split t nonce aad msg k, hbefore, hbehind, hlen,
        show cbcBlocks msg.length aad.length = (1 + aadBlocks aad.length + k) + (n + 1) by rw [cbcBlocks]; omega] at h
      refine cbcFinal_injective_block hE (zeros_length 16) ?_ ?_ ?_ ?_ h
      · rw [List.length_append, List.length_append, b0Block_length t _ _ hnonce, aadRegion_length, List.length_take]
        omega
      · rw [blockAt, slice_length]
        omega
      · rw [blockAt, slice_length]
        omega
      · rw [List.length_drop]
        omega
    · rw [blockAt, blockAt, slice, slice, List.drop_of_length_le (by omega), List.drop_of_length_le (by omega)]
  refine pad16_injective hlen ?_
  rw [← split_at_block (pad16 msg') k, hbefore, hblock, hbehind, split_at_block]

end Sys2Proof.Machine
end

section
/-! # CCM_DEC, answered OK

What CCM_DEC recovers and recomputes from its operands, and the comparison that decides which of its two ends it
takes. -/

namespace Sys2Proof.Machine

/-! ## What the CTR pass does to the tag and to the message -/

/-- What the CTR pass XORs the tag with (R101, R111). -/
def tagMask (P : Params) (s : State) : Bytes :=
  slice (ccmKeystream P (keyOperand P s) (nonceOperand P s) s.msgLength) 0 s.tagLength

/-- What the CTR pass XORs the message with (R101, R111). -/
def messageMask (P : Params) (s : State) : Bytes :=
  slice (ccmKeystream P (keyOperand P s) (nonceOperand P s) s.msgLength) 16 s.msgLength

section Operands

variable (P : Params) {s : State}

theorem tagMask_length (htag : s.legalTag) : (tagMask P s).length = s.tagLength := by
  have hfit := tag_and_message_fit htag
  rw [State.ctrBlocks] at hfit
  rw [tagMask, slice_length, ccmKeystream_length]
  omega

theorem messageMask_length (htag : s.legalTag) : (messageMask P s).length = s.msgLength := by
  have hfit := tag_and_message_fit htag
  rw [State.ctrBlocks] at hfit
  rw [messageMask, slice_length, ccmKeystream_length]
  omega

theorem tagOperand_length_le (htag : s.legalTag) : (tagOperand P s).length ≤ 16 := by
  rw [tagOperand_length]
  omega

theorem nonceOperand_length_le (hnonce : s.legalNonce) : (nonceOperand P s).length ≤ 15 := by
  rw [nonceOperand_length]
  omega

theorem decOutput_length (htag : s.legalTag) : (decOutput P s).length = 16 * s.ctrBlocks := by
  rw [decOutput, ccmCtr_length P _ _ (tagOperand_length_le P htag), msgOperand_length, State.ctrBlocks]

theorem decPlaintext_eq (htag : s.legalTag) :
    decPlaintext P s = xorBytes (msgOperand P s) (messageMask P s) := by
  have hmessage := ccmCtr_message P (keyOperand P s) (nonceOperand P s) (tagOperand_length_le P htag) (msgOperand P s)
  rwa [msgOperand_length] at hmessage

theorem decCandidate_eq (htag : s.legalTag) : decCandidate P s = xorBytes (tagOperand P s) (tagMask P s) := by
  have hhead := ccmCtr_head P (keyOperand P s) (nonceOperand P s) (tagOperand_length_le P htag) (msgOperand P s)
    (tagOperand_length P s).ge
  rwa [msgOperand_length, List.take_of_length_le (tagOperand_length P s).le] at hhead

theorem decPlaintext_length (htag : s.legalTag) : (decPlaintext P s).length = s.msgLength := by
  rw [decPlaintext_eq P htag, xorBytes_length, msgOperand_length, messageMask_length P htag, min_self]

end Operands

/-! ## The passes up to COMPARE (R111) -/

/-- The passes of CCM_DEC in front of the comparison. -/
def decPasses : List Phase :=
  [.ctrIv, .asmCtr, .ctrInit, .ctrKey, .ctrRun, .recover, .asmCbc, .cbcInit, .cbcKey, .cbcRun]

theorem passesOf_ccmDec : passesOf .ccmDec = decPasses ++ [.compare] := rfl

theorem passWork_ccmDec_ctrOut (P : Params) (s : State) (W : WorkBuffer → Bytes) :
    decPasses.foldl (passWork P .ccmDec s) W .ctrOut = decOutput P s := by
  simp [decPasses, passWork, passHead, passMessage, sourceOf, decOutput, ccmCtr]

/-- The CBC pass of CCM_DEC runs over the plaintext that its CTR pass recovered (R85, R111). -/
theorem passWork_ccmDec_cbcOut (P : Params) (s : State) (W : WorkBuffer → Bytes) :
    decPasses.foldl (passWork P .ccmDec s) W .cbcOut =
      cbcMode P (keyOperand P s) (zeros 16)
        (ccmInput s.tagLength (nonceOperand P s) (aadOperand P s) (decPlaintext P s)) := by
  simp [decPasses, passWork, passHead, passMessage, sourceOf, decPlaintext, decOutput, ccmCtr]

/-- `T'` is cut out of the CBC output in one go (R112). -/
theorem decRecomputed_eq_slice (P : Params) {s : State} (htag : s.legalTag) :
    decRecomputed P s = slice (cbcMode P (keyOperand P s) (zeros 16)
      (ccmInput s.tagLength (nonceOperand P s) (aadOperand P s) (decPlaintext P s))) (16 * (s.cbcBlocks - 1))
        s.tagLength := by
  rw [decRecomputed, ccmMac, slice, slice, List.take_take, min_eq_left (by omega), decPlaintext_length P htag,
    aadOperand_length, State.cbcBlocks]

/-- COMPARE of CCM_DEC, reached: it compares `T'` and `U` of the operands (R112). -/
theorem Underway.compareOp_eq {P : Params} {s t : State} {n : Nat} {W : WorkBuffer → Bytes}
    (h : Underway P s n (decPasses.foldl (passWork P .ccmDec s) W) t) (htag : s.legalTag) :
    compareOp t = if decRecomputed P s = decCandidate P s then .ok t else .raise .authenticationFailure t := by
  have hrecovered : recoveredTag t = decCandidate P s := by
    rw [recoveredTag, h.work, passWork_ccmDec_ctrOut, h.frame.registers.tagLength, decCandidate]
  have hrecomputed : recomputedTag t = decRecomputed P s := by
    rw [recomputedTag, h.work, passWork_ccmDec_cbcOut, h.frame.registers.tagLength, h.frame.registers.cbcBlocks,
      decRecomputed_eq_slice P htag]
  rw [compareOp, hrecomputed, hrecovered]

/-! ## The two ends (R112, R113) -/

/-- OUTPUT of CCM_DEC releases the m bytes behind the first block of `ctr_out` (R113). -/
theorem outputOp_ccmDec_outByte {t : State} (hcleared : ∀ sp, hostWritable sp = false → t.buffer sp = [])
    (hmsg : 16 + t.msgLength ≤ (t.workBytes .ctrOut).length) (i : Nat) :
    outByte (outputOp .ccmDec t) .msgOut i =
      some (if i < t.msgLength then (t.workBytes .ctrOut).getD (16 + i) 0 else 0) := by
  have hbuffer : (outputOp .ccmDec t).buffer .msgOut =
      memWriteBytes .msgOut 0 (slice (t.workBytes .ctrOut) 16 t.msgLength) [] :=
    congrArg (memWriteBytes .msgOut 0 _) (hcleared .msgOut rfl)
  rw [outByte, hbuffer, memRead_slice_of_cleared rfl hmsg]

section Decides

variable {P : Params} {s : State}

/-- With legal operands that fit and six OK answers, CCM_DEC reaches the comparison and ends as it decides. -/
theorem runCommand_ccmDec (hlegal : operandsLegal s) (hfit : fits P s = true) (hanswers : allAnswersOk P s) :
    ∃ (u : State) (W : WorkBuffer → Bytes), Underway P s 0 W u ∧ W .ctrOut = decOutput P s
      ∧ runCommand P .ccmDec s =
        if decRecomputed P s = decCandidate P s then runPhases P .ccmDec [.output, .free] u
        else failureExit .authenticationFailure u := by
  have hstart : Underway P s (0 + decPasses.countP asksPort) _ (allocated P .ccmDec s) :=
    underway_allocated P .ccmDec hanswers
  obtain ⟨t, hrun, -, hunderway⟩ := hstart.runPhases (c := .ccmDec) (q := .compare) decPasses
    [.compare, .output, .free] (by decide) (by decide) fun p hp => by cases hp; exact prepared_allocated hlegal hfit rfl
  have hreached : runCommand P .ccmDec s = runPhases P .ccmDec [.compare, .output, .free] t := by
    rw [runCommand_fit rfl hlegal hfit, passesOf_ccmDec, List.append_assoc]
    exact hrun
  obtain ⟨-, htag, -⟩ := hlegal
  have henter := hunderway.enter (c := .ccmDec) .compare
  have hcompare : phaseOp P .ccmDec .compare (t.enter .ccmDec .compare) = _ := henter.compareOp_eq htag
  refine ⟨_, _, henter, passWork_ccmDec_ctrOut P s _, hreached.trans ?_⟩
  by_cases htags : decRecomputed P s = decCandidate P s
  · rw [if_pos htags] at hcompare ⊢
    exact runPhases_ok hcompare
  · rw [if_neg htags] at hcompare ⊢
    exact runPhases_raise hcompare

/-- CCM_DEC whose tags agree gives OK and the recovered plaintext (R113). -/
theorem ccmDec_verified (hlegal : operandsLegal s) (hfit : fits P s = true) (hanswers : allAnswersOk P s)
    (hverified : decRecomputed P s = decCandidate P s) :
    statusResult (runCommand P .ccmDec s).status = 0
      ∧ ∀ i, outByte (runCommand P .ccmDec s) .msgOut i =
        some (if i < s.msgLength then (decPlaintext P s).getD i 0 else 0) := by
  obtain ⟨u, W, hunderway, hW, hrun⟩ := runCommand_ccmDec hlegal hfit hanswers
  rw [if_pos hverified] at hrun
  obtain ⟨-, htag, -⟩ := hlegal
  obtain ⟨-, hmsg⟩ := tag_and_message_fit htag
  have hbytes := outputOp_ccmDec_outByte (t := u.enter .ccmDec .output) (hunderway.enter .output).outputs
  simp only [enter_workBytes, enter_msgLength, hunderway.work, hW, decOutput_length P htag,
    hunderway.frame.registers.msgLength] at hbytes
  refine ⟨?_, fun i => ?_⟩
  · rw [hrun]
    simp [runPhases, phaseOp, freeOp, outputOp_result (c := .ccmDec) _ rfl]
  · have hreleased : outByte (runPhases P .ccmDec [.output, .free] u) .msgOut i = _ := hbytes hmsg i
    rw [hrun, hreleased]
    split
    · rw [decPlaintext, slice_getD ‹_›]
    · rfl

/-- CCM_DEC whose tags differ gives AuthenticationFailure and releases nothing (R112, R146). -/
theorem ccmDec_rejected (hlegal : operandsLegal s) (hfit : fits P s = true) (hanswers : allAnswersOk P s)
    (hrejected : decRecomputed P s ≠ decCandidate P s) :
    statusResult (runCommand P .ccmDec s).status = 7 ∧ nothingReleased (runCommand P .ccmDec s) := by
  obtain ⟨u, -, -, -, hrun⟩ := runCommand_ccmDec hlegal hfit hanswers
  rw [hrun, if_neg hrejected]
  exact ⟨by simp [Result.code], failureExit_nothingReleased _ u⟩

end Decides

theorem runCommand_ccmDec_outByte_tagOut (P : Params) (s : State) (i : Nat) :
    outByte (runCommand P .ccmDec s) .tagOut i = some 0 :=
  congrArg (memRead .tagOut i) (runCommand_ccmDec_tagOut P s)

/-- Settles O40: the comparison decides between the two ends. -/
theorem decryptAndVerifyDecides : Obligations.DecryptAndVerifyDecides := by
  intro s hlegal hfit hanswers
  obtain ⟨-, htag, -⟩ := id hlegal
  refine ⟨_, rfl, (runCommand_frame _ s rfl).commandFrame (runCommand_done _ s rfl) (runCommand_atRest _ s rfl),
    decOutput_length _ htag, runCommand_ccmDec_outByte_tagOut _ s, ?_⟩
  split
  case isTrue hverified => exact ccmDec_verified hlegal hfit hanswers hverified
  case isFalse hrejected =>
    obtain ⟨hresult, hnothing⟩ := ccmDec_rejected hlegal hfit hanswers hrejected
    exact ⟨hresult, fun i => (hnothing i).1⟩

end Sys2Proof.Machine
end

section
/-! # What a command that succeeded says of its operands and answers

A command whose RESULT is OK took no failure exit: its operands are legal and fit, and all six requests were answered
OK. So the statements about a command that gave OK (R115) are about its closed forms. -/

namespace Sys2Proof.Machine

/-! ## The failure exit always fails -/

theorem failureExit_failed {r : Result} (hr : r ≠ .ok) (s : State) : (failureExit r s).failed = true := by
  cases r with
  | ok => exact absurd rfl hr
  | _ => simp [State.failed, Result.code]

theorem validateCause_ne_ok {s : State} {r : Result} (h : validateCause s = some r) : r ≠ .ok := by
  rintro rfl
  unfold validateCause at h
  split_ifs at h <;> cases h

theorem phaseOp_raise_ne_ok {P : Params} {c : Command} {p : Phase} {s t : State} {r : Result}
    (h : phaseOp P c p s = .raise r t) : r ≠ .ok := by
  by_cases hasks : asksPort p = true
  · obtain ⟨q, hq⟩ := requestOf_of_asksPort (P := P) s hasks
    rw [phaseOp_of_requestOf hq] at h
    cases hst : statusAt P s 0 with
    | ok => rw [ciph_ok hst] at h; cases h
    | error => rw [ciph_error hst] at h; cases h; nofun
  cases p with
  | validate =>
    rcases validateOp_cases s with ⟨-, hok⟩ | ⟨cause, hcause, -, hraise⟩
    · cases hok.symm.trans h
    · cases hraise.symm.trans h
      exact validateCause_ne_ok hcause
  | alloc =>
    rcases allocOp_cases P s with ⟨-, t, hok, -⟩ | ⟨-, hraise⟩
    · cases hok.symm.trans h
    · cases hraise.symm.trans h
      nofun
  | compare =>
    rw [phaseOp, compareOp] at h
    split at h
    · cases h
    · cases h
      nofun
  | cbcInit | cbcKey | cbcRun | ctrInit | ctrKey | ctrRun => exact absurd rfl hasks
  | idle | clearOut | asmCbc | ctrIv | asmCtr | recover | output | free | size => cases h

/-! ## The answers of a run that succeeded -/

theorem statusAt_storeOutput (P : Params) (s : State) (r : PortRequest) (out : Bytes) (k : Nat) :
    statusAt P (storeOutput s r out) k = statusAt P s k := by
  unfold storeOutput
  split
  · exact statusAt_congr (by simp) (by simp) k
  · rfl

/-- A request that the command goes on from was answered OK, and one status is used. -/
theorem ciph_of_ok {P : Params} {r : PortRequest} {s t : State} (h : ciph P r s = .ok t) :
    statusAt P s 0 = .ok ∧ ∀ k, statusAt P t k = statusAt P s (k + 1) := by
  cases hst : statusAt P s 0 with
  | error => rw [ciph_error hst] at h; cases h
  | ok =>
    rw [ciph_ok hst] at h
    cases h
    refine ⟨rfl, fun k => ?_⟩
    rw [statusAt_congr (setContext_answers ..) (setContext_issued ..), statusAt_storeOutput, statusAt_record]

/-- A phase that issues no request uses no status. -/
theorem phaseOp_statusAt {P : Params} {c : Command} {p : Phase} (hp : asksPort p = false) (s : State) (k : Nat) :
    statusAt P (phaseOp P c p s).state k = statusAt P s k := by
  cases p with
  | cbcInit | cbcKey | cbcRun | ctrInit | ctrKey | ctrRun => cases hp
  | alloc =>
    obtain ⟨hanswers, hissued, -⟩ := allocOp_records P s
    exact statusAt_congr hanswers hissued k
  | validate =>
    rw [phaseOp, validateOp_state]
    exact statusAt_congr rfl rfl k
  | compare => rw [phaseOp, compareOp_state]
  | asmCtr | size | output => cases c <;> exact statusAt_congr (by rfl) (by rfl) k
  | idle | clearOut | asmCbc | ctrIv | recover | free => exact statusAt_congr rfl rfl k

section Succeeds

variable {P : Params} {c : Command} {s : State}

/-- A run that succeeded went on from its first phase. -/
theorem runPhases_cons_of_succeeds {p : Phase} {ps : List Phase} (h : (runPhases P c (p :: ps) s).failed = false) :
    ∃ t, phaseOp P c p (s.enter c p) = .ok t ∧ (runPhases P c ps t).failed = false := by
  cases hp : phaseOp P c p (s.enter c p) with
  | ok t => exact ⟨t, rfl, runPhases_ok hp ▸ h⟩
  | raise r t =>
    rw [runPhases_raise hp, failureExit_failed (phaseOp_raise_ne_ok hp)] at h
    cases h

/-- Every request of a run that succeeded was answered OK (R129, R146). -/
theorem runPhases_answersOk (ps : List Phase) {rest : List Phase}
    (h : (runPhases P c (ps ++ rest) s).failed = false) : ∀ k < ps.countP asksPort, statusAt P s k = .ok := by
  induction ps generalizing s with
  | nil => exact fun _ hk => absurd hk (Nat.not_lt_zero _)
  | cons p ps ih =>
    obtain ⟨t, hp, hrest⟩ := runPhases_cons_of_succeeds h
    have hlater := ih hrest
    intro k hk
    rw [← statusAt_congr (s := s) (t := s.enter c p) rfl rfl]
    cases hasks : asksPort p with
    | false =>
      rw [List.countP_cons_of_neg (by simp [hasks])] at hk
      have hstatus := phaseOp_statusAt (P := P) (c := c) hasks (s.enter c p) k
      rw [hp, Flow.state_ok] at hstatus
      rw [← hstatus, hlater k hk]
    | true =>
      obtain ⟨r, hr⟩ := requestOf_of_asksPort (P := P) (s.enter c p) hasks
      rw [phaseOp_of_requestOf hr] at hp
      obtain ⟨hfirst, hnext⟩ := ciph_of_ok hp
      rw [List.countP_cons_of_pos hasks] at hk
      cases k with
      | zero => exact hfirst
      | succ k => rw [← hnext, hlater k (by omega)]

/-- A CCM command that gave OK had legal operands that fit, and six OK answers (R141, R146). -/
theorem runCommand_of_succeeds (hc : c.isCcm = true) (h : (runCommand P c s).failed = false) :
    operandsLegal s ∧ fits P s = true ∧ allAnswersOk P s := by
  cases hcause : validateCause s with
  | some r =>
    rw [runCommand_illegal P hc hcause, failureExit_failed (validateCause_ne_ok hcause)] at h
    cases h
  | none =>
    have hlegal := (validateCause_none s).mp hcause
    cases hfit : fits P s with
    | false =>
      rw [runCommand_unfit hc hlegal hfit, failureExit_failed (r := .allocationFailure) nofun] at h
      cases h
    | true =>
      rw [runCommand_fit hc hlegal hfit] at h
      have hanswers := runPhases_answersOk (passesOf c) h
      rw [passes_request_six hc] at hanswers
      exact ⟨hlegal, rfl, fun k hk => (statusAt_allocated P c s k).symm.trans (hanswers k hk)⟩

theorem failed_eq_false_iff : s.failed = false ↔ statusResult s.status = 0 := by simp [State.failed]

/-- CCM_DEC that gave OK found its tags equal (R112). -/
theorem ccmDec_of_succeeds (h : (runCommand P .ccmDec s).failed = false) :
    operandsLegal s ∧ fits P s = true ∧ decRecomputed P s = decCandidate P s := by
  obtain ⟨hlegal, hfit, hanswers⟩ := runCommand_of_succeeds rfl h
  refine ⟨hlegal, hfit, by_contra fun hrejected => ?_⟩
  obtain ⟨hresult, -⟩ := ccmDec_rejected hlegal hfit hanswers hrejected
  rw [failed_eq_false_iff, hresult] at h
  cases h

end Succeeds

end Sys2Proof.Machine
end

section
/-! # The round trip, and tampering with tag or ciphertext (R115)

Two states that share registers, key and nonce share both masks; so what CCM_DEC compares depends on tag and ciphertext
through an XOR, and on the ciphertext through the MAC as well. -/

namespace Sys2Proof.Machine

/-! ## What CCM_ENC puts out -/

/-- The MAC of CCM_ENC in a state's operands (R101). -/
def encMac (P : Params) (s : State) : Bytes :=
  ccmMac P (keyOperand P s) s.tagLength (nonceOperand P s) (aadOperand P s) (msgOperand P s)

theorem encMac_length (P : Params) {s : State} (hnonce : s.legalNonce) : (encMac P s).length = 16 :=
  ccmMac_length P _ _ (nonceOperand_length_le P hnonce) _ _

section Encrypt

variable {P : Params} {s : State}

theorem encOutput_eq : encOutput P s = ccmCtr P (keyOperand P s) (nonceOperand P s) (encMac P s) (msgOperand P s) := rfl

theorem encOutput_length (hnonce : s.legalNonce) : (encOutput P s).length = 16 * s.ctrBlocks := by
  rw [encOutput_eq, ccmCtr_length P _ _ (encMac_length P hnonce).le, msgOperand_length, State.ctrBlocks]

/-- CCM_ENC gives the CTR pass over the MAC and the plaintext, at every choice of the parameters (R102). -/
theorem runCommand_ccmEnc_outByte (hlegal : operandsLegal s) (hfit : fits P s = true) (hanswers : allAnswersOk P s)
    (i : Nat) :
    outByte (runCommand P .ccmEnc s) .tagOut i =
        some (if i < s.tagLength then (encOutput P s).getD i 0 else 0)
      ∧ outByte (runCommand P .ccmEnc s) .msgOut i =
        some (if i < s.msgLength then (encOutput P s).getD (16 + i) 0 else 0) := by
  obtain ⟨u, W, hunderway, -, hW, hrun⟩ := runCommand_ccmEnc hlegal hfit hanswers
  obtain ⟨-, htag, hnonce, -⟩ := hlegal
  obtain ⟨htagFits, hmsgFits⟩ := tag_and_message_fit htag
  have hbytes := outputOp_ccmEnc_outByte (s := u.enter .ccmEnc .output) (hunderway.enter .output).outputs
  simp only [enter_workBytes, enter_tagLength, enter_msgLength, hunderway.work, hW, encOutput_length hnonce,
    hunderway.frame.registers.tagLength, hunderway.frame.registers.msgLength] at hbytes
  rw [hrun]
  exact hbytes htagFits hmsgFits i

/-- The ciphertext. -/
theorem encOutput_message (hnonce : s.legalNonce) :
    slice (encOutput P s) 16 s.msgLength = xorBytes (msgOperand P s) (messageMask P s) := by
  have hmessage := ccmCtr_message P (keyOperand P s) (nonceOperand P s) (encMac_length P hnonce).le (msgOperand P s)
  rwa [msgOperand_length] at hmessage

/-- The tag. -/
theorem encOutput_tag (htag : s.legalTag) (hnonce : s.legalNonce) :
    slice (encOutput P s) 0 s.tagLength = xorBytes ((encMac P s).take s.tagLength) (tagMask P s) := by
  have hmac := encMac_length P hnonce
  have hhead := ccmCtr_head P (keyOperand P s) (nonceOperand P s) hmac.le (msgOperand P s) (t := s.tagLength)
    (by rw [hmac]; omega)
  rwa [msgOperand_length] at hhead

end Encrypt

/-! ## The bytes of an operand -/

theorem spaceBytes_getElem? (P : Params) (s : State) (sp : Space) {n i : Nat} (h : i < n) :
    (spaceBytes P s sp n)[i]? = some (byteAt P s sp i) := by simp [spaceBytes, h]

/-- An operand that holds a part of a sequence, byte by byte. -/
theorem spaceBytes_eq_slice {P : Params} {s : State} {sp : Space} {bytes : Bytes} {a n : Nat}
    (hlen : a + n ≤ bytes.length) (h : ∀ i < n, byteAt P s sp i = bytes.getD (a + i) 0) :
    spaceBytes P s sp n = slice bytes a n := by
  have hslice : (slice bytes a n).length = n := by
    rw [slice_length]
    omega
  apply List.ext_getElem
  · rw [spaceBytes_length, hslice]
  · intro i hi hi'
    have hlt : i < n := hslice ▸ hi'
    rw [← List.getD_eq_getElem _ 0 hi, ← List.getD_eq_getElem _ 0 hi', slice_getD hlt, ← h i hlt,
      List.getD_eq_getElem?_getD, spaceBytes_getElem? P s sp hlt, Option.getD_some]

/-! ## Two states with one key and one nonce -/

section Pair

variable {P : Params} {s u : State} (hreg : sameRegisters s u) (hkey : keyOperand P u = keyOperand P s)
  (hnonce : nonceOperand P u = nonceOperand P s)

include hreg hkey hnonce

theorem tagMask_congr : tagMask P u = tagMask P s := by
  rw [tagMask, hkey, hnonce, hreg.msgLength, hreg.tagLength, tagMask]

theorem messageMask_congr : messageMask P u = messageMask P s := by
  rw [messageMask, hkey, hnonce, hreg.msgLength, messageMask]

/-- With one key and one nonce, `U` determines the tag. -/
theorem decCandidate_eq_iff (htag : s.legalTag) :
    decCandidate P u = decCandidate P s ↔ tagOperand P u = tagOperand P s := by
  rw [decCandidate_eq P (hreg.legalTag.mpr htag), decCandidate_eq P htag, tagMask_congr hreg hkey hnonce]
  have hmask := tagMask_length P htag
  exact xorBytes_left_inj (by rw [tagOperand_length, hreg.tagLength, hmask]) (by rw [tagOperand_length, hmask])

/-- With one key and one nonce, the plaintext determines the ciphertext. -/
theorem decPlaintext_eq_iff (htag : s.legalTag) :
    decPlaintext P u = decPlaintext P s ↔ msgOperand P u = msgOperand P s := by
  rw [decPlaintext_eq P (hreg.legalTag.mpr htag), decPlaintext_eq P htag, messageMask_congr hreg hkey hnonce]
  have hmask := messageMask_length P htag
  exact xorBytes_left_inj (by rw [msgOperand_length, hreg.msgLength, hmask]) (by rw [msgOperand_length, hmask])

/-- A ciphertext byte that is the same gives the same plaintext byte. -/
theorem decPlaintext_getElem?_congr (htag : s.legalTag) {i : Nat} (hi : i < s.msgLength)
    (h : byteAt P u .msgIn i = byteAt P s .msgIn i) : (decPlaintext P u)[i]? = (decPlaintext P s)[i]? := by
  rw [decPlaintext_eq P (hreg.legalTag.mpr htag), decPlaintext_eq P htag, messageMask_congr hreg hkey hnonce, xorBytes,
    xorBytes, List.getElem?_zipWith, List.getElem?_zipWith, msgOperand, msgOperand, spaceBytes_getElem? P s .msgIn hi,
    spaceBytes_getElem? P u .msgIn (hreg.msgLength ▸ hi), h]

theorem decRecomputed_congr (haad : aadOperand P u = aadOperand P s) (hplain : decPlaintext P u = decPlaintext P s) :
    decRecomputed P u = decRecomputed P s := by
  rw [decRecomputed, hkey, hnonce, haad, hplain, hreg.tagLength, decRecomputed]

end Pair

/-! ## The round trip (R115 c) -/

section RoundTrip

variable {P : Params} {s u : State} (hsucceeds : (runCommand P .ccmEnc s).failed = false) (hreg : sameRegisters s u)

include hsucceeds hreg

/-- What CCM_ENC put into MSG_OUT, taken as the ciphertext. -/
theorem msgOperand_of_ccmEnc
    (h : ∀ i < s.msgLength, outByte (runCommand P .ccmEnc s) .msgOut i = some (byteAt P u .msgIn i)) :
    msgOperand P u = xorBytes (msgOperand P s) (messageMask P s) := by
  obtain ⟨hlegal, hfit, hanswers⟩ := runCommand_of_succeeds rfl hsucceeds
  obtain ⟨-, htag, hnonce, -⟩ := id hlegal
  obtain ⟨-, hmsg⟩ := tag_and_message_fit htag
  rw [← encOutput_message hnonce, msgOperand, hreg.msgLength]
  refine spaceBytes_eq_slice (encOutput_length hnonce ▸ hmsg) fun i hi => Option.some.inj ?_
  obtain ⟨-, hout⟩ := runCommand_ccmEnc_outByte hlegal hfit hanswers i
  rw [← h i hi, hout, if_pos hi]

/-- What CCM_ENC put into TAG_OUT, taken as the tag. -/
theorem tagOperand_of_ccmEnc
    (h : ∀ i < s.tagLength, outByte (runCommand P .ccmEnc s) .tagOut i = some (byteAt P u .tagIn i)) :
    tagOperand P u = xorBytes ((encMac P s).take s.tagLength) (tagMask P s) := by
  obtain ⟨hlegal, hfit, hanswers⟩ := runCommand_of_succeeds rfl hsucceeds
  obtain ⟨-, htag, hnonce, -⟩ := id hlegal
  obtain ⟨htagFits, -⟩ := tag_and_message_fit htag
  rw [← encOutput_tag htag hnonce, tagOperand, hreg.tagLength]
  refine spaceBytes_eq_slice (by rw [encOutput_length hnonce]; omega) fun i hi => Option.some.inj ?_
  obtain ⟨hout, -⟩ := runCommand_ccmEnc_outByte hlegal hfit hanswers i
  rw [← h i hi, hout, if_pos hi, Nat.zero_add]

end RoundTrip

/-- Settles O44: the masks of encryption and decryption cancel, so both commands compute one MAC. -/
theorem decryptRecoversThePlaintext : Obligations.DecryptRecoversThePlaintext := by
  intro P s u hsucceeds hreg hkey hnonce haad hmsgOut htagOut hanswers
  obtain ⟨hlegal, hfit, -⟩ := runCommand_of_succeeds rfl hsucceeds
  obtain ⟨-, htag, hlegalNonce, -⟩ := id hlegal
  have htag' := hreg.legalTag.mpr htag
  have hplain : decPlaintext P u = msgOperand P s := by
    rw [decPlaintext_eq P htag', messageMask_congr hreg hkey hnonce, msgOperand_of_ccmEnc hsucceeds hreg hmsgOut,
      xorBytes_xorBytes (by rw [msgOperand_length, messageMask_length P htag])]
  have hcandidate : decCandidate P u = (encMac P s).take s.tagLength := by
    rw [decCandidate_eq P htag', tagMask_congr hreg hkey hnonce, tagOperand_of_ccmEnc hsucceeds hreg htagOut,
      xorBytes_xorBytes]
    rw [tagMask_length P htag, List.length_take, encMac_length P hlegalNonce]
    omega
  have hrecomputed : decRecomputed P u = (encMac P s).take s.tagLength := by
    rw [decRecomputed, hplain, hkey, hnonce, haad, hreg.tagLength, encMac]
  obtain ⟨hresult, hreleased⟩ := ccmDec_verified (hreg.operandsLegal.mpr hlegal) ((hreg.fits P).trans hfit) hanswers
    (hrecomputed.trans hcandidate.symm)
  refine ⟨failed_eq_false_iff.mpr hresult, fun i hi => ?_⟩
  rw [hreleased, hreg.msgLength, if_pos hi, hplain, List.getD_eq_getElem?_getD, msgOperand,
    spaceBytes_getElem? P s .msgIn hi, Option.getD_some]

/-! ## Another tag (R115 d) -/

/-- Settles O45: the same plaintext is recovered and the same `T'` recomputed, but another `U` (R112). -/
theorem tagTamperingDetected : Obligations.TagTamperingDetected := by
  intro P s u hsucceeds hagree hchanged hanswers
  obtain ⟨hlegal, hfit, hverified⟩ := ccmDec_of_succeeds hsucceeds
  obtain ⟨hreg, hkey, hnonce, haad, hmsg⟩ := hagree
  obtain ⟨-, htag, -⟩ := id hlegal
  have hrecomputed := decRecomputed_congr hreg hkey hnonce haad ((decPlaintext_eq_iff hreg hkey hnonce htag).mpr hmsg)
  refine ccmDec_rejected (hreg.operandsLegal.mpr hlegal) ((hreg.fits P).trans hfit) hanswers fun hverified' =>
    hchanged ((decCandidate_eq_iff hreg hkey hnonce htag).mp ?_)
  rw [← hverified', hrecomputed, hverified]

/-! ## Another ciphertext, changed in one block (R115 f, log 20) -/

/-- With t = 16 the whole MAC is compared. -/
theorem decRecomputed_of_fullTag (P : Params) {s : State} (hnonce : s.legalNonce) (ht : s.tagLength = 16) :
    decRecomputed P s = ccmMac P (keyOperand P s) 16 (nonceOperand P s) (aadOperand P s) (decPlaintext P s) := by
  rw [decRecomputed, ht, List.take_of_length_le (ccmMac_length P _ _ (nonceOperand_length_le P hnonce) _ _).le]

/-- Settles O46: the recovered plaintexts differ within one block, so their MACs differ, but `U` is the same. -/
theorem oneBlockTamperingDetected : Obligations.OneBlockTamperingDetected := by
  intro P s u k hE ht hreg hkey hnonce haad htagSame hother hchanged hanswers hsucceeds
  obtain ⟨hlegal, hfit, hverified⟩ := ccmDec_of_succeeds hsucceeds
  have hlegal' := hreg.operandsLegal.mpr hlegal
  obtain ⟨-, htag, hlegalNonce, -⟩ := id hlegal
  obtain ⟨-, htag', hlegalNonce', -⟩ := id hlegal'
  have hlen := decPlaintext_length P htag
  have hlen' : (decPlaintext P u).length = (decPlaintext P s).length := by
    rw [decPlaintext_length P htag', hreg.msgLength, hlen]
  have houtside : ∀ i < (decPlaintext P s).length, i / 16 ≠ k → (decPlaintext P u)[i]? = (decPlaintext P s)[i]? := by
    intro i hi hk
    rw [hlen] at hi
    exact decPlaintext_getElem?_congr hreg hkey hnonce htag hi (hother i hi hk)
  have hrejected : decRecomputed P u ≠ decCandidate P u := by
    rw [(decCandidate_eq_iff hreg hkey hnonce htag).mpr htagSame, ← hverified,
      decRecomputed_of_fullTag P hlegalNonce' (hreg.tagLength.trans ht), decRecomputed_of_fullTag P hlegalNonce ht,
      hkey, hnonce, haad]
    intro hmac
    have hplain := ccmMac_injective_block (hE _) 16 (nonceOperand_length_le P hlegalNonce) _ hlen' houtside hmac
    exact hchanged ((decPlaintext_eq_iff hreg hkey hnonce htag).mp hplain)
  obtain ⟨hresult, -⟩ := ccmDec_rejected hlegal' ((hreg.fits P).trans hfit) hanswers hrejected
  exact hresult

/-! ## A ciphertext changed in two blocks (log 20) -/

/-- E(key, block) = block, every request answered OK, no capacity. -/
def identityCipher : Params := ⟨fun _ block => block, fun _ => .ok, fun _ _ => 0, fun _ _ _ => 0, none, none⟩

/-- A ciphertext of two blocks beside the 16-byte tag that verifies 32 bytes of 0 under E = identity. -/
def twoBlocks (ciphertext : Bytes) : State :=
  { State.reset with
    keyBits := 128, tagLen := 16, nonceLen := 13, msgLen := 32
    msgIn := memWriteBytes .msgIn 0 ciphertext []
    tagIn := memWriteBytes .tagIn 0 ([0x38] ++ zeros 14 ++ [0x23]) [] }

/-- The same bit changed in both blocks. -/
def cancellingChange : Bytes := [1] ++ zeros 15 ++ [1] ++ zeros 15

theorem twoBlocks_answers (ciphertext : Bytes) : allAnswersOk identityCipher (twoBlocks ciphertext) := fun _ _ => by
  simp [statusAt, twoBlocks, State.reset, identityCipher]

theorem twoBlocks_verifies : statusResult (runCommand identityCipher .ccmDec (twoBlocks (zeros 32))).status = 0 := by
  decide +kernel

/-- Under E = identity the MAC is the XOR of the blocks of `b_input`, so the two changes cancel. -/
theorem twoBlocks_cancellingChange_verifies :
    statusResult (runCommand identityCipher .ccmDec (twoBlocks cancellingChange)).status = 0 := by decide +kernel

/-- Refutes O47: the change of both blocks meets every premise, and the tag still verifies. -/
theorem not_anyMessageTamperingDetected : ¬ Obligations.AnyMessageTamperingDetected := by
  intro h
  have hchanged : msgOperand identityCipher (twoBlocks cancellingChange)
      ≠ msgOperand identityCipher (twoBlocks (zeros 32)) := by decide +kernel
  have hregisters : sameRegisters (twoBlocks (zeros 32)) (twoBlocks cancellingChange) := fun r => by cases r <;> rfl
  have hdetected := h identityCipher (twoBlocks (zeros 32)) (twoBlocks cancellingChange)
    (fun _ => Function.injective_id) rfl hregisters rfl rfl rfl rfl hchanged (twoBlocks_answers _)
    (failed_eq_false_iff.mpr twoBlocks_verifies)
  rw [twoBlocks_cancellingChange_verifies] at hdetected
  cases hdetected

end Sys2Proof.Machine
end

section
/-! # The requests on the cipher port

What a request does when it is run alone, by the primitive's status; the two modes block by block; and the requests a
command issues before the first Error. -/

namespace Sys2Proof.Machine

/-! ## A request run alone (R121 to R123, R129) -/

/-- The request that an operation of the port issues (R61). -/
def portRequest : Instr → Option PortRequest
  | .ciphInit mode => some (.init mode)
  | .ciphSetKey setup => some (.setKey setup)
  | .ciphEncrypt input => some (.encrypt input)
  | _ => none

theorem exec_portRequest {i : Instr} {r : PortRequest} (s : State) (h : portRequest i = some r) :
    exec i s = .next (settle (ciph Config.params r s)) := by
  cases i <;> cases h <;> rfl

theorem exec_portRequest_ok {i : Instr} {r : PortRequest} {s : State} (h : portRequest i = some r)
    (hst : statusAt Config.params s 0 = .ok) :
    exec i s = .next ((storeOutput (s.record ⟨r, .ok (requestOutput Config.params s.issued s.context r)⟩) r
      (requestOutput Config.params s.issued s.context r)).setContext (s.context.after r)) := by
  rw [exec_portRequest s h, ciph_ok hst, settle]

theorem exec_portRequest_error {i : Instr} {r : PortRequest} {s : State} (h : portRequest i = some r)
    (hst : statusAt Config.params s 0 = .error) :
    exec i s = .next (failureExit .cipherError ((s.record ⟨r, .error⟩).setContext CipherContext.unset)) := by
  rw [exec_portRequest s h, ciph_error hst, settle]

/-- Settles O31. -/
theorem ciphInitSelectsTheMode : Obligations.CiphInitSelectsTheMode := by
  intro s m hst
  rw [exec_portRequest_ok rfl hst]
  rfl

/-- Settles O32. -/
theorem ciphSetKeyInstallsTheKey : Obligations.CiphSetKeyInstallsTheKey := by
  intro s r hst
  rw [exec_portRequest_ok rfl hst]
  rfl

/-- Settles O35: the failure exit behind the one request recorded. -/
theorem portErrorEndsTheCommand : Obligations.PortErrorEndsTheCommand := by
  intro s i r hst hi
  have hr : portRequest i = some r := by
    rcases hi with ⟨m, rfl, rfl⟩ | ⟨k, rfl, rfl⟩ | ⟨input, rfl, rfl⟩ <;> rfl
  have hframe : EngineFrame s ((s.record ⟨r, .error⟩).setContext CipherContext.unset) :=
    (record_frame ..).trans (setContext_frame ..)
  refine ⟨_, exec_portRequest_error hr hst, by simp [Result.code], failureExit_nothingReleased _ _,
    (hframe.trans (failureExit_frame ..)).commandFrame (by simp) (failureExit_atRest _ _), by simp, by simp⟩

/-! ## CIPH_ENCRYPT (R120, R123, R131) -/

/-- CIPH_ENCRYPT stores its output in the mode's buffer (R123). -/
theorem storeOutput_encrypt {s : State} {b : WorkBuffer} (h : outputBuffer s.context.mode = some b)
    (input out : Bytes) : storeOutput s (.encrypt input) out = s.setWork b out := by
  simp only [storeOutput, h]

theorem exec_ciphEncrypt_ok {s : State} {input out : Bytes} {b : WorkBuffer} (hst : statusAt Config.params s 0 = .ok)
    (hbuffer : outputBuffer s.context.mode = some b)
    (hout : encryptOutput Config.params s.issued s.context input = out) :
    exec (.ciphEncrypt input) s = .next
      (((s.record ⟨.encrypt input, .ok out⟩).setWork b out).setContext (s.context.after (.encrypt input))) := by
  rw [exec_portRequest_ok rfl hst, requestOutput, hout, storeOutput_encrypt (s := s.record _) hbuffer]

/-- Settles O33: the contract is met, and the mode names the buffer. -/
theorem ciphEncryptUnderContract : Obligations.CiphEncryptUnderContract := by
  intro s input r m hst hctx hdir hwf hlen
  have hcontract : s.context.contract input = some r := hctx ▸ contract_of_fresh hdir hwf hlen
  refine ⟨?cbc, ?ctr⟩
  case cbc =>
    rintro rfl
    have hout : encryptOutput Config.params s.issued s.context input = cbcMode Config.params r.key r.iv input := by
      rw [encryptOutput, hcontract, hctx]
    rw [exec_ciphEncrypt_ok (b := .cbcOut) hst (hctx ▸ rfl) hout, hctx]
    rfl
  case ctr =>
    rintro rfl
    have hout : encryptOutput Config.params s.issued s.context input = ctrMode Config.params r.key r.iv input := by
      rw [encryptOutput, hcontract, hctx]
    rw [exec_ciphEncrypt_ok (b := .ctrOut) hst (hctx ▸ rfl) hout, hctx]
    rfl

/-- Outside the contract, or in a mode the engine does not use, the output is free (R131, R132; log 8). -/
theorem encryptOutput_of_no_contract (P : Params) (n : Nat) {ctx : CipherContext} {input : Bytes}
    (h : ctx.contract input = none ∨ ctx.mode = none ∨ ctx.mode = some .ecb) :
    encryptOutput P n ctx input = freeBytes P n input.length := by
  unfold encryptOutput
  rcases h with h | h | h <;> rw [h]
  all_goals cases ctx.contract input <;> rfl

theorem freeBytes_length (P : Params) (number length : Nat) : (freeBytes P number length).length = length := by
  simp [freeBytes]

theorem outputBuffer_eq_cbcOut {m : Option Mode} : outputBuffer m = some .cbcOut ↔ m = some .cbc := by
  rcases m with _ | _ | _ | _ <;> simp [outputBuffer]

theorem outputBuffer_eq_ctrOut {m : Option Mode} : outputBuffer m = some .ctrOut ↔ m = some .ctr := by
  rcases m with _ | _ | _ | _ <;> simp [outputBuffer]

theorem outputBuffer_ne {m : Option Mode} {b : WorkBuffer} (hcbc : b ≠ .cbcOut) (hctr : b ≠ .ctrOut) :
    outputBuffer m ≠ some b := by
  rcases m with _ | _ | _ | _ <;> simp [outputBuffer, hcbc.symm, hctr.symm]

/-- CIPH_ENCRYPT stores its output in the mode's buffer and in no other (R123; log 22). -/
theorem storeOutput_encrypt_work (s : State) (input out : Bytes) (b : WorkBuffer) :
    (storeOutput s (.encrypt input) out).work b =
      if outputBuffer s.context.mode = some b then some out else s.work b := by
  cases h : outputBuffer s.context.mode <;> simp [storeOutput, h, eq_comm]

@[simp] theorem storeOutput_trace (s : State) (r : PortRequest) (out : Bytes) :
    (storeOutput s r out).trace = s.trace := by
  unfold storeOutput; split <;> simp

@[simp] theorem storeOutput_issued (s : State) (r : PortRequest) (out : Bytes) :
    (storeOutput s r out).issued = s.issued := by
  unfold storeOutput; split <;> simp

/-- Settles O34: free bytes, as many as the input's, in the mode's buffer. -/
theorem ciphEncryptOutsideContract : Obligations.CiphEncryptOutsideContract := by
  intro s input hst hfree
  obtain ⟨out, hout, hlen⟩ : ∃ out, requestOutput Config.params s.issued s.context (.encrypt input) = out
      ∧ out.length = input.length :=
    ⟨_, encryptOutput_of_no_contract Config.params s.issued hfree, freeBytes_length ..⟩
  have hexec := exec_portRequest_ok (i := .ciphEncrypt input) rfl hst
  rw [hout] at hexec
  generalize ht : (storeOutput _ _ out).setContext _ = t at hexec
  have hframe := exec_frame hexec nofun nofun
  have hwork (b : WorkBuffer) : t.work b = if outputBuffer s.context.mode = some b then some out else s.work b := by
    rw [← ht, setContext_work, storeOutput_encrypt_work, record_context, record_work]
  have hkept {b : WorkBuffer} (hb : outputBuffer s.context.mode ≠ some b) : t.work b = s.work b :=
    (hwork b).trans (if_neg hb)
  exact ⟨t, out, hexec, hlen,
    fun h => (hwork .cbcOut).trans (if_pos (outputBuffer_eq_cbcOut.mpr h)),
    fun h => (hwork .ctrOut).trans (if_pos (outputBuffer_eq_ctrOut.mpr h)),
    fun h => hkept (b := .cbcOut) (outputBuffer_eq_cbcOut.not.mpr h),
    fun h => hkept (b := .ctrOut) (outputBuffer_eq_ctrOut.not.mpr h),
    by simp [← ht], hframe.sameOperands, hframe.blocks, by simp [← ht],
    fun sp => sameBytes_of_buffer_eq (by simp [← ht]), hkept (b := .bInput) (outputBuffer_ne nofun nofun),
    hkept (b := .ctrIv) (outputBuffer_ne nofun nofun), hkept (b := .ctrIn) (outputBuffer_ne nofun nofun),
    by simp [← ht], by simp [← ht], hframe.inputs, hframe.replies, hframe.port⟩

/-! ## The modes, block by block (R125, R126) -/

theorem blockAt_zero (bytes : Bytes) : blockAt bytes 0 = bytes.take 16 := rfl

theorem blockAt_succ (bytes : Bytes) (i : Nat) : blockAt bytes (i + 1) = blockAt (bytes.drop 16) i := by
  rw [blockAt, blockAt, slice, slice, List.drop_drop, Nat.mul_succ, Nat.add_comm]

/-- A block in front of others is block 0, and shifts the others by one. -/
theorem blockAt_append {a : Bytes} (h : a.length = 16) (b : Bytes) (i : Nat) :
    blockAt (a ++ b) i = if i = 0 then a else blockAt b (i - 1) := by
  cases i with
  | zero => rw [blockAt_zero, List.take_left' h, if_pos rfl]
  | succ i => rw [blockAt_succ, List.drop_left' h, if_neg (Nat.succ_ne_zero i), Nat.add_sub_cancel]

/-- Each block of a CBC chain is E of the input block xor the output block before it. -/
theorem cbcChain_blockAt (P : Params) (key : Bytes) {k : Nat} (prev input : Bytes) {i : Nat} (hi : i < k) :
    blockAt (cbcChain P key k prev input) i =
      cipherBlock P key (xorBytes (blockAt input i)
        (if i = 0 then prev else blockAt (cbcChain P key k prev input) (i - 1))) := by
  induction k generalizing prev input i with
  | zero => exact absurd hi (Nat.not_lt_zero i)
  | succ k ih =>
    have hblock := cipherBlock_length P key (xorBytes (input.take 16) prev)
    rw [cbcChain]
    cases i with
    | zero => rw [blockAt_append hblock, if_pos rfl, if_pos rfl, blockAt_zero]
    | succ i =>
      rw [if_neg (Nat.succ_ne_zero i), Nat.add_sub_cancel, blockAt_append hblock, blockAt_append hblock,
        if_neg (Nat.succ_ne_zero i), Nat.add_sub_cancel, blockAt_succ]
      exact ih _ _ (Nat.lt_of_succ_lt_succ hi)

/-- Settles O36. -/
theorem cbcModeChainsItsBlocks : Obligations.CbcModeChainsItsBlocks := fun P key iv input _ hlen =>
  ⟨cbcMode_length P key iv input hlen, fun _ hi => cbcChain_blockAt P key iv input hi⟩

theorem keystream_blockAt (P : Params) (key iv : Bytes) {k : Nat} (j : Nat) {i : Nat} (hi : i < k) :
    blockAt (keystream P key iv k j) i = cipherBlock P key (inc128 iv (j + i)) := by
  induction k generalizing i j with
  | zero => exact absurd hi (Nat.not_lt_zero i)
  | succ k ih =>
    rw [keystream, blockAt_append (cipherBlock_length ..)]
    cases i with
    | zero => rfl
    | succ i =>
      rw [if_neg (Nat.succ_ne_zero i), Nat.add_sub_cancel, ih (j + 1) (Nat.lt_of_succ_lt_succ hi),
        Nat.add_right_comm, Nat.add_assoc]

theorem ctrMode_eq_xorBytes (P : Params) (key iv : Bytes) {input : Bytes} (h : input.length % 16 = 0) :
    ctrMode P key iv input = xorBytes input (keystream P key iv (input.length / 16) 0) :=
  ctrChain_eq_xorBytes P key iv 0 (by omega)

/-- Settles O37: the pass XORs with a keystream that depends on the input's length alone. -/
theorem ctrModeXorsTheKeystream : Obligations.CtrModeXorsTheKeystream := by
  intro P key iv input hlen
  have hlength := ctrMode_length P key iv input hlen
  refine ⟨hlength, fun i hi => ?_, ?_⟩
  · rw [ctrMode_eq_xorBytes P key iv hlen, blockAt, slice_xorBytes]
    have hblock := keystream_blockAt P key iv 0 hi
    rw [blockAt, Nat.zero_add] at hblock
    rw [hblock, inc128, blockAt]
  · have hmask : input.length = (keystream P key iv (input.length / 16) 0).length := by
      rw [keystream_length]
      omega
    rw [ctrMode_eq_xorBytes P key iv (hlength ▸ hlen), hlength, ctrMode_eq_xorBytes P key iv hlen,
      xorBytes_xorBytes hmask]

/-! ## What a command issues (R130) -/

/-- From `s` to `t` exactly these requests were issued, in this order. -/
structure Issued (s t : State) (requests : List PortRequest) : Prop where
  trace : t.trace.map (·.request) = s.trace.map (·.request) ++ requests
  count : t.issued = s.issued + requests.length

theorem Issued.of_eq {s t : State} (htrace : t.trace = s.trace) (hissued : t.issued = s.issued) : Issued s t [] :=
  ⟨by simp [htrace], by simp [hissued]⟩

theorem Issued.trans {s t u : State} {rs qs : List PortRequest} (h : Issued s t rs) (k : Issued t u qs) :
    Issued s u (rs ++ qs) where
  trace := by rw [k.trace, h.trace, List.append_assoc]
  count := by rw [k.count, h.count, List.length_append, Nat.add_assoc]

theorem Issued.failureExit {s t : State} {rs : List PortRequest} (h : Issued s t rs) (r : Result) :
    Issued s (failureExit r t) rs := by
  simpa using h.trans (.of_eq (failureExit_trace r t) (failureExit_issued r t))

/-- A request is issued once, whatever its answer. -/
theorem ciph_issued (P : Params) (r : PortRequest) (s : State) : Issued s (ciph P r s).state [r] := by
  cases h : statusAt P s 0 with
  | ok => rw [ciph_ok h]; constructor <;> simp
  | error => rw [ciph_error h]; constructor <;> simp

theorem requestOf_eq_none {P : Params} {p : Phase} (s : State) (hp : asksPort p = false) :
    requestOf P p s = none := by
  cases p with
  | cbcInit | cbcKey | cbcRun | ctrInit | ctrKey | ctrRun => cases hp
  | _ => rfl

/-- A phase issues its request, where it has one, and no other. -/
theorem phaseOp_issued (P : Params) (c : Command) (p : Phase) (s : State) :
    Issued s (phaseOp P c p s).state (requestOf P p s).toList := by
  cases p with
  | cbcInit | cbcKey | cbcRun | ctrInit | ctrKey | ctrRun => exact ciph_issued P _ s
  | alloc =>
    obtain ⟨-, hissued, htrace⟩ := allocOp_records P s
    exact .of_eq htrace hissued
  | validate => rw [phaseOp, validateOp_state]; exact .of_eq rfl rfl
  | compare => rw [phaseOp, compareOp_state]; exact .of_eq rfl rfl
  | asmCtr | size | output => cases c <;> exact .of_eq rfl rfl
  | idle | clearOut | asmCbc | ctrIv | recover | free => exact .of_eq rfl rfl

/-- Entering a phase records nothing. -/
theorem phaseOp_enter_issued (P : Params) (c : Command) (p : Phase) (s : State) :
    Issued s (phaseOp P c p (s.enter c p)).state (requestOf P p (s.enter c p)).toList :=
  (Issued.of_eq rfl rfl : Issued s (s.enter c p) []).trans (phaseOp_issued P c p (s.enter c p))

theorem runPhases_issued_nil (P : Params) (c : Command) {ps : List Phase} (s : State)
    (hps : ∀ p ∈ ps, asksPort p = false) : Issued s (runPhases P c ps s) [] := by
  refine runPhases_keeps (Q := fun t => Issued s t []) (fun p hp t h => ?_) (fun r _ h => h.failureExit r)
    (fun _ h => h.trans (.of_eq rfl rfl)) (.of_eq rfl rfl)
  have hphase := phaseOp_enter_issued P c p t
  rw [requestOf_eq_none _ (hps p hp)] at hphase
  exact h.trans hphase

/-- The number of requests issued depends on the statuses to come alone. -/
theorem requestsIssued_shift {P : Params} {s t : State} {d : Nat} (h : ∀ k, statusAt P t k = statusAt P s (k + d))
    (k n : Nat) : requestsIssued P t k n = requestsIssued P s (k + d) n := by
  induction n generalizing k with
  | zero => rfl
  | succ n ih => rw [requestsIssued, requestsIssued, h, ih, Nat.add_right_comm]

/-! ## The requests of a stretch of the passes, in closed form -/

/-- The request of a phase, from the operands in `s` and the working buffers' bytes `W`. -/
def passRequest (P : Params) (s : State) (W : WorkBuffer → Bytes) : Phase → Option PortRequest
  | .cbcInit => some (.init .cbc)
  | .cbcKey => some (.setKey (keyRequest P s (zeros 16)))
  | .cbcRun => some (.encrypt (W .bInput))
  | .ctrInit => some (.init .ctr)
  | .ctrKey => some (.setKey (keyRequest P s (W .ctrIv)))
  | .ctrRun => some (.encrypt (W .ctrIn))
  | _ => none

theorem requestOf_eq_passRequest {P : Params} {s t : State} (h : EngineFrame s t) (p : Phase) :
    requestOf P p t = passRequest P s t.workBytes p := by
  cases p <;> simp only [requestOf, passRequest, h.keyRequest]

theorem requestOf_enter {P : Params} {s t : State} (h : EngineFrame s t) (c : Command) (p : Phase) :
    requestOf P p (t.enter c p) = passRequest P s t.workBytes p :=
  requestOf_eq_passRequest (h.trans (enter_frame t c p)) p

/-- The requests of a list of phases while each is answered OK: `passWork` gives the buffers from phase to phase. -/
def passRequests (P : Params) (c : Command) (s : State) : List Phase → (WorkBuffer → Bytes) → List PortRequest
  | [], _ => []
  | p :: ps, W => (passRequest P s W p).toList ++ passRequests P c s ps (passWork P c s W p)

section Issues

variable {P : Params} {c : Command} {s t : State}

/-- One pass that goes on: its request was issued, and what follows it begins from the closed forms. -/
theorem pass_issued {p : Phase} (hframe : EngineFrame s t) (hp : p ∈ passesOf c) (hcompare : p ≠ .compare)
    (hprepared : Prepared P p t) (hst : asksPort p = true → statusAt P t 0 = .ok) :
    ∃ u, phaseOp P c p (t.enter c p) = .ok u ∧ EngineFrame s u ∧ u.workBytes = passWork P c s t.workBytes p
      ∧ (∀ k, statusAt P u k = statusAt P t (k + (asksPort p).toNat))
      ∧ Issued t u (passRequest P s t.workBytes p).toList ∧ ∀ q, follows p q → Prepared P q u := by
  have henter : EngineFrame s (t.enter c p) := hframe.trans (enter_frame t c p)
  have hfirst := hprepared.enter c p
  obtain ⟨u, hu, hstatus, hwork⟩ := hfirst.passes hp hcompare hst
  obtain ⟨hsize, -⟩ := ne_of_mem_passesOf p hp
  have hphase := phaseOp_frame P c (t.enter c p) hsize
  have hissued := phaseOp_enter_issued P c p t
  rw [requestOf_enter hframe] at hissued
  rw [henter.passWork] at hwork
  rw [hu] at hphase hissued
  exact ⟨u, hu, henter.trans hphase, hwork, hstatus, hissued, fun q hq => hfirst.next hp hq hu⟩

/-- A request answered Error ends the command: it is the last one issued (R128, R130). -/
theorem runPhases_issued_error {p : Phase} {r : PortRequest} (ps : List Phase)
    (hr : requestOf P p (t.enter c p) = some r) (hst : statusAt P t 0 = .error) :
    Issued t (runPhases P c (p :: ps) t) [r] := by
  have hissued := phaseOp_enter_issued P c p t
  have hraise := (phaseOp_of_requestOf (c := c) hr).trans (ciph_error hst)
  rw [hraise, hr] at hissued
  rw [runPhases_raise hraise]
  exact hissued.failureExit .cipherError

/-- The passes up to their first Error, and behind them a `rest` that issues nothing. -/
theorem runPhases_issued (hframe : EngineFrame s t) (ps : List Phase) {rest : List Phase}
    (hpasses : ∀ p ∈ ps, p ∈ passesOf c ∧ p ≠ .compare) (hchain : ps.IsChain follows)
    (hprepared : ∀ p ∈ ps.head?, Prepared P p t) (hrest : ∀ p ∈ rest, asksPort p = false) :
    Issued t (runPhases P c (ps ++ rest) t)
      ((passRequests P c s ps t.workBytes).take (requestsIssued P t 0 (ps.countP asksPort))) := by
  induction ps generalizing t with
  | nil => exact runPhases_issued_nil P c t hrest
  | cons p ps ih =>
    obtain ⟨⟨hp, hcompare⟩, htail⟩ := List.forall_mem_cons.mp hpasses
    obtain ⟨hfollows, hchain⟩ := List.isChain_cons.mp hchain
    have hrequest := requestOf_enter (P := P) hframe c p
    have hgoesOn (hst : asksPort p = true → statusAt P t 0 = .ok) :
        Issued t (runPhases P c (p :: (ps ++ rest)) t) ((passRequest P s t.workBytes p).toList
          ++ (passRequests P c s ps (passWork P c s t.workBytes p)).take
            (requestsIssued P t (asksPort p).toNat (ps.countP asksPort))) := by
      obtain ⟨u, hu, hafter, hwork, hstatus, hissued, hnext⟩ :=
        pass_issued hframe hp hcompare (hprepared p rfl) hst
      have hlater := ih hafter htail hchain fun q hq => hnext q (hfollows q hq)
      rw [requestsIssued_shift hstatus, Nat.zero_add, hwork] at hlater
      rw [runPhases_ok hu]
      exact hissued.trans hlater
    rw [passRequests, List.cons_append]
    cases hasks : asksPort p with
    | false =>
      have hnone := hrequest.symm.trans (requestOf_eq_none _ hasks)
      rw [List.countP_cons_of_neg (by simp [hasks])]
      simpa [hasks, hnone] using hgoesOn
    | true =>
      obtain ⟨r, hr⟩ := requestOf_of_asksPort (P := P) (t.enter c p) hasks
      have hsome := hrequest.symm.trans hr
      rw [List.countP_cons_of_pos hasks, requestsIssued, hsome]
      cases hst : statusAt P t 0 with
      | error => exact runPhases_issued_error _ hr hst
      | ok => simpa [hasks, hsome, hst, Nat.add_comm 1] using hgoesOn

end Issues

/-! ## The six requests of a command (R130) -/

/-- The requests of CCM_ENC: the CBC pass over the operands, then the CTR pass over MAC and message. -/
theorem passRequests_ccmEnc (P : Params) {s : State} (hnonce : s.legalNonce) (W : WorkBuffer → Bytes) :
    passRequests P .ccmEnc s (passesOf .ccmEnc) W = encPlan P s := by
  have hmac := ccmMac_length P (keyOperand P s) s.tagLength (nonceOperand_length_le P hnonce) (aadOperand P s)
    (msgOperand P s)
  have hblocks : s.cbcBlocks = cbcBlocks (msgOperand P s).length (aadOperand P s).length := by
    rw [msgOperand_length, aadOperand_length, State.cbcBlocks]
  rw [ccmMac, ← hblocks] at hmac
  simp only [passesOf, passRequests, passRequest, passWork, encPlan, ccmMac, ← hblocks]
  simp [passHead, passMessage, sourceOf, hmac]

/-- The requests of CCM_DEC: the CTR pass over tag and message, then the CBC pass over what it recovered. -/
theorem passRequests_ccmDec (P : Params) (s : State) (W : WorkBuffer → Bytes) :
    passRequests P .ccmDec s decPasses W = decPlan P s := by
  simp [decPasses, passRequests, passRequest, passWork, passHead, passMessage, sourceOf, decPlan, decPlaintext,
    decOutput, ccmCtr]

section Commands

variable {P : Params} {c : Command} {s : State}

/-- A command that VALIDATE or ALLOC ends issues no request. -/
theorem runCommand_issued_nil (hc : c.isCcm = true) (h : ¬ (operandsLegal s ∧ fits P s = true)) :
    Issued s (runCommand P c s) [] := by
  rcases runCommand_cases P s hc with ⟨r, p, hrun⟩ | ⟨hlegal, hfit, -⟩
  · rw [hrun]
    exact Issued.failureExit (.of_eq rfl rfl) r
  · exact absurd ⟨hlegal, hfit⟩ h

/-- A command whose operands are legal and fit issues the six requests of its passes `ps`, up to the first Error. -/
theorem runCommand_issued (hc : c.isCcm = true) {plan : List PortRequest} {ps rest : List Phase}
    (hplan : operandsLegal s → passRequests P c s ps (allocated P c s).workBytes = plan)
    (hsix : ps.countP asksPort = 6) (hsplit : passesOf c ++ [.output, .free] = ps ++ rest)
    (hpasses : ∀ p ∈ ps, p ∈ passesOf c ∧ p ≠ .compare) (hchain : ps.IsChain follows)
    (hfirst : ∀ p ∈ ps.head?, requiredBefore p = none) (hrest : ∀ p ∈ rest, asksPort p = false) :
    Issued s (runCommand P c s) (if operandsLegal s ∧ fits P s = true
      then plan.take (requestsIssued P s 0 6) else []) := by
  split
  case isTrue h =>
    obtain ⟨hlegal, hfit⟩ := h
    have hstart : Issued s (allocated P c s) [] := by
      obtain ⟨-, hissued, htrace⟩ := allocOp_records P (s.clearOutputs.enter c .alloc)
      exact .of_eq htrace hissued
    have hrun := runPhases_issued (allocated_frame P c s) ps hpasses hchain
      (fun p hp => prepared_allocated hlegal hfit (hfirst p hp)) hrest
    rw [hplan hlegal, hsix, requestsIssued_shift (d := 0) (statusAt_allocated P c s)] at hrun
    rw [runCommand_fit hc hlegal hfit, hsplit]
    exact hstart.trans hrun
  case isFalse h => exact runCommand_issued_nil hc h

end Commands

theorem runCommand_ccmEnc_issued (P : Params) (s : State) :
    Issued s (runCommand P .ccmEnc s) (if operandsLegal s ∧ fits P s = true
      then (encPlan P s).take (requestsIssued P s 0 6) else []) :=
  runCommand_issued (ps := passesOf .ccmEnc) rfl (fun ⟨_, _, hnonce, _⟩ => passRequests_ccmEnc P hnonce _) rfl rfl
    (by decide) (by decide) (by decide) (by decide)

theorem runCommand_ccmDec_issued (P : Params) (s : State) :
    Issued s (runCommand P .ccmDec s) (if operandsLegal s ∧ fits P s = true
      then (decPlan P s).take (requestsIssued P s 0 6) else []) :=
  runCommand_issued (ps := decPasses) (rest := [.compare, .output, .free]) rfl
    (fun _ => passRequests_ccmDec P s _) rfl rfl (by decide) (by decide) (by decide) (by decide)

/-- Settles O43: the passes issue the plan's requests up to the first Error; nothing else of a command issues one. -/
theorem commandIssuesItsRequests : Obligations.CommandIssuesItsRequests := by
  refine ⟨fun s i plan hi => ?ccm, fun s i hi => ?size, fun _ => ⟨rfl, rfl⟩⟩
  case ccm =>
    rcases hi with ⟨rfl, rfl⟩ | ⟨rfl, rfl⟩
    · obtain ⟨htrace, hcount⟩ := runCommand_ccmEnc_issued Config.params s
      exact ⟨_, _, rfl, rfl, htrace, hcount⟩
    · obtain ⟨htrace, hcount⟩ := runCommand_ccmDec_issued Config.params s
      exact ⟨_, _, rfl, rfl, htrace, hcount⟩
  case size => rcases hi with rfl | rfl <;> exact ⟨_, rfl, rfl, rfl⟩

end Sys2Proof.Machine
end

section
/-! # The failure exit, and which result a command leaves

Where a run of the passes meets an Error, it takes the failure exit with CipherError. With that, each test of a CCM
command has its own end, and its RESULT is the first cause in R143's order. -/

namespace Sys2Proof.Machine

/-! ## The failure exit (R146) -/

/-- Settles O22. -/
theorem failureExitEffect : Obligations.FailureExitEffect := fun r s =>
  ⟨failureExit_nothingReleased r s, (failureExit_frame r s).commandFrame (by simp) (failureExit_atRest r s), by simp,
    failureExit_trace r s, failureExit_issued r s, failureExit_context r s, fun _ _ _ _ _ => runPhases_raise, rfl,
    by simp [invalidCommand, Result.code], by simp [invalidCommand]⟩

/-! ## A request answered Error (R128, R129) -/

/-- A pass that issues no request, the comparison aside, goes on. -/
theorem phaseOp_ok_of_asksNothing (P : Params) {c : Command} {p : Phase} (s : State) (hp : p ∈ passesOf c)
    (hcompare : p ≠ .compare) (hasks : asksPort p = false) : ∃ t, phaseOp P c p s = .ok t := by
  cases p with
  | asmCbc | ctrIv | asmCtr | recover => exact ⟨_, rfl⟩
  | compare => exact absurd rfl hcompare
  | cbcInit | cbcKey | cbcRun | ctrInit | ctrKey | ctrRun => cases hasks
  | idle | clearOut | validate | alloc | output | free | size => cases c <;> simp [passesOf] at hp

/-- A stretch of the passes in front of the comparison, one of whose requests is answered Error: CipherError. -/
theorem runPhases_cipherError {P : Params} {c : Command} {s : State} {k : Nat} (ps rest : List Phase)
    (hpasses : ∀ p ∈ ps, p ∈ passesOf c ∧ p ≠ .compare) (hk : k < ps.countP asksPort)
    (herror : statusAt P s k = .error) : ∃ t, runPhases P c (ps ++ rest) s = failureExit .cipherError t := by
  induction ps generalizing s k with
  | nil => exact absurd hk (Nat.not_lt_zero k)
  | cons p ps ih =>
    obtain ⟨⟨hp, hcompare⟩, htail⟩ := List.forall_mem_cons.mp hpasses
    have herror : statusAt P (s.enter c p) k = .error := herror
    rw [List.cons_append]
    cases hasks : asksPort p with
    | false =>
      rw [List.countP_cons_of_neg (by simp [hasks])] at hk
      obtain ⟨t, ht⟩ := phaseOp_ok_of_asksNothing P (s.enter c p) hp hcompare hasks
      have hstatus := phaseOp_statusAt (P := P) (c := c) hasks (s.enter c p) k
      rw [ht, Flow.state_ok, herror] at hstatus
      rw [runPhases_ok ht]
      exact ih htail hk hstatus
    | true =>
      rw [List.countP_cons_of_pos hasks] at hk
      obtain ⟨r, hr⟩ := requestOf_of_asksPort (P := P) (s.enter c p) hasks
      have hciph := phaseOp_of_requestOf (c := c) hr
      cases hst : statusAt P (s.enter c p) 0 with
      | error => exact ⟨_, runPhases_raise (hciph.trans (ciph_error hst))⟩
      | ok =>
        have hok := ciph_ok (r := r) hst
        obtain ⟨-, hnext⟩ := ciph_of_ok hok
        rw [runPhases_ok (hciph.trans hok)]
        cases k with
        | zero => cases hst.symm.trans herror
        | succ k => exact ih htail (Nat.lt_of_succ_lt_succ hk) ((hnext k).trans herror)

theorem exists_error_of_not_allAnswersOk {P : Params} {s : State} (h : ¬ allAnswersOk P s) :
    ∃ k < 6, statusAt P s k = .error := by
  simp only [allAnswersOk, not_forall] at h
  obtain ⟨k, hk, hne⟩ := h
  refine ⟨k, hk, ?_⟩
  cases hst : statusAt P s k with
  | ok => exact absurd hst hne
  | error => rfl

section Commands

variable {P : Params} {c : Command} {s : State}

/-- A CCM command whose operands are legal and fit, with an Error among its six answers. -/
theorem runCommand_cipherError (hc : c.isCcm = true) (hlegal : operandsLegal s) (hfit : fits P s = true)
    (hanswers : ¬ allAnswersOk P s) : ∃ t, runCommand P c s = failureExit .cipherError t := by
  obtain ⟨k, hk, herror⟩ := exists_error_of_not_allAnswersOk hanswers
  rw [← statusAt_allocated P c s] at herror
  rw [runCommand_fit hc hlegal hfit]
  cases c with
  | ccmEnc => exact runPhases_cipherError (passesOf .ccmEnc) [.output, .free] (by decide) hk herror
  | ccmDec => exact runPhases_cipherError decPasses [.compare, .output, .free] (by decide) hk herror
  | cbcSize | ctrSize => cases hc

/-! ## The order of the causes (R143) -/

/-- What a CCM command with legal operands reports: R143's causes behind VALIDATE, in their order. -/
def resultBehindValidate (P : Params) (c : Command) (s : State) : Result :=
  if fits P s = false then .allocationFailure
  else if ¬ allAnswersOk P s then .cipherError
  else if c = .ccmDec ∧ decRecomputed P s ≠ decCandidate P s then .authenticationFailure
  else .ok

/-- What a CCM command reports: VALIDATE's first cause, or else the first one behind it (R143). -/
def resultOf (P : Params) (c : Command) (s : State) : Result :=
  (validateCause s).getD (resultBehindValidate P c s)

theorem statusResult_failureExit (r : Result) (t : State) : statusResult (failureExit r t).status = r.code := by simp

/-- With legal operands that fit and six OK answers, the comparison of CCM_DEC alone can fail. -/
theorem runCommand_answered_result (hc : c.isCcm = true) (hlegal : operandsLegal s) (hfit : fits P s = true)
    (hanswers : allAnswersOk P s) :
    statusResult (runCommand P c s).status =
      if c = .ccmDec ∧ decRecomputed P s ≠ decCandidate P s then 7 else 0 := by
  cases c with
  | ccmEnc =>
    obtain ⟨u, -, -, -, -, hrun⟩ := runCommand_ccmEnc hlegal hfit hanswers
    rw [hrun, if_neg (by simp)]
    simp [runPhases, phaseOp, freeOp, outputOp_result (c := .ccmEnc) _ rfl]
  | ccmDec =>
    by_cases htags : decRecomputed P s = decCandidate P s
    · obtain ⟨hresult, -⟩ := ccmDec_verified hlegal hfit hanswers htags
      rw [hresult, if_neg (by simp [htags])]
    · obtain ⟨hresult, -⟩ := ccmDec_rejected hlegal hfit hanswers htags
      rw [hresult, if_pos ⟨rfl, htags⟩]
  | cbcSize | ctrSize => cases hc

/-- A CCM command leaves the first cause in RESULT (R143). -/
theorem runCommand_result (hc : c.isCcm = true) :
    statusResult (runCommand P c s).status = (resultOf P c s).code := by
  unfold resultOf
  cases hcause : validateCause s with
  | some r => rw [runCommand_illegal P hc hcause, statusResult_failureExit, Option.getD_some]
  | none =>
    have hlegal := (validateCause_none s).mp hcause
    rw [Option.getD_none, resultBehindValidate]
    cases hfit : fits P s with
    | false => rw [runCommand_unfit hc hlegal hfit, statusResult_failureExit, if_pos rfl]
    | true =>
      rw [if_neg (by simp)]
      by_cases hanswers : allAnswersOk P s
      · rw [runCommand_answered_result hc hlegal hfit hanswers, if_neg (not_not.mpr hanswers), apply_ite Result.code]
        rfl
      · obtain ⟨t, ht⟩ := runCommand_cipherError hc hlegal hfit hanswers
        rw [ht, statusResult_failureExit, if_pos hanswers]

/-- The codes of the causes, in their order (R140, R143). -/
theorem resultOf_code :
    (resultOf P c s).code =
      if ¬ s.legalKey then 8
      else if ¬ s.legalTag then 1
      else if ¬ s.legalNonce then 2
      else if ¬ s.legalAad then 3
      else if ¬ s.legalMsg then 4
      else if fits P s = false then 5
      else if ¬ allAnswersOk P s then 6
      else if c = .ccmDec ∧ decRecomputed P s ≠ decCandidate P s then 7
      else 0 := by
  rw [resultOf, validateCause]
  simp only [apply_ite fun cause : Option Result => (cause.getD (resultBehindValidate P c s)).code]
  simp only [Option.getD_some, Option.getD_none, resultBehindValidate, apply_ite Result.code]
  rfl

end Commands

/-! ## The write to CMD (R12, R143) -/

theorem step_commandWrite {s : State} {w : Word} {rest : List Input} (hi : s.phase = .idle) (hp : s.port = none)
    (hin : s.inputs = .writeReg 0 w :: rest) : step s = commandWrite w { s with inputs := rest } :=
  calc step s = regWrite 0 w { s with inputs := rest } := step_access hi hp hin nofun
    _ = commandWrite w { s with inputs := rest } := if_pos rfl

/-- Only a reserved word has no command (R51, R52). -/
theorem reserved_of_decodeCommand {w : Word} {e : DecodeError} (h : decodeCommand w = .error e) :
    w ≠ 0x00000001#32 ∧ w ≠ 0x00000002#32 ∧ w ≠ 0x00000010#32 ∧ w ≠ 0x00000011#32 := by
  refine ⟨?_, ?_, ?_, ?_⟩ <;> rintro rfl <;> simp [decodeCommand] at h

/-- What a command reports does not depend on the accesses still to come. -/
theorem resultOf_inputs (P : Params) (c : Command) (s : State) (rest : List Input) :
    resultOf P c { s with inputs := rest } = resultOf P c s := rfl

/-- Settles O41: a reserved word, a CCM command, whose causes are those of `resultOf_code`, or a size command. -/
theorem commandResultByPriority : Obligations.CommandResultByPriority := by
  intro s w rest hi hp hin
  rw [step_commandWrite hi hp hin]
  cases hw : decodeCommand w with
  | error e =>
    refine ⟨_, commandWrite_reserved hw _, by simp [invalidCommand], ?_⟩
    rw [if_pos (reserved_of_decodeCommand hw)]
    simp [invalidCommand, Result.code]
  | ok i =>
    rw [commandWrite, hw]
    obtain ⟨rfl, rfl⟩ | ⟨rfl, rfl⟩ | ⟨rfl, rfl⟩ | ⟨rfl, rfl⟩ := decodeCommand_eq_ok.mp hw
    case inl | inr.inl =>
      refine ⟨_, rfl, runCommand_done _ _ rfl, ?_⟩
      rw [runCommand_result rfl, resultOf_inputs, resultOf_code]
      simp
    case inr.inr.inl | inr.inr.inr =>
      obtain ⟨hresult, hdone, -⟩ := status_ok s.status
      exact ⟨_, rfl, hdone, hresult⟩

end Sys2Proof.Machine
end

section
/-! # The idle engine, and a reset at any moment

R160: nothing runs until the host makes an access. What a reset leaves is State.reset but for the model's own records
and the epoch, which index the outside world; so its values are those of R21. -/

namespace Sys2Proof.Machine

/-! ## Waiting in IDLE (R160) -/

/-- The host's turn comes, and no access is there to take. -/
theorem step_idle {s : State} (hi : s.phase = .idle) (hp : s.port = none) (hin : s.inputs = []) :
    step s = .next s := by
  have hreset : s.inputs.head? ≠ some .reset := by simp [hin]
  rw [step_host hreset hp hi, hostTurn, hin]

/-- Settles O8. -/
theorem idleEngineWaits : Obligations.IdleEngineWaits :=
  ⟨step_idle rfl rfl rfl, fun _ => step_idle⟩

/-! ## What a reset leaves (R21, R160) -/

@[simp] theorem resetFrom_operand (s : State) (r : OperandReg) : (resetFrom s).operand r = State.reset.operand r := by
  cases r <;> rfl

@[simp] theorem resetFrom_work (s : State) (b : WorkBuffer) : (resetFrom s).work b = State.reset.work b := by
  cases b <;> rfl

@[simp] theorem resetFrom_buffer (s : State) (sp : Space) : (resetFrom s).buffer sp = State.reset.buffer sp := by
  cases sp <;> rfl

/-- No byte of an operand buffer has a value before it is written (R21). -/
theorem unlisted_of_hostWritable {sp : Space} (h : hostWritable sp = true) : unlisted sp = none := by
  cases sp with
  | key | nonce | aad | msgIn | tagIn => rfl
  | msgOut | tagOut => cases h

/-- An operand byte behind a reset is the free byte of the new epoch (R21, log 5). -/
theorem resetFrom_byteAt (P : Params) (s : State) {sp : Space} (h : hostWritable sp = true) (i : Nat) :
    byteAt P (resetFrom s) sp i = P.resetByte (s.epoch + 1) sp i := by
  rw [byteAt, resetFrom_buffer, reset_buffer, memRead_nil, unlisted_of_hostWritable h]
  rfl

/-- Settles O10: reset's turn comes before all others (`step_reset`), and the registers and working buffers it leaves
are those of the reset state (`resetValues`). -/
theorem resetAtAnyMoment : Obligations.ResetAtAnyMoment := by
  intro s rest hin
  obtain ⟨hoperand, -, -, -, -, hwork, -⟩ := resetValues
  refine ⟨resetFrom { s with inputs := rest }, step_reset hin, fun r => ?operands, rfl, rfl,
    nothingReleased_of_empty rfl rfl, rfl, rfl, fun b => ?work, rfl, rfl, fun sp hsp i => ?bytes⟩
  case operands => rw [resetFrom_operand, hoperand]
  case work => rw [resetFrom_work, hwork]
  case bytes => exact resetFrom_byteAt Config.params _ hsp i

end Sys2Proof.Machine
end
